-- ==== Sys2Proof/Word.lean ====
section
/-! DEFINITION. The plain types the whole model speaks in: data words, lane masks and the numbers of
requesters, stations and slots (00 section 5; R1, R23, R29). -/

namespace Sys2Proof

/-- A 32-bit data word (00 section 6.3). -/
abbrev Word := BitVec 32

/-- One byte of a data word. -/
abbrev Byte := BitVec 8

/-- A four-lane byte-enable mask; lane 0 is data bits 7:0 (R23). -/
abbrev Lanes := BitVec 4

/-- The word address NA[31:2] of a near access (R23). -/
abbrev NearAddr := BitVec 30

/-- A station offset divided by 4: block offset bits 19:2 (R5, R29). -/
abbrev WordOffset := BitVec 18

/-- A control window offset divided by 4 (R177). -/
abbrev WindowOffset := BitVec 10

/-- A near-bus master, 0 to 7 (R23). -/
abbrev Requester := Fin 8

/-- A rack module, 0 to 15 (R29). -/
abbrev Station := Fin 16

/-- A place in the Request Table, 0 to 23 (R1). -/
abbrev Slot := Fin 24

/-- The two-bit sequence number of a far request (R70). -/
abbrev Tag := BitVec 2

end Sys2Proof
end

