-- ==== Sys2Proof/Syntax.lean ====
section
/-! DEFINITION. The commands the part takes: one constructor of `Instr` for each row of
spec/opcode_table.json, with the row's operands. -/

namespace Sys2Proof

/-- The direction of a near access; a write carries its data word and the bit on NCHK (R23). -/
inductive Direction where
  | read
  | write (data : Word) (check : Bool)
  deriving DecidableEq, Repr

/-- One transfer of the near bus, as presented (R23). -/
structure NearAccess where
  requester : Requester
  address : NearAddr
  lanes : Lanes
  direction : Direction
  deriving DecidableEq, Repr

/-- A claimed write of a control window word whose offset the command's row fixes (R180, R181). -/
structure WindowWrite where
  requester : Requester
  lanes : Lanes
  data : Word
  check : Bool
  deriving DecidableEq, Repr

/-- The four words of a watch setup (R106, R108). -/
inductive SetupField where
  | mode
  | reference
  | mask
  | pollLimit
  deriving DecidableEq, Repr

/-- The two words of notice flags, and of their enables (R177). -/
inductive NoticeWord where
  | a
  | b
  deriving DecidableEq, Repr

/-- The commands of the part. Each docstring names the row and the rule the table gives it. -/
inductive Instr where
  /-- CHIP_RESET (R22): RST# is asserted. -/
  | chipReset
  /-- RESET_RELEASE (R26): RST# rises and the straps are sampled. -/
  | resetRelease (bsel : BitVec 4) (own : Requester)
  /-- FAR_ACCESS (R34): a read or write of the far aperture. -/
  | farAccess (access : NearAccess)
  /-- WATCH_READ (R105): a read of the watch aperture. -/
  | watchRead (requester : Requester) (address : NearAddr) (lanes : Lanes)
  /-- WATCH_APERTURE_WRITE (R32): a write to the watch aperture. -/
  | watchApertureWrite (requester : Requester) (address : NearAddr) (lanes : Lanes) (data : Word) (check : Bool)
  /-- APERTURES_OPEN_WRITE (R28): a write of global control that selects apertures-open. -/
  | aperturesOpenWrite (w : WindowWrite)
  /-- TIME_BASE_SELECT_WRITE (R140): a write of global control that selects the time base select. -/
  | timeBaseSelectWrite (w : WindowWrite)
  /-- SILENCE_LIMIT_WRITE (R131): a write of the silence limit. -/
  | silenceLimitWrite (w : WindowWrite)
  /-- STATION_MODE_WRITE (R125): a write of a station's mode and class word that selects the mode. -/
  | stationModeWrite (station : Station) (w : WindowWrite)
  /-- CLEAR_LATE_COUNT (R80): a write of far link clear. -/
  | clearLateCount (w : WindowWrite)
  /-- CLEAR_MISADDRESSED_COUNT (R80): a write of far link clear. -/
  | clearMisaddressedCount (w : WindowWrite)
  /-- CLEAR_TURNED_AWAY_COUNT (R150): a write of a requester's counter clear. -/
  | clearTurnedAwayCount (entry : Requester) (w : WindowWrite)
  /-- CLEAR_UNCLAIMED_COUNT (R150): a write of a requester's counter clear. -/
  | clearUnclaimedCount (entry : Requester) (w : WindowWrite)
  /-- FAULT_CLEAR (R154): a write of a requester's fault offset and clear word. -/
  | faultClear (entry : Requester) (w : WindowWrite)
  /-- WATCH_SETUP_WRITE (R108): a write of one word of a requester's watch setup. -/
  | watchSetupWrite (entry : Requester) (field : SetupField) (w : WindowWrite)
  /-- NOTICE_CLEAR (R157): a write of a word of notice flags. -/
  | noticeClear (word : NoticeWord) (w : WindowWrite)
  /-- NOTICE_ENABLE_WRITE (R158): a write of a word of notice enables. -/
  | noticeEnableWrite (word : NoticeWord) (w : WindowWrite)
  /-- OVERLAP_CLEAR (R164): a write of the command status. -/
  | overlapClear (w : WindowWrite)
  /-- REGISTER_WRITE (R181): a claimed write of any other control window word. -/
  | registerWrite (offset : WindowOffset) (w : WindowWrite)
  /-- VIEW (R167): the owner writes command code 01h. -/
  | view (operand : Byte)
  /-- WITHDRAW (R169): the owner writes command code 02h. -/
  | withdraw (operand : Byte)
  /-- WITHDRAW_REQUESTER (R173): the owner writes command code 03h. -/
  | withdrawRequester (operand : Byte)
  /-- CLEAR (R174): the owner writes command code 04h. -/
  | clear (operand : Byte)
  /-- READMIT (R175): the owner writes command code 05h. -/
  | readmit (operand : Byte)
  /-- FAR_RESET (R176): the owner writes command code 06h. -/
  | farReset (operand : Byte)
  /-- BAD_COMMAND (R165): the owner writes a code that names no command. -/
  | badCommand (code : Byte) (operand : Byte)
  /-- CHOICE (R57): the Far Scheduler takes a choice. -/
  | choice
  /-- LAST_BEAT_DRIVEN (R71): the last beat of the far request has been driven. -/
  | lastBeatDriven
  /-- FAR_REPLY (R75): a station presents a reply; `kind` is the code on FKIND[1:0]. -/
  | farReply (station : Station) (tag : Tag) (kind : BitVec 2) (data : Word) (check : Bool)
  /-- SILENT (R73): the expiry of the reply timer is taken in AWAIT. -/
  | silent
  /-- TICK (R139): a tick is produced and handed to the timers. -/
  | tick
  /-- BACKOFF_END (R142): the backoff of the record in a slot ends. -/
  | backoffEnd (slot : Slot)
  /-- WATCH_DUE (R143): the poll timer of the record in a slot reaches 0. -/
  | watchDue (slot : Slot)
  /-- DISCARD (R144): the collection timer of the record in a slot reaches 0. -/
  | discard (slot : Slot)
  /-- FAR_RESET_END (R85): the far reset timer reaches 0. -/
  | farResetEnd
  deriving DecidableEq, Repr

end Sys2Proof
end

