-- ==== Sys2Proof/Decode.lean ====
section
/-! DEFINITION. The part is a block without an instruction decoder: spec/opcode_table.json gives no row any bits,
so no word spells a command (assumption 20). -/

namespace Sys2Proof

/-- The command that a word of `nbits` bits spells by the table's bits: none, for no row gives bits. -/
def decodeTableWord (_nbits _w : Nat) : Option Instr := none

end Sys2Proof
end

