-- ==== Sys2Proof/Config.lean ====
section
/-! DEFINITION. The fixed quantities of the part, and the two strap values the card supplies.
The spec leaves no value open that a command could need, so there is no free value here. -/

namespace Sys2Proof.Config

/-- The near address at which claim block 0 starts (R27). -/
def claimBase : Nat := 0xC0000000

/-- The size of the claim block, 64 MiB (R27). -/
def claimBytes : Nat := 0x4000000

/-- The ticks of a far reset (R67, R82). -/
def farResetTicks : Nat := 4

/-- The CLK periods of one beat of a far request (R185). -/
def clksPerBeat : Nat := 2

/-- BSEL[3:0] in `State.reset`. DESIGN CHOICE (assumption 1, unsafe): the spec samples it from straps. -/
def resetBsel : BitVec 4 := 0

/-- OWN[2:0] in `State.reset`. DESIGN CHOICE (assumption 1, unsafe): the spec samples it from straps. -/
def resetOwn : Requester := 0

end Sys2Proof.Config
end

