-- ==== Sys2Proof/Machine/State.lean ====
section
/-! DEFINITION. The state of the part, block by block, its reset values, and the reasons a step could stop.
INVENTORY.md lists every field with the rule that names it. -/

namespace Sys2Proof.Machine

/-! ### Names the spec gives -/

/-- The kind of a record (R5). -/
inductive Kind where
  | read
  | write
  | watch
  deriving DecidableEq, Repr

/-- The six states of a slot (R2). -/
inductive RecordState where
  | free
  | pending
  | attempt
  | backoff
  | watch
  | ready
  deriving DecidableEq, Repr

/-- The test a watch makes (R106). -/
inductive WatchMode where
  | differ
  | change
  deriving DecidableEq, Repr

/-- How a finished record ended (R11). -/
inductive RecordOutcome where
  | ok
  | tainted
  | rejected
  | noStation
  | exhausted
  | expired
  deriving DecidableEq, Repr

/-- A station's mode (R124). -/
inductive StationMode where
  | off
  | active
  | suspended
  | unreachable
  deriving DecidableEq, Repr

/-- A station's class (R134). -/
inductive StationClass where
  | plain
  | side
  deriving DecidableEq, Repr

/-- The states of the far link (R65). -/
inductive LinkState where
  | idle
  | request
  | await
  | reset
  deriving DecidableEq, Repr

/-- The reasons a FAULT answer or a TAINTED ACK is reported with (R33, R151). -/
inductive FaultReason where
  | noStation
  | rejected
  | exhausted
  | expired
  | badWatch
  | barred
  | nearCheck
  | notOwner
  | noLanes
  | tainted
  deriving DecidableEq, Repr

/-- The region a report names (R33). -/
inductive FaultRegion where
  | far
  | watch
  | control
  deriving DecidableEq, Repr

/-- The result of the last command (R161). -/
inductive CommandResult where
  | none
  | ok
  | noRecord
  | badOperand
  | badCommand
  | notUnreachable
  deriving DecidableEq, Repr

/-- What the command in progress waits for (R161). -/
inductive CommandWait where
  | nothing
  | slot (slot : Slot)
  | farReset
  deriving DecidableEq, Repr

/-- The near answers, and the case of an access that is not claimed (R24). -/
inductive NearResponse where
  | notClaimed
  | ack
  | retry
  | fault
  deriving DecidableEq, Repr

/-! ### Blocks -/

/-- A data word with the bit driven beside it on NCHK (R24). -/
structure BusData where
  word : Word
  check : Bool
  deriving DecidableEq, Repr

/-- What the near port drives for an access: NRSP, and for a read ND and NCHK (R24, R184). -/
structure NearAnswer where
  response : NearResponse
  data : Option BusData
  deriving DecidableEq, Repr

/-- One slot of the Request Table (R2, R4 to R14). A field that is not present holds 0 (R14); an outcome that is not
present is `none`, code 0 (R178). `expiring` is the model's own: a tick that brings the timer to 0 has been handed to
the record, and the expiry is not yet taken (R141; assumption 3). -/
structure Record where
  state : RecordState
  requester : Requester
  kind : Kind
  station : Station
  offset : WordOffset
  lanes : Lanes
  writeData : Word
  watchMode : WatchMode
  reference : Word
  captured : Bool
  mask : Word
  pollLimit : BitVec 16
  pollCount : BitVec 16
  holdCount : BitVec 8
  timer : BitVec 16
  withdrawn : Bool
  outcome : Option RecordOutcome
  resultData : Word
  expiring : Bool
  deriving DecidableEq, Repr

/-- The six summary counts (R19). -/
structure Summary where
  live : Nat
  pending : Nat
  attempt : Nat
  backoff : Nat
  watch : Nat
  ready : Nat
  deriving DecidableEq, Repr

/-- The transaction context; empty it holds 0 in every field (R68). -/
structure Transaction where
  slot : Slot
  station : Station
  tag : Tag
  isWrite : Bool
  offset : WordOffset
  lanes : Lanes
  writeData : Word
  deriving DecidableEq, Repr

/-- The Far Port (R65 to R85). `requestClks` counts the CLK periods driven of the request (R185; assumption 17). -/
structure FarPort where
  link : LinkState
  transaction : Transaction
  tagCounter : Tag
  replyTimer : BitVec 8
  resetTimer : Nat
  late : BitVec 8
  misaddressed : BitVec 8
  requestClks : Nat
  deriving DecidableEq, Repr

/-- A station entry (R123). -/
structure StationEntry where
  mode : StationMode
  cls : StationClass
  replyTimeout : BitVec 8
  backoff : BitVec 8
  pollInterval : BitVec 16
  silences : BitVec 4
  deriving DecidableEq, Repr

/-- A requester's fault record (R151); an absent reason or region is `none`, code 0 (R178). -/
structure FaultRecord where
  valid : Bool
  reason : Option FaultReason
  region : Option FaultRegion
  station : Station
  offset : WordOffset
  further : BitVec 8
  deriving DecidableEq, Repr

/-- A requester's watch setup (R106). -/
structure WatchSetup where
  mode : WatchMode
  reference : Word
  mask : Word
  pollLimit : BitVec 16
  deriving DecidableEq, Repr

/-- A requester entry (R147). -/
structure RequesterEntry where
  quota : BitVec 8
  live : Nat
  turnedAway : BitVec 8
  unclaimed : BitVec 8
  fault : FaultRecord
  setup : WatchSetup
  deriving DecidableEq, Repr

/-- The global parameters (R182). -/
structure Params where
  aperturesOpen : Bool
  timeBaseSelect : BitVec 3
  holdBudget : BitVec 8
  silenceLimit : BitVec 4
  collectionLimit : BitVec 16
  deriving DecidableEq, Repr

/-- The 42 notice flags, or the 42 enables (R155, R158). -/
structure Notices where
  ready : BitVec 8
  fault : BitVec 8
  unclaimed : BitVec 8
  lost : BitVec 16
  cmdDone : Bool
  linkErr : Bool
  deriving DecidableEq, Repr

/-- The view registers: the slot viewed, its rank and its content (R167). -/
structure View where
  slot : Slot
  rank : Nat
  content : Record
  deriving DecidableEq, Repr

/-- The Command Unit (R161). -/
structure CommandUnit where
  busy : Bool
  lastCode : Byte
  lastOperand : Byte
  lastResult : CommandResult
  overlap : Bool
  wait : CommandWait
  view : View
  deriving DecidableEq, Repr

/-- The whole part, and the queue of the commands that wait. -/
structure State where
  rstAsserted : Bool
  bsel : BitVec 4
  own : Requester
  answer : NearAnswer
  slots : Vector Record 24
  order : List Slot
  summary : Summary
  pointer : Station
  far : FarPort
  stations : Vector StationEntry 16
  requesters : Vector RequesterEntry 8
  params : Params
  divider : Nat
  flags : Notices
  enables : Notices
  command : CommandUnit
  pending : List Instr
  deriving DecidableEq, Repr

/-! ### Why a step could stop -/

/-- The part has no event that stops it: FAULT is a near answer (R24), held in `State.answer` and in the
requester's fault record. So no meaning answers a fault. -/
inductive Fault where
  deriving DecidableEq, Repr

/-- Why a step could be refused. -/
inductive Refusal where
  /-- Raised by `exec` for a row without a meaning (safe); no row is left without one. -/
  | notModelled (mnemonic : String)
  deriving DecidableEq, Repr

/-! ### Reset values -/

/-- A FREE slot: every field 0 (R14, R21). -/
def Record.free : Record :=
  { state := .free, requester := 0, kind := .read, station := 0, offset := 0, lanes := 0, writeData := 0,
    watchMode := .differ, reference := 0, captured := false, mask := 0, pollLimit := 0, pollCount := 0,
    holdCount := 0, timer := 0, withdrawn := false, outcome := none, resultData := 0, expiring := false }

/-- No live record (R22). -/
def Summary.zero : Summary := { live := 0, pending := 0, attempt := 0, backoff := 0, watch := 0, ready := 0 }

/-- The empty transaction context (R68). -/
def Transaction.empty : Transaction :=
  { slot := 0, station := 0, tag := 0, isWrite := false, offset := 0, lanes := 0, writeData := 0 }

/-- The Far Port during and after chip reset (R67). The far reset timer is 4 while RST# is asserted too:
DEDUCED (assumption 2, safe). -/
def FarPort.afterReset : FarPort :=
  { link := .reset, transaction := .empty, tagCounter := 0, replyTimer := 0, resetTimer := Config.farResetTicks,
    late := 0, misaddressed := 0, requestClks := 0 }

/-- A station entry after chip reset (R123). -/
def StationEntry.afterReset : StationEntry :=
  { mode := .off, cls := .plain, replyTimeout := 8, backoff := 4, pollInterval := 100, silences := 0 }

/-- A fault record that is not valid (R151). -/
def FaultRecord.clear : FaultRecord :=
  { valid := false, reason := none, region := none, station := 0, offset := 0, further := 0 }

/-- A watch setup after chip reset (R106). -/
def WatchSetup.afterReset : WatchSetup :=
  { mode := .differ, reference := 0, mask := 0xFFFFFFFF, pollLimit := 0 }

/-- A requester entry after chip reset (R147). -/
def RequesterEntry.afterReset : RequesterEntry :=
  { quota := 4, live := 0, turnedAway := 0, unclaimed := 0, fault := .clear, setup := .afterReset }

/-- The global parameters after chip reset (R182). -/
def Params.afterReset : Params :=
  { aperturesOpen := false, timeBaseSelect := 3, holdBudget := 32, silenceLimit := 3, collectionLimit := 2000 }

/-- No flag set, or no enable set (R155). -/
def Notices.none : Notices :=
  { ready := 0, fault := 0, unclaimed := 0, lost := 0, cmdDone := false, linkErr := false }

/-- The view registers after chip reset (R161). -/
def View.afterReset : View := { slot := 0, rank := 0, content := .free }

/-- The Command Unit after chip reset (R161). -/
def CommandUnit.afterReset : CommandUnit :=
  { busy := false, lastCode := 0, lastOperand := 0, lastResult := .none, overlap := false, wait := .nothing,
    view := .afterReset }

/-- An access that is not claimed: NRSP, ND and NCHK are not driven (R24). -/
def NearAnswer.notClaimed : NearAnswer := { response := .notClaimed, data := none }

/-- Every block at its reset value (R22, R51, R67, R123, R138, R147, R155, R161, R182, R183), with the given
level of RST#, the given straps and the given queue. -/
def State.atReset (rst : Bool) (bsel : BitVec 4) (own : Requester) (pending : List Instr) : State :=
  { rstAsserted := rst, bsel := bsel, own := own, answer := .notClaimed,
    slots := Vector.replicate 24 .free, order := [], summary := .zero, pointer := 15, far := .afterReset,
    stations := Vector.replicate 16 .afterReset, requesters := Vector.replicate 8 .afterReset,
    params := .afterReset, divider := 0, flags := .none, enables := .none, command := .afterReset,
    pending := pending }

/-- The machine right after reset: RST# has been released with both straps at 0 and nothing waits.
DESIGN CHOICE (assumption 1, unsafe): the spec gives the straps no value of their own. -/
def State.reset : State := State.atReset false Config.resetBsel Config.resetOwn []

/-! ### Reading one entry -/

/-- The content of a slot. -/
def State.record (s : State) (i : Slot) : Record := s.slots[i]

/-- The entry of a station. -/
def State.stationEntry (s : State) (st : Station) : StationEntry := s.stations[st]

/-- The entry of a requester. -/
def State.requesterEntry (s : State) (r : Requester) : RequesterEntry := s.requesters[r]

end Sys2Proof.Machine
end

