-- ==== Sys2Proof/Machine/Operands.lean ====
section
/-! DEFINITION. Operand forms: what a near address names (R27, R29), which bytes lanes select (R181), which word
of the control window an offset names (R177), and the codes of the coded fields (R178). -/

namespace Sys2Proof.Machine

/-! ### Lanes -/

/-- Lane `n` is selected. -/
def laneOn (lanes : Lanes) (n : Nat) : Bool := lanes.getLsbD n

/-- The bits of the bytes that the lanes select. -/
def laneMask (lanes : Lanes) : Word :=
  (if laneOn lanes 0 then 0x000000FF else 0) ||| (if laneOn lanes 1 then 0x0000FF00 else 0) |||
    (if laneOn lanes 2 then 0x00FF0000 else 0) ||| (if laneOn lanes 3 then 0xFF000000 else 0)

/-- Selected bytes of `data` replace the same bytes of `old`; unselected bytes keep theirs (R181). -/
def mergeWord (old data : Word) (lanes : Lanes) : Word :=
  (old &&& ~~~ laneMask lanes) ||| (data &&& laneMask lanes)

/-- `mergeWord` for a 16-bit field in bits 15:0, which lanes 0 and 1 reach. -/
def mergeHalf (old : BitVec 16) (data : Word) (lanes : Lanes) : BitVec 16 :=
  (mergeWord (old.setWidth 32) data lanes).setWidth 16

/-- Byte `n` of a word: lane 0 is bits 7:0 (R23). -/
def byteOf (w : Word) (n : Nat) : Byte := w.extractLsb' (8 * n) 8

/-! ### The claim block -/

/-- What a near address names (R27). -/
inductive Target where
  | far (station : Station) (offset : WordOffset)
  | watch (station : Station) (offset : WordOffset)
  | control (offset : WindowOffset)
  | notClaimed
  deriving DecidableEq, Repr

/-- The address at which the claim block of a BSEL starts (R27). -/
def blockBase (bsel : BitVec 4) : Nat := Config.claimBase + bsel.toNat * Config.claimBytes

/-- The station of a block offset, bits 23:20 (R29). -/
def offsetStation (o : BitVec 26) : Station := (o.extractLsb' 20 4).toFin

/-- The station offset of a block offset, bits 19:2 (R29). -/
def offsetInStation (o : BitVec 26) : WordOffset := o.extractLsb' 2 18

/-- The region a block offset lies in (R27). -/
def decodeOffset (o : BitVec 26) : Target :=
  if o.toNat < 0x1000000 then .far (offsetStation o) (offsetInStation o)
  else if o.toNat < 0x2000000 then .watch (offsetStation o) (offsetInStation o)
  else if o.toNat < 0x2001000 then .control (o.extractLsb' 2 10)
  else .notClaimed

/-- What a near address names under a BSEL (R27); byte address bits 1:0 are taken as 0 (R23). -/
def decodeAddress (bsel : BitVec 4) (a : NearAddr) : Target :=
  let address := a.toNat * 4
  if address < blockBase bsel ∨ blockBase bsel + Config.claimBytes ≤ address then .notClaimed
  else decodeOffset (BitVec.ofNat 26 (address - blockBase bsel))

/-! ### The control window -/

/-- The words of the control window (R177). -/
inductive Register where
  | globalControl
  | holdBudget
  | silenceLimit
  | collectionLimit
  | tableSummary
  | farLinkStatus
  | farLinkClear
  | command
  | commandStatus
  | view (n : Fin 9)
  | stationMode (st : Station)
  | stationTiming (st : Station)
  | stationPoll (st : Station)
  | stationSilences (st : Station)
  | requesterCounts (r : Requester)
  | counterClear (r : Requester)
  | faultStatus (r : Requester)
  | faultOffset (r : Requester)
  | setupMode (r : Requester)
  | setupReference (r : Requester)
  | setupMask (r : Requester)
  | setupPollLimit (r : Requester)
  | flagsA
  | flagsB
  | enablesA
  | enablesB
  | absent
  deriving DecidableEq, Repr

/-- The byte offset of a register within the window (R177); `absent` names none, and 010h stands for it. -/
def registerOffset : Register → Nat
  | .globalControl => 0x000
  | .holdBudget => 0x004
  | .silenceLimit => 0x008
  | .collectionLimit => 0x00C
  | .tableSummary => 0x020
  | .farLinkStatus => 0x040
  | .farLinkClear => 0x044
  | .command => 0x080
  | .commandStatus => 0x084
  | .view n => 0x0A0 + 4 * n.val
  | .stationMode st => 0x100 + 0x10 * st.val
  | .stationTiming st => 0x104 + 0x10 * st.val
  | .stationPoll st => 0x108 + 0x10 * st.val
  | .stationSilences st => 0x10C + 0x10 * st.val
  | .requesterCounts r => 0x200 + 0x20 * r.val
  | .counterClear r => 0x204 + 0x20 * r.val
  | .faultStatus r => 0x208 + 0x20 * r.val
  | .faultOffset r => 0x20C + 0x20 * r.val
  | .setupMode r => 0x210 + 0x20 * r.val
  | .setupReference r => 0x214 + 0x20 * r.val
  | .setupMask r => 0x218 + 0x20 * r.val
  | .setupPollLimit r => 0x21C + 0x20 * r.val
  | .flagsA => 0x300
  | .flagsB => 0x304
  | .enablesA => 0x308
  | .enablesB => 0x30C
  | .absent => 0x010

/-- The window offset of a register, as the access carries it. -/
def registerAt (reg : Register) : WindowOffset := BitVec.ofNat 10 (registerOffset reg / 4)

/-- The four words of a station entry (R177). -/
def stationRegister (st : Station) : Nat → Register
  | 0 => .stationMode st
  | 1 => .stationTiming st
  | 2 => .stationPoll st
  | _ => .stationSilences st

/-- The eight words of a requester entry (R177). -/
def requesterRegister (r : Requester) : Nat → Register
  | 0 => .requesterCounts r
  | 1 => .counterClear r
  | 2 => .faultStatus r
  | 3 => .faultOffset r
  | 4 => .setupMode r
  | 5 => .setupReference r
  | 6 => .setupMask r
  | _ => .setupPollLimit r

/-- The words outside the entry groups, by byte offset (R177). -/
def plainRegister (offset : Nat) : Register :=
  match offset with
  | 0x000 => .globalControl
  | 0x004 => .holdBudget
  | 0x008 => .silenceLimit
  | 0x00C => .collectionLimit
  | 0x020 => .tableSummary
  | 0x040 => .farLinkStatus
  | 0x044 => .farLinkClear
  | 0x080 => .command
  | 0x084 => .commandStatus
  | 0x0A0 => .view 0
  | 0x0A4 => .view 1
  | 0x0A8 => .view 2
  | 0x0AC => .view 3
  | 0x0B0 => .view 4
  | 0x0B4 => .view 5
  | 0x0B8 => .view 6
  | 0x0BC => .view 7
  | 0x0C0 => .view 8
  | 0x300 => .flagsA
  | 0x304 => .flagsB
  | 0x308 => .enablesA
  | 0x30C => .enablesB
  | _ => .absent

/-- The register a window offset names, or `absent` (R177). -/
def registerOf (o : WindowOffset) : Register :=
  let offset := o.toNat * 4
  if 0x100 ≤ offset ∧ offset < 0x200 then
    stationRegister (Fin.ofNat 16 (offset / 0x10 - 0x10)) (o.toNat % 4)
  else if 0x200 ≤ offset ∧ offset < 0x300 then
    requesterRegister (Fin.ofNat 8 (offset / 0x20 - 0x10)) (o.toNat % 8)
  else plainRegister offset

/-- The word of a watch setup that holds a field (R177). -/
def setupRegister (r : Requester) : SetupField → Register
  | .mode => .setupMode r
  | .reference => .setupReference r
  | .mask => .setupMask r
  | .pollLimit => .setupPollLimit r

/-- The word of the notice flags (R177). -/
def flagsRegister : NoticeWord → Register
  | .a => .flagsA
  | .b => .flagsB

/-- The word of the notice enables (R177). -/
def enablesRegister : NoticeWord → Register
  | .a => .enablesA
  | .b => .enablesB

/-- The requester other than the owner that may write a word: its own watch setup and fault clear (R180). -/
def registerGuest : Register → Option Requester
  | .faultOffset r => some r
  | .setupMode r => some r
  | .setupReference r => some r
  | .setupMask r => some r
  | .setupPollLimit r => some r
  | _ => none

/-! ### Codes (R178) -/

/-- The code of a record state. -/
def recordStateCode : RecordState → Nat
  | .free => 0
  | .pending => 1
  | .attempt => 2
  | .backoff => 3
  | .watch => 4
  | .ready => 5

/-- The code of a kind. -/
def kindCode : Kind → Nat
  | .read => 0
  | .write => 1
  | .watch => 2

/-- The code of a watch mode (R108). -/
def watchModeCode : WatchMode → Nat
  | .differ => 0
  | .change => 1

/-- The code of an outcome; 0 is the absent one. -/
def outcomeCode : Option RecordOutcome → Nat
  | none => 0
  | some .ok => 1
  | some .tainted => 2
  | some .rejected => 3
  | some .noStation => 4
  | some .exhausted => 5
  | some .expired => 6

/-- The code of a station mode. -/
def stationModeCode : StationMode → Nat
  | .off => 0
  | .active => 1
  | .suspended => 2
  | .unreachable => 3

/-- The station mode a code names. -/
def stationModeOf (code : BitVec 2) : StationMode :=
  match code.toNat with
  | 0 => .off
  | 1 => .active
  | 2 => .suspended
  | _ => .unreachable

/-- The code of a station class (R177). -/
def stationClassCode : StationClass → Nat
  | .plain => 0
  | .side => 1

/-- The code of a far link state. -/
def linkStateCode : LinkState → Nat
  | .idle => 0
  | .request => 1
  | .await => 2
  | .reset => 3

/-- The code of a command result. -/
def commandResultCode : CommandResult → Nat
  | .none => 0
  | .ok => 1
  | .noRecord => 2
  | .badOperand => 3
  | .badCommand => 4
  | .notUnreachable => 5

/-- The code of a fault reason; 0 is the absent one. -/
def faultReasonCode : Option FaultReason → Nat
  | none => 0
  | some .noStation => 1
  | some .rejected => 2
  | some .exhausted => 3
  | some .expired => 4
  | some .badWatch => 5
  | some .barred => 6
  | some .nearCheck => 7
  | some .notOwner => 8
  | some .noLanes => 9
  | some .tainted => 10

/-- The code of a fault region; 0 is the absent one. -/
def faultRegionCode : Option FaultRegion → Nat
  | none => 0
  | some .far => 1
  | some .watch => 2
  | some .control => 3

/-- The commands of the command register (R178). -/
inductive CommandName where
  | view
  | withdraw
  | withdrawRequester
  | clear
  | readmit
  | farReset
  deriving DecidableEq, Repr

/-- The code of a command. -/
def commandCode : CommandName → Byte
  | .view => 0x01
  | .withdraw => 0x02
  | .withdrawRequester => 0x03
  | .clear => 0x04
  | .readmit => 0x05
  | .farReset => 0x06

/-- The command a code names (R165, R178). -/
def commandOf (code : Byte) : Option CommandName :=
  match code.toNat with
  | 1 => some .view
  | 2 => some .withdraw
  | 3 => some .withdrawRequester
  | 4 => some .clear
  | 5 => some .readmit
  | 6 => some .farReset
  | _ => none

/-- The kinds of a far reply (R74). -/
inductive ReplyKind where
  | done
  | hold
  | reject
  deriving DecidableEq, Repr

/-- The reply kind a code of FKIND names; the fourth code is read as REJECT (R74, R185). -/
def replyKindOf (code : BitVec 2) : ReplyKind :=
  match code.toNat with
  | 0 => .done
  | 1 => .hold
  | _ => .reject

/-- The code driven on NRSP[1:0]; 00b is what the near bus reads where nothing is driven (R184). -/
def nearResponseCode : NearResponse → BitVec 2
  | .notClaimed => 0b00
  | .ack => 0b01
  | .retry => 0b10
  | .fault => 0b11

/-- A value placed at a bit position of a register word. -/
def fieldAt (value position : Nat) : Word := BitVec.ofNat 32 value <<< position

/-- A one-bit field placed at a bit position of a register word. -/
def bitAt (value : Bool) (position : Nat) : Word := fieldAt value.toNat position

end Sys2Proof.Machine
end

