-- ==== Sys2Proof/Machine/Flags.lean ====
section
/-! DEFINITION. Check bits, saturating counters, the Watch Comparator's test, and the notice flags with NOTICE#. -/

namespace Sys2Proof.Machine

/-! ### Check bits (00 section 6.3, R30, R76) -/

/-- The number of ones of a data word. -/
def onesOf (w : Word) : Nat := (List.range 32).countP w.getLsbD

/-- The 32 data bits and the check bit together hold an even number of ones. -/
def passesCheck (w : Word) (check : Bool) : Bool := (onesOf w + check.toNat) % 2 == 0

/-- The check bit that is correct for a data word. -/
def correctCheck (w : Word) : Bool := onesOf w % 2 == 1

/-- The inverse of the correct check bit. -/
def poisonedCheck (w : Word) : Bool := !correctCheck w

/-! ### Counters -/

/-- One more, held at the largest value (00 section 6.6). -/
def satInc {n : Nat} (x : BitVec n) : BitVec n := if x = BitVec.allOnes n then x else x + 1

/-- One less, held at 0: a timer that has run out does not count (R72). -/
def stopDec {n : Nat} (x : BitVec n) : BitVec n := if x = 0 then x else x - 1

/-- One more record in a state; FREE is counted nowhere (R19). -/
def Summary.add (c : Summary) : RecordState → Summary
  | .free => c
  | .pending => { c with live := c.live + 1, pending := c.pending + 1 }
  | .attempt => { c with live := c.live + 1, attempt := c.attempt + 1 }
  | .backoff => { c with live := c.live + 1, backoff := c.backoff + 1 }
  | .watch => { c with live := c.live + 1, watch := c.watch + 1 }
  | .ready => { c with live := c.live + 1, ready := c.ready + 1 }

/-- One record fewer in a state (R19). -/
def Summary.sub (c : Summary) : RecordState → Summary
  | .free => c
  | .pending => { c with live := c.live - 1, pending := c.pending - 1 }
  | .attempt => { c with live := c.live - 1, attempt := c.attempt - 1 }
  | .backoff => { c with live := c.live - 1, backoff := c.backoff - 1 }
  | .watch => { c with live := c.live - 1, watch := c.watch - 1 }
  | .ready => { c with live := c.live - 1, ready := c.ready - 1 }

/-! ### The Watch Comparator's test (R112) -/

/-- Some bit is 1 in the mask and differs between the polled value and the reference. -/
def finds (mask reference value : Word) : Bool := (value ^^^ reference) &&& mask != 0

/-! ### Notices (R155 to R159) -/

/-- One flag of a group set. -/
def setBit {n : Nat} (x : BitVec n) (k : Nat) : BitVec n := x ||| (BitVec.ofNat n 1 <<< k)

/-- READY(r) set (R100). -/
def Notices.setReady (n : Notices) (r : Requester) : Notices := { n with ready := setBit n.ready r.val }

/-- FAULT(r) set (R152). -/
def Notices.setFault (n : Notices) (r : Requester) : Notices := { n with fault := setBit n.fault r.val }

/-- UNCLAIMED(r) set (R144). -/
def Notices.setUnclaimed (n : Notices) (r : Requester) : Notices := { n with unclaimed := setBit n.unclaimed r.val }

/-- LOST(s) set (R130). -/
def Notices.setLost (n : Notices) (st : Station) : Notices := { n with lost := setBit n.lost st.val }

/-- CMDDONE set (R163). -/
def Notices.setCmdDone (n : Notices) : Notices := { n with cmdDone := true }

/-- LINKERR set (R80). -/
def Notices.setLinkErr (n : Notices) : Notices := { n with linkErr := true }

/-- The word of flags or enables at 300h or 308h (A), or at 304h or 30Ch (B) (R177). -/
def Notices.toWord (n : Notices) : NoticeWord → Word
  | .a => fieldAt n.ready.toNat 0 ||| fieldAt n.fault.toNat 8 ||| fieldAt n.unclaimed.toNat 16 |||
      bitAt n.cmdDone 24 ||| bitAt n.linkErr 25
  | .b => fieldAt n.lost.toNat 0

/-- The flags or enables with one word replaced; bits the table does not name are ignored (R177). -/
def Notices.withWord (n : Notices) (which : NoticeWord) (w : Word) : Notices :=
  match which with
  | .a => { n with ready := byteOf w 0, fault := byteOf w 1, unclaimed := byteOf w 2, cmdDone := w.getLsbD 24,
                   linkErr := w.getLsbD 25 }
  | .b => { n with lost := w.extractLsb' 0 16 }

/-- Every flag of the selected bytes whose position is written 1 is cleared (R157). -/
def Notices.clearOnes (n : Notices) (which : NoticeWord) (data : Word) (lanes : Lanes) : Notices :=
  n.withWord which (n.toWord which &&& ~~~ (data &&& laneMask lanes))

/-- The selected bytes are stored as written (R158). -/
def Notices.store (n : Notices) (which : NoticeWord) (data : Word) (lanes : Lanes) : Notices :=
  n.withWord which (mergeWord (n.toWord which) data lanes)

/-- NOTICE# is asserted: some notice flag is set whose enable is set (R159). -/
def State.noticeAsserted (s : State) : Bool :=
  (s.flags.ready &&& s.enables.ready) != 0 || (s.flags.fault &&& s.enables.fault) != 0 ||
    (s.flags.unclaimed &&& s.enables.unclaimed) != 0 || (s.flags.lost &&& s.enables.lost) != 0 ||
    (s.flags.cmdDone && s.enables.cmdDone) || (s.flags.linkErr && s.enables.linkErr)

end Sys2Proof.Machine
end

