-- ==== Sys2Proof/Machine/Ops.lean ====
section
/-! DEFINITION. The shared operations over the state: changing one entry, entry and freeing of a record, entry to
READY, reports to the fault record, station closure, and the end of a far transaction. -/

namespace Sys2Proof.Machine

/-! ### Changing one part of the state -/

/-- A record takes its new content whole, and the summary counts follow in the same event (R4, R19). -/
def State.setRecord (s : State) (i : Slot) (r : Record) : State :=
  { s with slots := s.slots.set i r, summary := (s.summary.add r.state).sub (s.record i).state }

/-- The entry order changes. -/
def State.setOrder (s : State) (order : List Slot) : State := { s with order := order }

/-- The entry of a station changes. -/
def State.setStation (s : State) (st : Station) (e : StationEntry) : State :=
  { s with stations := s.stations.set st e }

/-- The entry of a requester changes. -/
def State.setRequester (s : State) (r : Requester) (e : RequesterEntry) : State :=
  { s with requesters := s.requesters.set r e }

/-- The Far Port changes. -/
def State.setFar (s : State) (f : FarPort) : State := { s with far := f }

/-- The rotation pointer changes (R51). -/
def State.setPointer (s : State) (st : Station) : State := { s with pointer := st }

/-- The global parameters change. -/
def State.setParams (s : State) (p : Params) : State := { s with params := p }

/-- The divider state changes (R138). -/
def State.setDivider (s : State) (n : Nat) : State := { s with divider := n }

/-- The notice flags change. -/
def State.setFlags (s : State) (n : Notices) : State := { s with flags := n }

/-- The notice enables change. -/
def State.setEnables (s : State) (n : Notices) : State := { s with enables := n }

/-- The Command Unit changes. -/
def State.setCommand (s : State) (c : CommandUnit) : State := { s with command := c }

/-- The near port drives an answer (R24). -/
def State.setAnswer (s : State) (a : NearAnswer) : State := { s with answer := a }

/-! ### Near answers (R24) -/

/-- An answer that carries no record's data: a read is driven 0 with its correct check, a write nothing. -/
def plainAnswer (response : NearResponse) (isRead : Bool) : NearAnswer :=
  { response := response, data := if isRead then some { word := 0, check := false } else none }

/-- An answer that carries a word to a read, with the given check. -/
def dataAnswer (response : NearResponse) (isRead : Bool) (word : Word) (check : Bool) : NearAnswer :=
  { response := response, data := if isRead then some { word := word, check := check } else none }

/-! ### The fault record (R151 to R153) -/

/-- A report taken into a fault record: the first is described, further ones are counted. -/
def FaultRecord.take (f : FaultRecord) (reason : FaultReason) (region : FaultRegion) (st : Station)
    (offset : WordOffset) : FaultRecord :=
  if f.valid then { f with further := satInc f.further }
  else { valid := true, reason := some reason, region := some region, station := st, offset := offset, further := 0 }

/-- A report of R33 reaches a requester's entry and sets its FAULT notice. -/
def State.report (s : State) (r : Requester) (reason : FaultReason) (region : FaultRegion) (st : Station)
    (offset : WordOffset) : State :=
  let e := s.requesterEntry r
  (s.setRequester r { e with fault := e.fault.take reason region st offset }).setFlags (s.flags.setFault r)

/-- A FAULT answer with no data of its own, and its report (R33). -/
def State.refuse (s : State) (r : Requester) (isRead : Bool) (reason : FaultReason) (region : FaultRegion)
    (st : Station) (offset : WordOffset) : State :=
  (s.report r reason region st offset).setAnswer (plainAnswer .fault isRead)

/-! ### Entry and freeing (R20, R21) -/

/-- The lowest-numbered FREE slot. -/
def State.freeSlot (s : State) : Option Slot := (List.finRange 24).find? fun i => (s.record i).state == .free

/-- The requester's live count changes by one event (R148). -/
def State.setLive (s : State) (r : Requester) (n : Nat) : State :=
  s.setRequester r { s.requesterEntry r with live := n }

/-- A new record is placed in a FREE slot, at the young end of the entry order (R20). -/
def State.enterRecord (s : State) (i : Slot) (r : Record) : State :=
  ((s.setRecord i r).setOrder (s.order ++ [i])).setLive r.requester ((s.requesterEntry r.requester).live + 1)

/-- A live record is removed (R21); a FREE slot is left as it is. -/
def State.freeRecord (s : State) (i : Slot) : State :=
  let q := (s.record i).requester
  if (s.record i).state = .free then s
  else ((s.setRecord i .free).setOrder (s.order.erase i)).setLive q ((s.requesterEntry q).live - 1)

/-! ### Entry to READY (R50, R100) -/

/-- The content of a record that enters READY: the outcome and its data are written, the timer is loaded with the
collection limit, and the fields of the old state are cleared. -/
def Record.finished (r : Record) (limit : BitVec 16) (o : RecordOutcome) (d : Word) : Record :=
  { r with state := .ready, timer := limit, withdrawn := false, outcome := some o, resultData := d,
           expiring := false }

/-- A record enters READY and sets its requester's READY notice. -/
def State.toReady (s : State) (i : Slot) (o : RecordOutcome) (d : Word) : State :=
  (s.setRecord i ((s.record i).finished s.params.collectionLimit o d)).setFlags
    (s.flags.setReady (s.record i).requester)

/-! ### Stations -/

/-- A station in OFF or UNREACHABLE is closed (R124). -/
def StationMode.closed : StationMode → Bool
  | .off => true
  | .unreachable => true
  | .active => false
  | .suspended => false

/-- The record waits at the station and is reached by its closure (R127). -/
def Record.closedWith (r : Record) (st : Station) : Bool :=
  r.station == st && (r.state == .pending || r.state == .backoff || r.state == .watch)

/-- Closure reaches one slot (R127). -/
def closeSlot (st : Station) (s : State) (i : Slot) : State :=
  if (s.record i).closedWith st then s.toReady i .noStation 0 else s

/-- Every PENDING, BACKOFF or WATCH record of the station becomes READY NOSTATION (R127). -/
def State.closeStation (s : State) (st : Station) : State := (List.finRange 24).foldl (closeSlot st) s

/-- An accepted reply at the Station Table (R129). -/
def State.acceptReply (s : State) (st : Station) : State :=
  if (s.stationEntry st).mode.closed then s else s.setStation st { s.stationEntry st with silences := 0 }

/-- A silence at the Station Table (R130). -/
def State.countSilence (s : State) (st : Station) : State :=
  let e := s.stationEntry st
  let n := satInc e.silences
  if e.mode.closed then s
  else if s.params.silenceLimit ≤ n then
    let t := (s.setStation st { e with mode := .unreachable, silences := n }).closeStation st
    t.setFlags (t.flags.setLost st)
  else s.setStation st { e with silences := n }

/-- The silence count of every station that is not UNREACHABLE is set to 0 (R84, R131). -/
def State.clearSilences (s : State) : State :=
  { s with stations := s.stations.map fun e => if e.mode = .unreachable then e else { e with silences := 0 } }

/-! ### Command completion (R163) -/

/-- A command completes with a result. -/
def State.complete (s : State) (result : CommandResult) : State :=
  (s.setCommand { s.command with busy := false, lastResult := result, wait := .nothing }).setFlags s.flags.setCmdDone

/-- A command waits (R162). -/
def State.startWait (s : State) (wait : CommandWait) : State :=
  s.setCommand { s.command with busy := true, lastResult := .none, wait := wait }

/-! ### The end of an attempt (R77, R87) -/

/-- What the Far Port hands on at the end of a transaction (R77). A clean DONE to a write carries no data. -/
inductive AttemptEnd where
  | clean (data : Word)
  | tainted (data : Word)
  | hold
  | reject
  | silent
  deriving DecidableEq, Repr

/-- Step 2 of R87: a final result with its outcome and data, or a provisional one. -/
inductive AttemptResult where
  | final (o : RecordOutcome) (d : Word)
  | provisional
  deriving DecidableEq, Repr

/-- The result of an end for a READ or WRITE record, and the record with its hold count as the end leaves it
(R88 to R91, R93, R94). A WRITE record holds no result data. -/
def Record.endReadWrite (r : Record) (budget : BitVec 8) : AttemptEnd → Record × AttemptResult
  | .clean d => (r, .final .ok (if r.kind = .read then d else 0))
  | .tainted d => (r, if r.kind = .read then .final .tainted d else .final .ok 0)
  | .hold =>
    let n := satInc r.holdCount
    ({ r with holdCount := n }, if budget ≤ n then .final .exhausted 0 else .provisional)
  | .reject => (r, .final .rejected 0)
  | .silent => (r, .provisional)

/-- The Watch Comparator (R111): capture, count, test, limit, continue, in that order. -/
def Record.comparator (r : Record) (value : Word) : Record × AttemptResult :=
  let n := satInc r.pollCount
  let r' := { r with reference := if r.captured then r.reference else value, captured := true, pollCount := n }
  (r',
    if r.captured && finds r.mask r.reference value then .final .ok value
    else if r.pollLimit ≠ 0 ∧ n = r.pollLimit then .final .expired value
    else .provisional)

/-- The result of a poll (R111, R116 to R119). -/
def Record.endPoll (r : Record) : AttemptEnd → Record × AttemptResult
  | .clean d => r.comparator d
  | .tainted d => (r, .final .tainted d)
  | .hold => (r, .provisional)
  | .reject => (r, .final .rejected 0)
  | .silent => (r, .provisional)

/-- Step 2 of R87 for a record of any kind. -/
def Record.endResult (r : Record) (budget : BitVec 8) (e : AttemptEnd) : Record × AttemptResult :=
  match r.kind with
  | .watch => r.endPoll e
  | .read => r.endReadWrite budget e
  | .write => r.endReadWrite budget e

/-- The content of a record sent back to wait: BACKOFF, or WATCH for a watch, with the station's delay loaded
(R95, R115, R83). -/
def Record.returned (r : Record) (e : StationEntry) : Record :=
  match r.kind with
  | .watch => { r with state := .watch, timer := e.pollInterval, withdrawn := false, expiring := false }
  | .read => { r with state := .backoff, timer := e.backoff.setWidth 16, withdrawn := false, expiring := false }
  | .write => { r with state := .backoff, timer := e.backoff.setWidth 16, withdrawn := false, expiring := false }

/-- A record leaves ATTEMPT with a provisional result: the closed-station rule makes it READY NOSTATION (R97),
otherwise it returns to wait. -/
def State.returnRecord (s : State) (i : Slot) : State :=
  let r := s.record i
  if (s.stationEntry r.station).mode.closed then s.toReady i .noStation 0
  else s.setRecord i (r.returned (s.stationEntry r.station))

/-- Steps 2 and 3 of R87 for a record without the withdrawn mark. -/
def State.applyEnd (s : State) (i : Slot) (e : AttemptEnd) : State :=
  let p := (s.record i).endResult s.params.holdBudget e
  match p.2 with
  | .final o d => (s.setRecord i p.1).toReady i o d
  | .provisional => (s.setRecord i p.1).returnRecord i

/-- A marked record is freed at the end of its transaction, and the command that waits for it completes
(R99, R170). -/
def State.freeMarked (s : State) (i : Slot) : State :=
  let t := s.freeRecord i
  if t.command.wait = .slot i then t.complete .ok else t

/-- The Request Table's part of the end of an attempt (R87). The record in the context's slot is in ATTEMPT in
every state a run reaches (R66); in another state nothing ends (assumption 16). -/
def State.endRecord (s : State) (i : Slot) (e : AttemptEnd) : State :=
  if (s.record i).state = .attempt then
    if (s.record i).withdrawn then s.freeMarked i else s.applyEnd i e
  else s

/-- The transaction in flight is over: the context is emptied and the reply timer cleared (R68, R72). -/
def FarPort.over (f : FarPort) (link : LinkState) : FarPort :=
  { f with link := link, transaction := .empty, replyTimer := 0, requestClks := 0 }

/-- The Station Table's part of the end of an attempt (R77). -/
def State.stationPart (s : State) (st : Station) : AttemptEnd → State
  | .silent => s.countSilence st
  | .clean _ => s.acceptReply st
  | .tainted _ => s.acceptReply st
  | .hold => s.acceptReply st
  | .reject => s.acceptReply st

/-- The end of a transaction: the link returns to IDLE, then the Station Table and the Request Table take the
outcome, all in one event (R77, R87). -/
def State.endTransaction (s : State) (e : AttemptEnd) : State :=
  let x := s.far.transaction
  ((s.setFar (s.far.over .idle)).stationPart x.station e).endRecord x.slot e

end Sys2Proof.Machine
end

