-- ==== Sys2Proof/Machine/Commands.lean ====
section
/-! DEFINITION. The Command Unit (chapter 10): taking a command, its checks, the six commands, and the meanings of
VIEW, WITHDRAW, WITHDRAW_REQUESTER, CLEAR, READMIT, FAR_RESET and BAD_COMMAND. -/

namespace Sys2Proof.Machine

/-! ### VIEW (R167) -/

/-- A record's rank, its position in the entry order; 0 for a FREE slot (R18, R167). -/
def State.rank (s : State) (i : Slot) : Nat := if (s.record i).state = .free then 0 else s.order.idxOf i

/-- The snapshot of a slot (R167). The model's own expiry mark is no item of it. -/
def State.snapshot (s : State) (i : Slot) : View :=
  { slot := i, rank := s.rank i, content := { s.record i with expiring := false } }

/-- VIEW of a slot. -/
def State.viewSlot (s : State) (i : Slot) : State :=
  (s.setCommand { s.command with view := s.snapshot i }).complete .ok

/-! ### Withdrawing (R169, R170) -/

/-- The withdraw of one record: freed at once, or marked in ATTEMPT. -/
def State.withdrawRecord (s : State) (i : Slot) : State :=
  if (s.record i).state = .attempt then s.setRecord i { s.record i with withdrawn := true } else s.freeRecord i

/-- WITHDRAW of a slot (R169). -/
def State.withdrawSlot (s : State) (i : Slot) : State :=
  match (s.record i).state with
  | .free => s.complete .noRecord
  | .attempt => (s.withdrawRecord i).startWait (.slot i)
  | .pending => (s.withdrawRecord i).complete .ok
  | .backoff => (s.withdrawRecord i).complete .ok
  | .watch => (s.withdrawRecord i).complete .ok
  | .ready => (s.withdrawRecord i).complete .ok

/-- The records a command withdraws: those of one requester, or all. -/
def Record.ofRequester (r : Record) : Option Requester → Bool
  | none => true
  | some q => r.requester == q

/-- The withdraw reaches one slot of a command that withdraws many. -/
def withdrawOne (q : Option Requester) (s : State) (i : Slot) : State :=
  if (s.record i).ofRequester q then s.withdrawRecord i else s

/-- The record in ATTEMPT among those a command withdraws, of which there is at most one (R66). -/
def State.inAttempt (s : State) (q : Option Requester) : Option Slot :=
  (List.finRange 24).find? fun i => (s.record i).state == .attempt && (s.record i).ofRequester q

/-- WITHDRAW_REQUESTER of a requester (R173), or CLEAR (R174). -/
def State.withdrawMany (s : State) (q : Option Requester) : State :=
  let t := (List.finRange 24).foldl (withdrawOne q) s
  match s.inAttempt q with
  | none => t.complete .ok
  | some i => t.startWait (.slot i)

/-! ### READMIT (R133, R175) -/

/-- READMIT of a station. -/
def State.readmitStation (s : State) (st : Station) : State :=
  if (s.stationEntry st).mode = .unreachable then
    (s.setStation st { s.stationEntry st with mode := .active, silences := 0 }).complete .ok
  else s.complete .notUnreachable

/-! ### FAR_RESET (R82 to R84, R176) -/

/-- The record of an abandoned transaction leaves ATTEMPT (R83). -/
def State.abandonRecord (s : State) (i : Slot) : State :=
  if (s.record i).state = .attempt then s.returnRecord i else s

/-- The transaction in flight, if there is one, is abandoned (R83). -/
def State.abandon (s : State) : State :=
  match s.far.link with
  | .request => s.abandonRecord s.far.transaction.slot
  | .await => s.abandonRecord s.far.transaction.slot
  | .idle => s
  | .reset => s

/-- Far reset begins, or begins again (R82, R83, R84). -/
def State.beginFarReset (s : State) : State :=
  let t := s.abandon.clearSilences
  t.setFar { t.far.over .reset with resetTimer := Config.farResetTicks }

/-! ### Taking a command (R162, R165) -/

/-- A slot operand, 0 to 23. -/
def slotOperand (operand : Byte) : Option Slot := if h : operand.toNat < 24 then some ⟨operand.toNat, h⟩ else none

/-- A requester operand, 0 to 7. -/
def requesterOperand (operand : Byte) : Option Requester :=
  if h : operand.toNat < 8 then some ⟨operand.toNat, h⟩ else none

/-- A station operand, 0 to 15. -/
def stationOperand (operand : Byte) : Option Station :=
  if h : operand.toNat < 16 then some ⟨operand.toNat, h⟩ else none

/-- A named command with its operand: the operand check, then the command's rule (R165). -/
def State.runCommand (s : State) (name : CommandName) (operand : Byte) : State :=
  match name with
  | .view =>
    match slotOperand operand with
    | some i => s.viewSlot i
    | none => s.complete .badOperand
  | .withdraw =>
    match slotOperand operand with
    | some i => s.withdrawSlot i
    | none => s.complete .badOperand
  | .withdrawRequester =>
    match requesterOperand operand with
    | some q => s.withdrawMany (some q)
    | none => s.complete .badOperand
  | .clear => s.withdrawMany none
  | .readmit =>
    match stationOperand operand with
    | some st => s.readmitStation st
    | none => s.complete .badOperand
  | .farReset => s.beginFarReset.startWait .farReset

/-- A code and operand in IDLE: the last command is theirs, and a code that names no command completes with
BAD_COMMAND (R162, R165). -/
def State.takeCommand (s : State) (code operand : Byte) : State :=
  let t := s.setCommand { s.command with lastCode := code, lastOperand := operand }
  match commandOf code with
  | some name => t.runCommand name operand
  | none => t.complete .badCommand

/-- A write that reaches the Command Unit: in BUSY it is ignored and the overlap flag set (R162). -/
def State.writeCommand (s : State) (code operand : Byte) : State :=
  if s.command.busy then s.setCommand { s.command with overlap := true } else s.takeCommand code operand

/-- The owner writes the command register with lanes 0 and 1 and a correct check: answered ACK in every case
(R162). While RST# is asserted the access is not claimed (R183). -/
def State.ownerCommand (s : State) (code operand : Byte) : State :=
  if s.rstAsserted then s.setAnswer .notClaimed
  else (s.writeCommand code operand).setAnswer (plainAnswer .ack false)

/-! ### Meanings -/

/-- VIEW (R167). -/
def execView (operand : Byte) (s : State) : Host.Outcome State Fault Refusal :=
  .next (s.ownerCommand (commandCode .view) operand)

/-- WITHDRAW (R169). -/
def execWithdraw (operand : Byte) (s : State) : Host.Outcome State Fault Refusal :=
  .next (s.ownerCommand (commandCode .withdraw) operand)

/-- WITHDRAW_REQUESTER (R173). -/
def execWithdrawRequester (operand : Byte) (s : State) : Host.Outcome State Fault Refusal :=
  .next (s.ownerCommand (commandCode .withdrawRequester) operand)

/-- CLEAR (R174). Its operand is kept in the last command and has no effect (R165). -/
def execClear (operand : Byte) (s : State) : Host.Outcome State Fault Refusal :=
  .next (s.ownerCommand (commandCode .clear) operand)

/-- READMIT (R175). -/
def execReadmit (operand : Byte) (s : State) : Host.Outcome State Fault Refusal :=
  .next (s.ownerCommand (commandCode .readmit) operand)

/-- FAR_RESET (R176). Its operand is kept in the last command and has no effect (R165). -/
def execFarReset (operand : Byte) (s : State) : Host.Outcome State Fault Refusal :=
  .next (s.ownerCommand (commandCode .farReset) operand)

/-- BAD_COMMAND (R165). A code that does name a command is taken as that command (assumption 10). -/
def execBadCommand (code operand : Byte) (s : State) : Host.Outcome State Fault Refusal :=
  .next (s.ownerCommand code operand)

end Sys2Proof.Machine
end

