-- ==== Sys2Proof/Machine/ControlWindow.lean ====
section
/-! DEFINITION. Writes of the control window (chapter 11): the writer's right, the lane-wise store of every
register, and the meanings of the fourteen rows that write it. -/

namespace Sys2Proof.Machine

/-! ### Stores that reach another block -/

/-- The mode code written to a station (R125, R126): UNREACHABLE is never written, an UNREACHABLE station takes
only OFF, and entry to OFF clears the silence count and closes the station. -/
def State.writeMode (s : State) (st : Station) (code : BitVec 2) : State :=
  let e := s.stationEntry st
  match e.mode, stationModeOf code with
  | _, .unreachable => s
  | .unreachable, .off => s.setStation st { e with mode := .off, silences := 0 }
  | .unreachable, .active => s
  | .unreachable, .suspended => s
  | .off, .off => s
  | .active, .off => (s.setStation st { e with mode := .off, silences := 0 }).closeStation st
  | .suspended, .off => (s.setStation st { e with mode := .off, silences := 0 }).closeStation st
  | .off, .active => s.setStation st { e with mode := .active }
  | .active, .active => s
  | .suspended, .active => s.setStation st { e with mode := .active }
  | .off, .suspended => s.setStation st { e with mode := .suspended }
  | .active, .suspended => s.setStation st { e with mode := .suspended }
  | .suspended, .suspended => s

/-- The class written to a station (R134). -/
def State.writeClass (s : State) (st : Station) (side : Bool) : State :=
  s.setStation st { s.stationEntry st with cls := if side then .side else .plain }

/-- The time base select written: a changed value sets the divider state to 0 (R140). -/
def State.writeTimeBase (s : State) (n : BitVec 3) : State :=
  if n = s.params.timeBaseSelect then s
  else (s.setParams { s.params with timeBaseSelect := n }).setDivider 0

/-- The silence limit written: 0 is no taken write; any other value is stored and clears the counts (R131, R181). -/
def State.writeSilenceLimit (s : State) (n : BitVec 4) : State :=
  if n = 0 then s else (s.setParams { s.params with silenceLimit := n }).clearSilences

/-! ### The store of each register (R181) -/

/-- The fields of global control. -/
def State.writeGlobalControl (s : State) (lanes : Lanes) (data : Word) : State :=
  let t := if laneOn lanes 0 then s.setParams { s.params with aperturesOpen := data.getLsbD 0 } else s
  if laneOn lanes 1 then t.writeTimeBase (data.extractLsb' 8 3) else t

/-- A byte field that never holds 0: 0 leaves it as it stands, as does an unselected lane (R181). -/
def nonZeroByte (old : Byte) (lanes : Lanes) (lane : Nat) (data : Word) : Byte :=
  if laneOn lanes lane && byteOf data lane != 0 then byteOf data lane else old

/-- A 16-bit field that never holds 0, judged on the value that results (R181). -/
def nonZeroHalf (old : BitVec 16) (lanes : Lanes) (data : Word) : BitVec 16 :=
  if mergeHalf old data lanes = 0 then old else mergeHalf old data lanes

/-- The mode and class word of a station; both fields take their values in one event. -/
def State.writeStationMode (s : State) (st : Station) (lanes : Lanes) (data : Word) : State :=
  let t := if laneOn lanes 1 then s.writeClass st (data.getLsbD 8) else s
  if laneOn lanes 0 then t.writeMode st (data.extractLsb' 0 2) else t

/-- The quota of a requester: above 24 it stays as it stands (R149). -/
def State.writeQuota (s : State) (r : Requester) (lanes : Lanes) (data : Word) : State :=
  if laneOn lanes 3 ∧ (byteOf data 3).toNat ≤ 24 then
    s.setRequester r { s.requesterEntry r with quota := byteOf data 3 }
  else s

/-- The counter clears of a requester (R150). -/
def State.writeCounterClear (s : State) (r : Requester) (lanes : Lanes) (data : Word) : State :=
  let e := s.requesterEntry r
  s.setRequester r
    { e with
      turnedAway := if laneOn lanes 0 && data.getLsbD 0 then 0 else e.turnedAway
      unclaimed := if laneOn lanes 0 && data.getLsbD 1 then 0 else e.unclaimed }

/-- The clears of the far link counts (R80). -/
def State.writeFarLinkClear (s : State) (lanes : Lanes) (data : Word) : State :=
  s.setFar
    { s.far with
      late := if laneOn lanes 0 && data.getLsbD 0 then 0 else s.far.late
      misaddressed := if laneOn lanes 0 && data.getLsbD 1 then 0 else s.far.misaddressed }

/-- The fault clear of a requester (R154). -/
def State.writeFaultClear (s : State) (r : Requester) (lanes : Lanes) (data : Word) : State :=
  if laneOn lanes 3 && data.getLsbD 31 then
    s.setRequester r { s.requesterEntry r with fault := .clear }
  else s

/-- One word of a watch setup (R108). -/
def WatchSetup.write (w : WatchSetup) (field : SetupField) (lanes : Lanes) (data : Word) : WatchSetup :=
  match field with
  | .mode => if laneOn lanes 0 then { w with mode := if data.getLsbD 0 then .change else .differ } else w
  | .reference => { w with reference := mergeWord w.reference data lanes }
  | .mask => { w with mask := mergeWord w.mask data lanes }
  | .pollLimit => { w with pollLimit := mergeHalf w.pollLimit data lanes }

/-- One word of a requester's watch setup (R108). -/
def State.writeSetup (s : State) (r : Requester) (field : SetupField) (lanes : Lanes) (data : Word) : State :=
  s.setRequester r
    { s.requesterEntry r with setup := (s.requesterEntry r).setup.write field lanes data }

/-- The command register: both its lanes must be selected (R181). -/
def State.writeCommandRegister (s : State) (lanes : Lanes) (data : Word) : State :=
  if laneOn lanes 0 && laneOn lanes 1 then s.writeCommand (byteOf data 0) (byteOf data 1) else s

/-- The overlap flag (R164). -/
def State.writeOverlap (s : State) (lanes : Lanes) (data : Word) : State :=
  if laneOn lanes 0 && data.getLsbD 1 then s.setCommand { s.command with overlap := false } else s

/-- The timing word of a station (R135, R181). -/
def State.writeTiming (s : State) (st : Station) (lanes : Lanes) (data : Word) : State :=
  let e := s.stationEntry st
  s.setStation st
    { e with replyTimeout := nonZeroByte e.replyTimeout lanes 0 data, backoff := nonZeroByte e.backoff lanes 1 data }

/-- The poll interval of a station (R135, R181). -/
def State.writePoll (s : State) (st : Station) (lanes : Lanes) (data : Word) : State :=
  let e := s.stationEntry st
  s.setStation st { e with pollInterval := nonZeroHalf e.pollInterval lanes data }

/-- A taken write acts on its word (R177, R181); read-only words and absent ones are left as they stand. -/
def State.writeRegister (s : State) (reg : Register) (lanes : Lanes) (data : Word) : State :=
  match reg with
  | .globalControl => s.writeGlobalControl lanes data
  | .holdBudget => s.setParams { s.params with holdBudget := nonZeroByte s.params.holdBudget lanes 0 data }
  | .silenceLimit => if laneOn lanes 0 then s.writeSilenceLimit (data.extractLsb' 0 4) else s
  | .collectionLimit =>
    s.setParams { s.params with collectionLimit := nonZeroHalf s.params.collectionLimit lanes data }
  | .tableSummary => s
  | .farLinkStatus => s
  | .farLinkClear => s.writeFarLinkClear lanes data
  | .command => s.writeCommandRegister lanes data
  | .commandStatus => s.writeOverlap lanes data
  | .view _ => s
  | .stationMode st => s.writeStationMode st lanes data
  | .stationTiming st => s.writeTiming st lanes data
  | .stationPoll st => s.writePoll st lanes data
  | .stationSilences _ => s
  | .requesterCounts r => s.writeQuota r lanes data
  | .counterClear r => s.writeCounterClear r lanes data
  | .faultStatus _ => s
  | .faultOffset r => s.writeFaultClear r lanes data
  | .setupMode r => s.writeSetup r .mode lanes data
  | .setupReference r => s.writeSetup r .reference lanes data
  | .setupMask r => s.writeSetup r .mask lanes data
  | .setupPollLimit r => s.writeSetup r .pollLimit lanes data
  | .flagsA => s.setFlags (s.flags.clearOnes .a data lanes)
  | .flagsB => s.setFlags (s.flags.clearOnes .b data lanes)
  | .enablesA => s.setEnables (s.enables.store .a data lanes)
  | .enablesB => s.setEnables (s.enables.store .b data lanes)
  | .absent => s

/-! ### A claimed write, judged whole (R180) -/

/-- The writer's right to a word: the owner's to every word, a requester's to its own watch setup and fault clear. -/
def State.mayWrite (s : State) (r : Requester) (reg : Register) : Bool := r == s.own || registerGuest reg == some r

/-- A claimed write of the control window: near check, right, then the store, in one event (R180). -/
def State.windowWrite (s : State) (o : WindowOffset) (w : WindowWrite) : State :=
  if !passesCheck w.data w.check then s.refuse w.requester false .nearCheck .control 0 (o.setWidth 18)
  else if !s.mayWrite w.requester (registerOf o) then
    s.refuse w.requester false .notOwner .control 0 (o.setWidth 18)
  else (s.writeRegister (registerOf o) w.lanes w.data).setAnswer (plainAnswer .ack false)

/-- A write of the control window as the near port takes it: while RST# is asserted it is not claimed (R183). -/
def State.takeWindowWrite (s : State) (o : WindowOffset) (w : WindowWrite) : State :=
  if s.rstAsserted then s.setAnswer .notClaimed else s.windowWrite o w

/-! ### Meanings -/

/-- APERTURES_OPEN_WRITE (R28): a write of global control; a selected lane 1 writes the time base select too. -/
def execAperturesOpenWrite (w : WindowWrite) (s : State) : Host.Outcome State Fault Refusal :=
  .next (s.takeWindowWrite (registerAt .globalControl) w)

/-- TIME_BASE_SELECT_WRITE (R140): a write of global control; a selected lane 0 writes apertures-open too. -/
def execTimeBaseSelectWrite (w : WindowWrite) (s : State) : Host.Outcome State Fault Refusal :=
  .next (s.takeWindowWrite (registerAt .globalControl) w)

/-- SILENCE_LIMIT_WRITE (R131). -/
def execSilenceLimitWrite (w : WindowWrite) (s : State) : Host.Outcome State Fault Refusal :=
  .next (s.takeWindowWrite (registerAt .silenceLimit) w)

/-- STATION_MODE_WRITE (R125, R126): a selected lane 1 writes the class too. -/
def execStationModeWrite (st : Station) (w : WindowWrite) (s : State) : Host.Outcome State Fault Refusal :=
  .next (s.takeWindowWrite (registerAt (.stationMode st)) w)

/-- CLEAR_LATE_COUNT (R80). -/
def execClearLateCount (w : WindowWrite) (s : State) : Host.Outcome State Fault Refusal :=
  .next (s.takeWindowWrite (registerAt .farLinkClear) w)

/-- CLEAR_MISADDRESSED_COUNT (R80). -/
def execClearMisaddressedCount (w : WindowWrite) (s : State) : Host.Outcome State Fault Refusal :=
  .next (s.takeWindowWrite (registerAt .farLinkClear) w)

/-- CLEAR_TURNED_AWAY_COUNT (R150). -/
def execClearTurnedAwayCount (entry : Requester) (w : WindowWrite) (s : State) : Host.Outcome State Fault Refusal :=
  .next (s.takeWindowWrite (registerAt (.counterClear entry)) w)

/-- CLEAR_UNCLAIMED_COUNT (R150). -/
def execClearUnclaimedCount (entry : Requester) (w : WindowWrite) (s : State) : Host.Outcome State Fault Refusal :=
  .next (s.takeWindowWrite (registerAt (.counterClear entry)) w)

/-- FAULT_CLEAR (R154). -/
def execFaultClear (entry : Requester) (w : WindowWrite) (s : State) : Host.Outcome State Fault Refusal :=
  .next (s.takeWindowWrite (registerAt (.faultOffset entry)) w)

/-- WATCH_SETUP_WRITE (R107, R108). -/
def execWatchSetupWrite (entry : Requester) (field : SetupField) (w : WindowWrite) (s : State) :
    Host.Outcome State Fault Refusal :=
  .next (s.takeWindowWrite (registerAt (setupRegister entry field)) w)

/-- NOTICE_CLEAR (R157). -/
def execNoticeClear (word : NoticeWord) (w : WindowWrite) (s : State) : Host.Outcome State Fault Refusal :=
  .next (s.takeWindowWrite (registerAt (flagsRegister word)) w)

/-- NOTICE_ENABLE_WRITE (R158). -/
def execNoticeEnableWrite (word : NoticeWord) (w : WindowWrite) (s : State) : Host.Outcome State Fault Refusal :=
  .next (s.takeWindowWrite (registerAt (enablesRegister word)) w)

/-- OVERLAP_CLEAR (R164). -/
def execOverlapClear (w : WindowWrite) (s : State) : Host.Outcome State Fault Refusal :=
  .next (s.takeWindowWrite (registerAt .commandStatus) w)

/-- REGISTER_WRITE (R181): a claimed write of the word at an offset. -/
def execRegisterWrite (o : WindowOffset) (w : WindowWrite) (s : State) : Host.Outcome State Fault Refusal :=
  .next (s.takeWindowWrite o w)

end Sys2Proof.Machine
end

