-- ==== Sys2Proof/Machine/Signals.lean ====
section
/-! DEFINITION. What the outside reads of the state: the far link pins (R69, R183, R185) and every word of the
control window (R177). Nothing here changes the state. -/

namespace Sys2Proof.Machine

/-! ### The far link -/

/-- One beat of a far request on the far link signals (R69). -/
structure FarBeat where
  station : Station
  tag : Tag
  isWrite : Bool
  lanes : Lanes
  fad : Word
  fchk : Bool
  deriving DecidableEq, Repr

/-- A beat that carries a word on FAD with its correct check on FCHK (R69). -/
def Transaction.beat (x : Transaction) (fad : Word) : FarBeat :=
  { station := x.station, tag := x.tag, isWrite := x.isWrite, lanes := x.lanes, fad := fad,
    fchk := correctCheck fad }

/-- The word of the address beat: the offset on bits 19:2, every other bit 0 (R69). -/
def Transaction.addressWord (x : Transaction) : Word := x.offset.setWidth 32 <<< 2

/-- The address beat of a request (R69). -/
def Transaction.addressBeat (x : Transaction) : FarBeat := x.beat x.addressWord

/-- The data beat of a write request (R69). -/
def Transaction.dataBeat (x : Transaction) : FarBeat := x.beat x.writeData

/-- The beats of a request in order: the address beat, and for a write the data beat (R69). -/
def Transaction.beats (x : Transaction) : List FarBeat :=
  x.addressBeat :: if x.isWrite then [x.dataBeat] else []

/-- The CLK periods for which a request holds REQUEST (R185). -/
def Transaction.clks (x : Transaction) : Nat := Config.clksPerBeat * x.beats.length

/-- What the far port drives: FREQ# with a beat in REQUEST, nothing otherwise (R69, R71, R183). -/
def State.farBeat (s : State) : Option FarBeat :=
  match s.far.link with
  | .request =>
    if s.far.transaction.isWrite && Config.clksPerBeat ≤ s.far.requestClks then
      some s.far.transaction.dataBeat
    else some s.far.transaction.addressBeat
  | .idle => none
  | .await => none
  | .reset => none

/-- FRST# is asserted exactly in RESET (R65, R183). -/
def State.frstAsserted (s : State) : Bool := s.far.link == .reset

/-! ### Control window reads -/

/-- A station offset as a byte offset in its 20-bit field (R177). -/
def byteOffset (o : WordOffset) : Nat := o.toNat * 4

/-- The table summary (R19, R177). -/
def Summary.word (c : Summary) : Word :=
  fieldAt c.live 0 ||| fieldAt c.pending 5 ||| fieldAt c.attempt 10 ||| fieldAt c.backoff 11 |||
    fieldAt c.watch 16 ||| fieldAt c.ready 21

/-- The view registers (R167, R177). -/
def View.word (v : View) (n : Fin 9) : Word :=
  let r := v.content
  match n with
  | 0 => fieldAt v.slot.val 0 ||| fieldAt (recordStateCode r.state) 8 ||| fieldAt v.rank 16 ||| bitAt r.withdrawn 24
  | 1 => fieldAt r.requester.val 0 ||| fieldAt (kindCode r.kind) 4 ||| fieldAt (watchModeCode r.watchMode) 6 |||
      bitAt r.captured 7 ||| fieldAt r.station.val 8 ||| fieldAt r.lanes.toNat 12 |||
      fieldAt (outcomeCode r.outcome) 16
  | 2 => fieldAt (byteOffset r.offset) 0
  | 3 => r.writeData
  | 4 => r.reference
  | 5 => r.mask
  | 6 => fieldAt r.pollLimit.toNat 0 ||| fieldAt r.pollCount.toNat 16
  | 7 => fieldAt r.timer.toNat 0 ||| fieldAt r.holdCount.toNat 16
  | 8 => r.resultData

/-- The fault status word (R177). -/
def FaultRecord.statusWord (f : FaultRecord) : Word :=
  fieldAt (faultReasonCode f.reason) 0 ||| fieldAt (faultRegionCode f.region) 4 ||| fieldAt f.station.val 8 |||
    fieldAt f.further.toNat 16 ||| bitAt f.valid 31

/-- The command status word (R177). -/
def CommandUnit.statusWord (c : CommandUnit) : Word :=
  bitAt c.busy 0 ||| bitAt c.overlap 1 ||| fieldAt (commandResultCode c.lastResult) 8 |||
    fieldAt c.lastCode.toNat 16 ||| fieldAt c.lastOperand.toNat 24

/-- The word a read of a register returns (R177, R179); bits the table does not name read 0. -/
def State.readRegister (s : State) : Register → Word
  | .globalControl => bitAt s.params.aperturesOpen 0 ||| fieldAt s.params.timeBaseSelect.toNat 8
  | .holdBudget => fieldAt s.params.holdBudget.toNat 0
  | .silenceLimit => fieldAt s.params.silenceLimit.toNat 0
  | .collectionLimit => fieldAt s.params.collectionLimit.toNat 0
  | .tableSummary => s.summary.word
  | .farLinkStatus =>
    fieldAt s.far.late.toNat 0 ||| fieldAt s.far.misaddressed.toNat 8 ||| fieldAt (linkStateCode s.far.link) 24
  | .farLinkClear => 0
  | .command => fieldAt s.command.lastCode.toNat 0 ||| fieldAt s.command.lastOperand.toNat 8
  | .commandStatus => s.command.statusWord
  | .view n => s.command.view.word n
  | .stationMode st =>
    fieldAt (stationModeCode (s.stationEntry st).mode) 0 ||| fieldAt (stationClassCode (s.stationEntry st).cls) 8
  | .stationTiming st =>
    fieldAt (s.stationEntry st).replyTimeout.toNat 0 ||| fieldAt (s.stationEntry st).backoff.toNat 8
  | .stationPoll st => fieldAt (s.stationEntry st).pollInterval.toNat 0
  | .stationSilences st => fieldAt (s.stationEntry st).silences.toNat 0
  | .requesterCounts r =>
    fieldAt (s.requesterEntry r).live 0 ||| fieldAt (s.requesterEntry r).turnedAway.toNat 8 |||
      fieldAt (s.requesterEntry r).unclaimed.toNat 16 ||| fieldAt (s.requesterEntry r).quota.toNat 24
  | .counterClear _ => 0
  | .faultStatus r => (s.requesterEntry r).fault.statusWord
  | .faultOffset r => fieldAt (byteOffset (s.requesterEntry r).fault.offset) 0
  | .setupMode r => fieldAt (watchModeCode (s.requesterEntry r).setup.mode) 0
  | .setupReference r => (s.requesterEntry r).setup.reference
  | .setupMask r => (s.requesterEntry r).setup.mask
  | .setupPollLimit r => fieldAt (s.requesterEntry r).setup.pollLimit.toNat 0
  | .flagsA => s.flags.toWord .a
  | .flagsB => s.flags.toWord .b
  | .enablesA => s.enables.toWord .a
  | .enablesB => s.enables.toWord .b
  | .absent => 0

/-- The answer to a claimed read of the control window: ACK with the whole word and its correct check (R179). -/
def State.readAnswer (s : State) (o : WindowOffset) : NearAnswer :=
  dataAnswer .ack true (s.readRegister (registerOf o)) (correctCheck (s.readRegister (registerOf o)))

end Sys2Proof.Machine
end

