-- ==== Sys2Proof/Machine/NearPort.lean ====
section
/-! DEFINITION. The near port (chapter 2): refusals before matching, matching, collection, admission, the routing of
a near access by its address, and the meanings of FAR_ACCESS, WATCH_READ and WATCH_APERTURE_WRITE. -/

namespace Sys2Proof.Machine

/-- The access is a read. -/
def isReadDirection : Direction → Bool
  | .read => true
  | .write _ _ => false

/-- The write data and its check pass the near check; a read carries none (R30). -/
def nearCheckPasses : Direction → Bool
  | .read => true
  | .write data check => passesCheck data check

/-- The data of the key: all 32 bits of a write, none (0) of a read (R15). -/
def keyData : Direction → Word
  | .read => 0
  | .write data _ => data

/-! ### Keys (R15, R16) -/

/-- The fields by which a repeated access is recognised (R15). Only a WRITE record has write data, so 0 stands for
none in the others (R14). -/
structure Key where
  requester : Requester
  kind : Kind
  station : Station
  offset : WordOffset
  lanes : Lanes
  writeData : Word
  deriving DecidableEq, Repr

/-- A record's key (R15). -/
def Record.key (r : Record) : Key :=
  { requester := r.requester, kind := r.kind, station := r.station, offset := r.offset, lanes := r.lanes,
    writeData := r.writeData }

/-- The kind an aperture access asks for: WATCH in the watch aperture, else READ or WRITE (R5). -/
def accessKind (isWatch : Bool) (d : Direction) : Kind :=
  if isWatch then .watch else if isReadDirection d then .read else .write

/-- The region an aperture access is reported under (R33). -/
def accessRegion (isWatch : Bool) : FaultRegion := if isWatch then .watch else .far

/-- An access to an aperture after the decode of its address (R27, R29). -/
structure ApertureAccess where
  requester : Requester
  isWatch : Bool
  station : Station
  offset : WordOffset
  lanes : Lanes
  direction : Direction
  deriving DecidableEq, Repr

/-- The key of an access (R15). -/
def ApertureAccess.key (a : ApertureAccess) : Key :=
  { requester := a.requester, kind := accessKind a.isWatch a.direction, station := a.station, offset := a.offset,
    lanes := a.lanes, writeData := keyData a.direction }

/-- The live record whose key equals the access's key, of which there is at most one (R16, R17). -/
def State.findMatch (s : State) (k : Key) : Option Slot :=
  (List.finRange 24).find? fun i => (s.record i).state != .free && (s.record i).key == k

/-! ### Answers of an aperture access -/

/-- A FAULT answer to an aperture access, and its report (R33). -/
def State.faultAccess (s : State) (a : ApertureAccess) (reason : FaultReason) : State :=
  s.refuse a.requester (isReadDirection a.direction) reason (accessRegion a.isWatch) a.station a.offset

/-- RETRY with no change (R35). -/
def State.retryAccess (s : State) (a : ApertureAccess) : State :=
  s.setAnswer (plainAnswer .retry (isReadDirection a.direction))

/-- A collected record's report, for an answer that is reported (R33, R37). -/
def State.reportAccess (s : State) (a : ApertureAccess) (reason : FaultReason) : State :=
  s.report a.requester reason (accessRegion a.isWatch) a.station a.offset

/-! ### Collection (R37 to R40) -/

/-- A matching repeat collects a READY record: it is answered by the outcome, reported where the answer is FAULT or
carries TAINTED data, and the record is freed. -/
def State.collect (s : State) (i : Slot) (a : ApertureAccess) : State :=
  let d := (s.record i).resultData
  let rd := isReadDirection a.direction
  match (s.record i).outcome with
  | some .ok => (s.freeRecord i).setAnswer (dataAnswer .ack rd d (correctCheck d))
  | some .tainted =>
    ((s.freeRecord i).reportAccess a .tainted).setAnswer (dataAnswer .ack rd d (poisonedCheck d))
  | some .rejected => (s.freeRecord i).faultAccess a .rejected
  | some .noStation => (s.freeRecord i).faultAccess a .noStation
  | some .exhausted => (s.freeRecord i).faultAccess a .exhausted
  | some .expired =>
    ((s.freeRecord i).reportAccess a .expired).setAnswer (dataAnswer .fault rd d (correctCheck d))
  | none => s.retryAccess a

/-! ### Admission (R42 to R49) -/

/-- The record that an access enters (R20, R109). -/
def newRecord (a : ApertureAccess) (setup : WatchSetup) : Record :=
  let base : Record :=
    { Record.free with requester := a.requester, kind := accessKind a.isWatch a.direction, station := a.station,
                       offset := a.offset, lanes := a.lanes }
  if a.isWatch then
    { base with
      state := .watch, watchMode := setup.mode, mask := setup.mask, pollLimit := setup.pollLimit,
      reference := if setup.mode = .differ then setup.reference else 0, captured := setup.mode == .differ }
  else { base with state := .pending, writeData := keyData a.direction }

/-- A new request turned away: RETRY without entry, and the turned-away count rises (R46, R47, R49). -/
def State.turnAway (s : State) (a : ApertureAccess) : State :=
  let e := s.requesterEntry a.requester
  (s.setRequester a.requester { e with turnedAway := satInc e.turnedAway }).retryAccess a

/-- Admission of an access that matches no live record: the checks in their order (R42). -/
def State.admitOrRefuse (s : State) (a : ApertureAccess) : State :=
  let e := s.requesterEntry a.requester
  let st := s.stationEntry a.station
  if e.quota = 0 then s.faultAccess a .barred
  else if st.mode.closed then s.faultAccess a .noStation
  else if a.isWatch && st.cls == .side then s.faultAccess a .badWatch
  else if e.quota.toNat ≤ e.live then s.turnAway a
  else
    match s.freeSlot with
    | none => s.turnAway a
    | some i => (s.enterRecord i (newRecord a e.setup)).retryAccess a

/-! ### An aperture access, taken whole (R25, R34) -/

/-- Matching: collection, RETRY with no change, or admission (R34). -/
def State.matchAccess (s : State) (a : ApertureAccess) : State :=
  match s.findMatch a.key with
  | some i => if (s.record i).state = .ready then s.collect i a else s.retryAccess a
  | none => s.admitOrRefuse a

/-- The refusals before matching in their order, then matching (section 2.3). -/
def State.apertureAccess (s : State) (a : ApertureAccess) : State :=
  if !nearCheckPasses a.direction then s.faultAccess a .nearCheck
  else if a.lanes = 0 then s.faultAccess a .noLanes
  else if a.isWatch && !isReadDirection a.direction then s.faultAccess a .badWatch
  else s.matchAccess a

/-! ### A near access, from its address (R27, R28) -/

/-- An access to an aperture: not claimed while apertures-open is 0 (R28). -/
def State.claimAperture (s : State) (n : NearAccess) (isWatch : Bool) (st : Station) (offset : WordOffset) : State :=
  if s.params.aperturesOpen then
    s.apertureAccess
      { requester := n.requester, isWatch := isWatch, station := st, offset := offset, lanes := n.lanes,
        direction := n.direction }
  else s.setAnswer .notClaimed

/-- An access to the control window (R179, R180). -/
def State.windowAccess (s : State) (n : NearAccess) (o : WindowOffset) : State :=
  match n.direction with
  | .read => s.setAnswer (s.readAnswer o)
  | .write data check =>
    s.windowWrite o { requester := n.requester, lanes := n.lanes, data := data, check := check }

/-- One transfer of the near bus, taken whole in one event (R25). While RST# is asserted nothing is claimed (R26). -/
def State.nearAccess (s : State) (n : NearAccess) : State :=
  if s.rstAsserted then s.setAnswer .notClaimed
  else
    match decodeAddress s.bsel n.address with
    | .far st offset => s.claimAperture n false st offset
    | .watch st offset => s.claimAperture n true st offset
    | .control o => s.windowAccess n o
    | .notClaimed => s.setAnswer .notClaimed

/-! ### Meanings -/

/-- FAR_ACCESS (R34). -/
def execFarAccess (access : NearAccess) (s : State) : Host.Outcome State Fault Refusal := .next (s.nearAccess access)

/-- WATCH_READ (R105). -/
def execWatchRead (requester : Requester) (address : NearAddr) (lanes : Lanes) (s : State) :
    Host.Outcome State Fault Refusal :=
  .next (s.nearAccess { requester := requester, address := address, lanes := lanes, direction := .read })

/-- WATCH_APERTURE_WRITE (R32). -/
def execWatchApertureWrite (requester : Requester) (address : NearAddr) (lanes : Lanes) (data : Word) (check : Bool)
    (s : State) : Host.Outcome State Fault Refusal :=
  .next (s.nearAccess { requester := requester, address := address, lanes := lanes, direction := .write data check })

end Sys2Proof.Machine
end

