-- ==== Sys2Proof/Machine/Reset.lean ====
section
/-! DEFINITION. Chip reset (R22, R26, R67, R183): the meanings of CHIP_RESET and RESET_RELEASE. -/

namespace Sys2Proof.Machine

/-- RST# is asserted: every block takes its reset values, records are cleared without accounting, and nothing is
claimed (R22, R183). The strap registers are not read while RST# is asserted (assumption 2). -/
def State.assertReset (s : State) : State := State.atReset true s.bsel s.own s.pending

/-- RST# rises: the straps are sampled, the far reset timer is loaded with 4 and the divider starts from 0 (R26, R67,
R138). With RST# not asserted there is no rising edge and the straps have no effect (R26). -/
def State.releaseReset (s : State) (bsel : BitVec 4) (own : Requester) : State :=
  if s.rstAsserted then State.atReset false bsel own s.pending else s

/-- CHIP_RESET (R22). -/
def execChipReset (s : State) : Host.Outcome State Fault Refusal := .next s.assertReset

/-- RESET_RELEASE (R26). -/
def execResetRelease (bsel : BitVec 4) (own : Requester) (s : State) : Host.Outcome State Fault Refusal :=
  .next (s.releaseReset bsel own)

end Sys2Proof.Machine
end

