-- ==== Sys2Proof/Machine/FarLink.lean ====
section
/-! DEFINITION. The Far Scheduler and the Far Port (chapters 3 and 4): eligibility, the choice and its hand-over, the
last beat, far replies, SILENT and the end of a far reset. -/

namespace Sys2Proof.Machine

/-! ### Eligibility (R52 to R56) -/

/-- An older record holds a younger one of the pair back: a live READ or WRITE record of that requester and station
that is not READY (R54). -/
def Record.holdsPair (r : Record) (q : Requester) (st : Station) : Bool :=
  r.kind != .watch && r.requester == q && r.station == st && r.state != .ready

/-- The live records older than the one in a slot (R18). -/
def State.older (s : State) (i : Slot) : List Slot := s.order.takeWhile fun j => j != i

/-- The record is the head of its pair: every older live READ or WRITE record of the pair is READY (R54). -/
def State.headOfPair (s : State) (i : Slot) : Bool :=
  (s.older i).all fun j => !(s.record j).holdsPair (s.record i).requester (s.record i).station

/-- The record condition of R52. -/
def State.waitsForLink (s : State) (i : Slot) : Bool :=
  match (s.record i).state with
  | .pending => s.headOfPair i
  | .watch => (s.record i).timer == 0
  | .free => false
  | .attempt => false
  | .backoff => false
  | .ready => false

/-- The record is eligible (R52). -/
def State.eligible (s : State) (i : Slot) : Bool :=
  s.far.link == .idle && (s.stationEntry (s.record i).station).mode == .active && s.waitsForLink i

/-! ### The choice (R57 to R62) -/

/-- The stations in rotation, from the one after the pointer up to the pointer itself (R60). -/
def rotationFrom (p : Station) : List Station := (List.finRange 16).map fun k => p + 1 + k

/-- The oldest eligible record of a station (R61). -/
def State.oldestEligible (s : State) (st : Station) : Option Slot :=
  s.order.find? fun i => (s.record i).station == st && s.eligible i

/-- The record a choice takes, if there is one (R60, R61). -/
def State.chosen (s : State) : Option Slot := (rotationFrom s.pointer).findSome? s.oldestEligible

/-- The context of the transaction that a hand-over starts (R68). -/
def State.contextOf (s : State) (i : Slot) : Transaction :=
  let r := s.record i
  { slot := i, station := r.station, tag := s.far.tagCounter, isWrite := r.kind == .write, offset := r.offset,
    lanes := r.lanes, writeData := r.writeData }

/-- The hand-over of the chosen record (R62, R70, R72). -/
def State.handOver (s : State) (i : Slot) : State :=
  let r := s.record i
  ((s.setRecord i { r with state := .attempt, timer := 0, withdrawn := false, expiring := false }).setPointer
      r.station).setFar
    { s.far with
      link := .request
      transaction := s.contextOf i
      tagCounter := s.far.tagCounter + 1
      replyTimer := (s.stationEntry r.station).replyTimeout
      requestClks := 0 }

/-- A choice; with no eligible record no choice is taken (R57). -/
def State.choose (s : State) : State :=
  match s.chosen with
  | some i => s.handOver i
  | none => s

/-! ### The far request and the reply (R71, R73 to R79) -/

/-- The last beat has been driven (R71). -/
def State.lastBeat (s : State) : State :=
  if s.far.link = .request then s.setFar { s.far with link := .await, requestClks := 0 } else s

/-- What an accepted reply hands on (R74 to R76): only a DONE to a read carries data, and only its check is made. -/
def replyEnd (isWrite : Bool) (kind : BitVec 2) (data : Word) (check : Bool) : AttemptEnd :=
  match replyKindOf kind with
  | .done => if isWrite then .clean 0 else if passesCheck data check then .clean data else .tainted data
  | .hold => .hold
  | .reject => .reject

/-- A transaction is in flight (R65). -/
def FarPort.inFlight (f : FarPort) : Bool := f.link == .request || f.link == .await

/-- The reply carries the station and the tag in flight, and comes in AWAIT (R75). -/
def FarPort.accepts (f : FarPort) (st : Station) (tag : Tag) : Bool :=
  f.link == .await && f.transaction.station == st && f.transaction.tag == tag

/-- A misaddressed reply (R78). -/
def State.countMisaddressed (s : State) : State :=
  (s.setFar { s.far with misaddressed := satInc s.far.misaddressed }).setFlags s.flags.setLinkErr

/-- A late reply (R79). -/
def State.countLate (s : State) : State :=
  (s.setFar { s.far with late := satInc s.far.late }).setFlags s.flags.setLinkErr

/-- A far reply, taken whole (R75, R78, R79). -/
def State.takeReply (s : State) (st : Station) (tag : Tag) (kind : BitVec 2) (data : Word) (check : Bool) : State :=
  if s.far.accepts st tag then s.endTransaction (replyEnd s.far.transaction.isWrite kind data check)
  else if s.far.inFlight && s.far.transaction.station != st then s.countMisaddressed
  else s.countLate

/-- The expiry of the reply timer is due: it has run out and the link is in AWAIT (R73). -/
def FarPort.silentDue (f : FarPort) : Bool := f.link == .await && f.replyTimer == 0

/-- SILENT, where it is due (R73). -/
def State.takeSilent (s : State) : State := if s.far.silentDue then s.endTransaction .silent else s

/-! ### The end of a far reset (R85) -/

/-- The end of the far reset is due: its timer has reached 0 in RESET. -/
def FarPort.resetEndDue (f : FarPort) : Bool := f.link == .reset && f.resetTimer == 0

/-- The end of a far reset, where it is due; a FAR_RESET that waits for it completes with OK. -/
def State.takeResetEnd (s : State) : State :=
  if s.far.resetEndDue then
    let t := s.setFar { s.far with link := .idle }
    if s.command.wait = .farReset then t.complete .ok else t
  else s

/-- An event of the part; while RST# is asserted every block holds its reset values (R183). -/
def State.unlessReset (s t : State) : State := if s.rstAsserted then s else t

/-! ### Meanings -/

/-- CHOICE (R57). -/
def execChoice (s : State) : Host.Outcome State Fault Refusal := .next (s.unlessReset s.choose)

/-- LAST_BEAT_DRIVEN (R71). -/
def execLastBeatDriven (s : State) : Host.Outcome State Fault Refusal := .next (s.unlessReset s.lastBeat)

/-- FAR_REPLY (R75). -/
def execFarReply (st : Station) (tag : Tag) (kind : BitVec 2) (data : Word) (check : Bool) (s : State) :
    Host.Outcome State Fault Refusal :=
  .next (s.unlessReset (s.takeReply st tag kind data check))

/-- SILENT (R73). -/
def execSilent (s : State) : Host.Outcome State Fault Refusal := .next (s.unlessReset s.takeSilent)

/-- FAR_RESET_END (R85). -/
def execFarResetEnd (s : State) : Host.Outcome State Fault Refusal := .next (s.unlessReset s.takeResetEnd)

end Sys2Proof.Machine
end

