-- ==== Sys2Proof/Machine/Timers.lean ====
section
/-! DEFINITION. The Time Base and the record timers (chapter 8): the tick, the three expiries, and the meanings of
TICK, BACKOFF_END, WATCH_DUE and DISCARD. -/

namespace Sys2Proof.Machine

/-- The tick period of a time base select, in CLK periods (R139). -/
def tickPeriod (n : BitVec 3) : Nat := 2 ^ (4 + 2 * n.toNat)

/-! ### The expiries (R142 to R144) -/

/-- A BACKOFF record's timer reaches 0 (R142). -/
def Record.backoffOver (r : Record) : Record := { r with state := .pending, timer := 0, expiring := false }

/-- A WATCH record's timer reaches 0: it becomes due (R143). -/
def Record.nowDue (r : Record) : Record := { r with timer := 0, expiring := false }

/-- The expiry of the record in a slot is due: a tick that brings its timer to 0 has been handed (R141). -/
def State.expiryDue (s : State) (i : Slot) (st : RecordState) : Bool :=
  (s.record i).expiring && (s.record i).state == st

/-- The end of a backoff, where it is due (R142). -/
def State.takeBackoffEnd (s : State) (i : Slot) : State :=
  if s.expiryDue i .backoff then s.setRecord i (s.record i).backoffOver else s

/-- A watch becomes due, where its expiry is (R143). -/
def State.takeWatchDue (s : State) (i : Slot) : State :=
  if s.expiryDue i .watch then s.setRecord i (s.record i).nowDue else s

/-- The discard of an uncollected record (R144). -/
def State.discardRecord (s : State) (i : Slot) : State :=
  let q := (s.record i).requester
  let t := s.freeRecord i
  let e := t.requesterEntry q
  (t.setRequester q { e with unclaimed := satInc e.unclaimed }).setFlags (t.flags.setUnclaimed q)

/-- The discard of the record in a slot, where its expiry is due (R144). -/
def State.takeDiscard (s : State) (i : Slot) : State :=
  if s.expiryDue i .ready then s.discardRecord i else s

/-! ### The tick (R139, R141, R72, R85) -/

/-- A record's timer runs: in BACKOFF, READY and WATCH with a value above 0 (R141). -/
def Record.running (r : Record) : Bool :=
  r.timer != 0 && (r.state == .backoff || r.state == .watch || r.state == .ready)

/-- A tick at one record: a timer above 1 counts down, and the countdown that would bring it to 0 is left to the
expiry that takes it in the same claim (R141; assumption 3). -/
def Record.countdown (r : Record) : Record :=
  if r.running then
    if r.timer = 1 then { r with expiring := true } else { r with timer := r.timer - 1 }
  else r

/-- A tick at the Far Port: the reply timer counts in REQUEST and AWAIT, the far reset timer in RESET (R72, R85). -/
def FarPort.countdown (f : FarPort) : FarPort :=
  match f.link with
  | .request => { f with replyTimer := stopDec f.replyTimer }
  | .await => { f with replyTimer := stopDec f.replyTimer }
  | .reset => { f with resetTimer := f.resetTimer - 1 }
  | .idle => f

/-- A tick is handed to the owners of timers, and the divider starts again (R138, R139). -/
def State.handTick (s : State) : State :=
  { s with slots := s.slots.map Record.countdown, far := s.far.countdown, divider := 0 }

/-- The expiries of one slot that are still due. -/
def takeExpiry (s : State) (i : Slot) : State := ((s.takeBackoffEnd i).takeWatchDue i).takeDiscard i

/-- Every event that the tick before made due and that has not been taken yet, in the order in which `ownEvent` takes
them (assumption 4). -/
def State.takeDue (s : State) : State := (List.finRange 24).foldl takeExpiry s.takeSilent.takeResetEnd

/-- A tick: what the tick before made due is taken first, then the tick is handed (R139; assumption 4). -/
def State.tick (s : State) : State := s.takeDue.handTick

/-! ### Meanings -/

/-- TICK (R139). -/
def execTick (s : State) : Host.Outcome State Fault Refusal := .next (s.unlessReset s.tick)

/-- BACKOFF_END (R142). -/
def execBackoffEnd (i : Slot) (s : State) : Host.Outcome State Fault Refusal :=
  .next (s.unlessReset (s.takeBackoffEnd i))

/-- WATCH_DUE (R143). -/
def execWatchDue (i : Slot) (s : State) : Host.Outcome State Fault Refusal := .next (s.unlessReset (s.takeWatchDue i))

/-- DISCARD (R144). -/
def execDiscard (i : Slot) (s : State) : Host.Outcome State Fault Refusal := .next (s.unlessReset (s.takeDiscard i))

/-! ### The part on its own (R138, R185; assumption 6) -/

/-- The event of its own that is due at a slot. -/
def State.slotEvent (s : State) (i : Slot) : Option Instr :=
  if s.expiryDue i .backoff then some (.backoffEnd i)
  else if s.expiryDue i .watch then some (.watchDue i)
  else if s.expiryDue i .ready then some (.discard i)
  else none

/-- The beats of the request in REQUEST have been driven for their CLK periods (R185). -/
def FarPort.lastBeatDue (f : FarPort) : Bool := f.link == .request && f.transaction.clks ≤ f.requestClks

/-- The event the part takes by itself when no command waits, in a fixed order: DESIGN CHOICE (assumption 6,
unsafe), for the spec lets either of two events that come together be taken first. -/
def State.ownEvent (s : State) : Option Instr :=
  if s.rstAsserted then none
  else if s.far.silentDue then some .silent
  else if s.far.resetEndDue then some .farResetEnd
  else
    match (List.finRange 24).findSome? s.slotEvent with
    | some c => some c
    | none => if s.far.lastBeatDue then some .lastBeatDriven else if s.chosen.isSome then some .choice else none

/-- One more CLK period of the request in REQUEST (R185). -/
def FarPort.clk (f : FarPort) : FarPort :=
  if f.link = .request then { f with requestClks := f.requestClks + 1 } else f

/-- One CLK period: the divider counts, and a tick is produced when it reaches the tick period (R138). While RST# is
asserted the divider is held. -/
def State.clkPeriod (s : State) : State :=
  if s.rstAsserted then s
  else
    let t := s.setFar s.far.clk
    if tickPeriod t.params.timeBaseSelect ≤ t.divider + 1 then t.tick else t.setDivider (t.divider + 1)

end Sys2Proof.Machine
end

