-- ==== Sys2Proof/Machine/Dispatch.lean ====
section
/-! DEFINITION. The one dispatch from a command to its meaning. -/

namespace Sys2Proof.Machine

def exec (i : Instr) (s : State) : Host.Outcome State Fault Refusal :=
  match i with
  | .chipReset => Sys2Proof.Machine.execChipReset s
  | .resetRelease bsel own => Sys2Proof.Machine.execResetRelease bsel own s
  | .farAccess access => Sys2Proof.Machine.execFarAccess access s
  | .watchRead requester address lanes => Sys2Proof.Machine.execWatchRead requester address lanes s
  | .watchApertureWrite requester address lanes data check => Sys2Proof.Machine.execWatchApertureWrite requester address lanes data check s
  | .aperturesOpenWrite w => Sys2Proof.Machine.execAperturesOpenWrite w s
  | .timeBaseSelectWrite w => Sys2Proof.Machine.execTimeBaseSelectWrite w s
  | .silenceLimitWrite w => Sys2Proof.Machine.execSilenceLimitWrite w s
  | .stationModeWrite station w => Sys2Proof.Machine.execStationModeWrite station w s
  | .clearLateCount w => Sys2Proof.Machine.execClearLateCount w s
  | .clearMisaddressedCount w => Sys2Proof.Machine.execClearMisaddressedCount w s
  | .clearTurnedAwayCount entry w => Sys2Proof.Machine.execClearTurnedAwayCount entry w s
  | .clearUnclaimedCount entry w => Sys2Proof.Machine.execClearUnclaimedCount entry w s
  | .faultClear entry w => Sys2Proof.Machine.execFaultClear entry w s
  | .watchSetupWrite entry field w => Sys2Proof.Machine.execWatchSetupWrite entry field w s
  | .noticeClear word w => Sys2Proof.Machine.execNoticeClear word w s
  | .noticeEnableWrite word w => Sys2Proof.Machine.execNoticeEnableWrite word w s
  | .overlapClear w => Sys2Proof.Machine.execOverlapClear w s
  | .registerWrite offset w => Sys2Proof.Machine.execRegisterWrite offset w s
  | .view operand => Sys2Proof.Machine.execView operand s
  | .withdraw operand => Sys2Proof.Machine.execWithdraw operand s
  | .withdrawRequester operand => Sys2Proof.Machine.execWithdrawRequester operand s
  | .clear operand => Sys2Proof.Machine.execClear operand s
  | .readmit operand => Sys2Proof.Machine.execReadmit operand s
  | .farReset operand => Sys2Proof.Machine.execFarReset operand s
  | .badCommand code operand => Sys2Proof.Machine.execBadCommand code operand s
  | .choice => Sys2Proof.Machine.execChoice s
  | .lastBeatDriven => Sys2Proof.Machine.execLastBeatDriven s
  | .farReply station tag kind data check => Sys2Proof.Machine.execFarReply station tag kind data check s
  | .silent => Sys2Proof.Machine.execSilent s
  | .tick => Sys2Proof.Machine.execTick s
  | .backoffEnd slot => Sys2Proof.Machine.execBackoffEnd slot s
  | .watchDue slot => Sys2Proof.Machine.execWatchDue slot s
  | .discard slot => Sys2Proof.Machine.execDiscard slot s
  | .farResetEnd => Sys2Proof.Machine.execFarResetEnd s

end Sys2Proof.Machine
end

