-- ==== Sys2Proof/Safety.lean ====
section
/-! DEFINITION. What a safe state of the part is: the laws the spec states of every moment, each as a decidable
proposition over the state, and their conjunction `State.Safe`. -/

namespace Sys2Proof.Machine

/-- The slot holds a live record (R2). -/
abbrev Record.live (r : Record) : Prop := r.state ≠ .free

/-- The number of slots in a state. -/
def State.slotsIn (s : State) (st : RecordState) : Nat :=
  (List.finRange 24).countP fun i => (s.record i).state == st

/-- The number of live records. -/
def State.liveSlots (s : State) : Nat := (List.finRange 24).countP fun i => (s.record i).state != .free

/-- The number of live records of a requester (R148). -/
def State.liveSlotsOf (s : State) (q : Requester) : Nat :=
  (List.finRange 24).countP fun i => (s.record i).state != .free && (s.record i).requester == q

/-- Each summary count equals the number of slots in its state (R19). -/
abbrev State.SummaryExact (s : State) : Prop :=
  s.summary = { live := s.liveSlots, pending := s.slotsIn .pending, attempt := s.slotsIn .attempt,
                backoff := s.slotsIn .backoff, watch := s.slotsIn .watch, ready := s.slotsIn .ready }

/-- The entry order holds exactly the live records, without duplicates (R18). -/
abbrev State.OrderExact (s : State) : Prop :=
  s.order.Nodup ∧ ∀ i : Slot, i ∈ s.order ↔ (s.record i).live

/-- A requester's live count is the number of its live records (R148). -/
abbrev State.LiveExact (s : State) : Prop := ∀ q : Requester, (s.requesterEntry q).live = s.liveSlotsOf q

/-- No two live records have the same key (R17). -/
abbrev State.KeysUnique (s : State) : Prop :=
  ∀ i j : Slot, (s.record i).live → (s.record j).live → (s.record i).key = (s.record j).key → i = j

/-- A record is in ATTEMPT exactly while a transaction of it is in flight (R66), the context repeats its identity
fields and its write data (R68), and outside REQUEST and AWAIT the context is empty and the reply timer 0 (R72); the
far reset timer is at most 4, and 0 outside RESET (R85). -/
abbrev State.LinkExact (s : State) : Prop :=
  (∀ i : Slot, (s.record i).state = .attempt ↔ s.far.inFlight ∧ s.far.transaction.slot = i) ∧
  (s.far.inFlight → s.far.transaction =
    { s.contextOf s.far.transaction.slot with tag := s.far.transaction.tag }) ∧
  (¬ s.far.inFlight → s.far.transaction = .empty ∧ s.far.replyTimer = 0) ∧
  s.far.resetTimer ≤ Config.farResetTicks ∧ (s.far.link ≠ .reset → s.far.resetTimer = 0)

/-- Every live record of a closed station is READY or in ATTEMPT, and at an UNREACHABLE station READY
(R124, R128). -/
abbrev State.ClosedQuiet (s : State) : Prop :=
  ∀ i : Slot, (s.record i).live →
    ((s.stationEntry (s.record i).station).mode = .off →
      (s.record i).state = .ready ∨ (s.record i).state = .attempt) ∧
    ((s.stationEntry (s.record i).station).mode = .unreachable → (s.record i).state = .ready)

/-- A silence count is below the silence limit unless the station is UNREACHABLE, and 0 while it is OFF (R131). -/
abbrev State.SilencesBounded (s : State) : Prop :=
  ∀ st : Station, ((s.stationEntry st).mode ≠ .unreachable → (s.stationEntry st).silences < s.params.silenceLimit) ∧
    ((s.stationEntry st).mode = .off → (s.stationEntry st).silences = 0)

/-- The fields that a record's kind does not have hold 0 (R14, with R6 to R9), and a record without the captured
flag has no reference (R7). -/
abbrev Record.KindFields (r : Record) : Prop :=
  (r.kind ≠ .write → r.writeData = 0) ∧
  (r.kind ≠ .watch → r.watchMode = .differ ∧ r.reference = 0 ∧ r.captured = false ∧ r.mask = 0 ∧ r.pollLimit = 0 ∧
    r.pollCount = 0) ∧
  (r.kind = .watch → r.holdCount = 0) ∧
  (r.captured = false → r.reference = 0)

/-- A FREE slot holds 0 in every field, a live record has a lane, and each state belongs to its kinds (R2, R5, R14). -/
abbrev Record.StateFields (r : Record) : Prop :=
  (r.state = .free → r = .free) ∧
  (r.live → r.lanes ≠ 0) ∧
  (r.state = .pending ∨ r.state = .backoff → r.kind ≠ .watch) ∧
  (r.state = .watch → r.kind = .watch)

/-- The timer is present in BACKOFF, WATCH and READY only, and a loaded timer is not 0 (R10, R141); the withdrawn mark
is carried only in ATTEMPT, and an outcome exactly in READY (R13); an expiry mark stands at a timer of 1. -/
abbrev Record.TimerFields (r : Record) : Prop :=
  (r.state = .pending ∨ r.state = .attempt → r.timer = 0) ∧
  (r.state = .backoff ∨ r.state = .ready → r.timer ≠ 0) ∧
  (r.withdrawn = true → r.state = .attempt) ∧
  (r.outcome.isSome = true ↔ r.state = .ready) ∧
  (r.expiring = true → r.timer = 1 ∧ (r.state = .backoff ∨ r.state = .watch ∨ r.state = .ready))

/-- The outcome of a READY record is one its kind can take (R11), and only OK, TAINTED and EXPIRED of a READ or WATCH
record hold result data (R12). -/
abbrev Record.OutcomeFits (r : Record) : Prop :=
  (r.outcome = some .tainted → r.kind ≠ .write) ∧
  (r.outcome = some .exhausted → r.kind ≠ .watch) ∧
  (r.outcome = some .expired → r.kind = .watch) ∧
  (r.resultData ≠ 0 → r.kind ≠ .write ∧
    (r.outcome = some .ok ∨ r.outcome = some .tainted ∨ r.outcome = some .expired))

/-- Every record holds the fields of its kind and state, and no other (R11, R12, R13, R14). -/
abbrev State.FieldsExact (s : State) : Prop :=
  (∀ i : Slot, (s.record i).KindFields) ∧ (∀ i : Slot, (s.record i).StateFields) ∧
  (∀ i : Slot, (s.record i).TimerFields) ∧ (∀ i : Slot, (s.record i).OutcomeFits)

/-- A READ or WRITE record is in ATTEMPT or BACKOFF only while every older live READ or WRITE record of the same
requester and station is READY (R55). -/
abbrev State.PairsOrdered (s : State) : Prop :=
  ∀ i : Slot, (s.record i).kind ≠ .watch → (s.record i).state = .attempt ∨ (s.record i).state = .backoff →
    s.headOfPair i = true

/-- The Command Unit is BUSY exactly while it waits for something (R161); it waits for a slot exactly while that
slot's record is marked (R13, R170), and for the end of a far reset only in RESET (R176). -/
abbrev State.CommandExact (s : State) : Prop :=
  (s.command.busy = true ↔ s.command.wait ≠ .nothing) ∧
  (∀ i : Slot, s.command.wait = .slot i ↔ (s.record i).withdrawn = true) ∧
  (s.command.wait = .farReset → s.far.link = .reset) ∧
  (s.command.busy = true → s.command.lastResult = .none)

/-- The parameters stay in their ranges (R123, R147, R182). -/
abbrev State.ParamsInRange (s : State) : Prop :=
  s.params.holdBudget ≠ 0 ∧ s.params.silenceLimit ≠ 0 ∧ s.params.collectionLimit ≠ 0 ∧
  (∀ st : Station, (s.stationEntry st).replyTimeout ≠ 0 ∧ (s.stationEntry st).backoff ≠ 0 ∧
    (s.stationEntry st).pollInterval ≠ 0) ∧
  (∀ q : Requester, (s.requesterEntry q).quota.toNat ≤ 24)

/-- A fault record that is not valid holds 0 in every field (R151). -/
abbrev State.FaultsExact (s : State) : Prop :=
  ∀ q : Requester, (s.requesterEntry q).fault.valid = false → (s.requesterEntry q).fault = .clear

/-- While RST# is asserted every block holds its reset values (R183). -/
abbrev State.HeldInReset (s : State) : Prop :=
  s.rstAsserted = true → s = State.atReset true s.bsel s.own s.pending

/-- All the laws at once. -/
structure State.Safe (s : State) : Prop where
  summary : s.SummaryExact
  order : s.OrderExact
  live : s.LiveExact
  keys : s.KeysUnique
  link : s.LinkExact
  closed : s.ClosedQuiet
  silences : s.SilencesBounded
  fields : s.FieldsExact
  pairs : s.PairsOrdered
  command : s.CommandExact
  params : s.ParamsInRange
  faults : s.FaultsExact
  held : s.HeldInReset

end Sys2Proof.Machine

namespace Sys2Proof

/-! ### The words the statements use: commands and near accesses -/

/-- An aperture access passes the three refusals before matching (section 2.3). -/
abbrev NearAccess.PassesRefusals (n : NearAccess) (isWatch : Bool) : Prop :=
  (∀ data check, n.direction = .write data check → Machine.passesCheck data check = true) ∧ n.lanes ≠ 0 ∧
    (isWatch = true → n.direction = .read)

/-- The key of an aperture access after the decode of its address (R15). -/
def NearAccess.key (n : NearAccess) (isWatch : Bool) (st : Station) (offset : WordOffset) : Machine.Key :=
  { requester := n.requester,
    kind := if isWatch then .watch else match n.direction with
      | .read => .read
      | .write _ _ => .write,
    station := st, offset := offset, lanes := n.lanes,
    writeData := match n.direction with
      | .read => 0
      | .write data _ => data }

/-- The row of the table that carries a near access: FAR_ACCESS, WATCH_READ or WATCH_APERTURE_WRITE. -/
def NearAccess.command (n : NearAccess) (isWatch : Bool) : Instr :=
  if isWatch then match n.direction with
    | .read => .watchRead n.requester n.address n.lanes
    | .write data check => .watchApertureWrite n.requester n.address n.lanes data check
  else .farAccess n

/-- The word and the write of a row that writes the control window. -/
def Instr.windowWord : Instr → Option (WindowOffset × WindowWrite)
  | .aperturesOpenWrite w => some (Machine.registerAt .globalControl, w)
  | .timeBaseSelectWrite w => some (Machine.registerAt .globalControl, w)
  | .silenceLimitWrite w => some (Machine.registerAt .silenceLimit, w)
  | .stationModeWrite st w => some (Machine.registerAt (.stationMode st), w)
  | .clearLateCount w => some (Machine.registerAt .farLinkClear, w)
  | .clearMisaddressedCount w => some (Machine.registerAt .farLinkClear, w)
  | .clearTurnedAwayCount q w => some (Machine.registerAt (.counterClear q), w)
  | .clearUnclaimedCount q w => some (Machine.registerAt (.counterClear q), w)
  | .faultClear q w => some (Machine.registerAt (.faultOffset q), w)
  | .watchSetupWrite q field w => some (Machine.registerAt (Machine.setupRegister q field), w)
  | .noticeClear word w => some (Machine.registerAt (Machine.flagsRegister word), w)
  | .noticeEnableWrite word w => some (Machine.registerAt (Machine.enablesRegister word), w)
  | .overlapClear w => some (Machine.registerAt .commandStatus, w)
  | .registerWrite o w => some (o, w)
  | _ => none

/-- The code and operand of a row that writes the command register. -/
def Instr.commandBytes : Instr → Option (Byte × Byte)
  | .view operand => some (1, operand)
  | .withdraw operand => some (2, operand)
  | .withdrawRequester operand => some (3, operand)
  | .clear operand => some (4, operand)
  | .readmit operand => some (5, operand)
  | .farReset operand => some (6, operand)
  | .badCommand code operand => some (code, operand)
  | _ => none

/-- The row is a transfer of the near bus. -/
def Instr.nearBus : Instr → Bool
  | .farAccess _ => true
  | .watchRead _ _ _ => true
  | .watchApertureWrite _ _ _ _ _ => true
  | c => c.windowWord.isSome || c.commandBytes.isSome

/-- The write of a control window word that a near access spells by its address. -/
def NearAccess.windowWrite (n : NearAccess) (bsel : BitVec 4) : Option (WindowOffset × WindowWrite) :=
  match n.direction, Machine.decodeAddress bsel n.address with
  | .write data check, .control o =>
    some (o, { requester := n.requester, lanes := n.lanes, data := data, check := check })
  | _, _ => none

/-- The write of a control window word that a command carries, by its row or as the near access it spells. -/
def Instr.windowWriteAt (c : Instr) (bsel : BitVec 4) : Option (WindowOffset × WindowWrite) :=
  match c with
  | .farAccess n => n.windowWrite bsel
  | .watchApertureWrite q address lanes data check =>
    NearAccess.windowWrite { requester := q, address := address, lanes := lanes, direction := .write data check } bsel
  | _ => c.windowWord

/-- The near answer without data: a read is driven 0 with its correct check, a write nothing (R24). -/
def NearAccess.bareAnswer (n : NearAccess) (response : Machine.NearResponse) : Machine.NearAnswer :=
  { response := response, data := if n.direction = .read then some { word := 0, check := false } else none }

/-- The near answer that carries a word to a read, and nothing to a write (R24). -/
def NearAccess.wordAnswer (n : NearAccess) (response : Machine.NearResponse) (word : Word) (check : Bool) :
    Machine.NearAnswer :=
  { response := response, data := if n.direction = .read then some { word := word, check := check } else none }

end Sys2Proof

namespace Sys2Proof.Machine

/-! ### The words the statements use

Each spells out a phrase of the spec over the fields of the state, without the operations of Machine/. -/

/-- Every block but the straps, RST# and the queue holds its reset value (R22, R51, R67, R123, R138, R147, R155, R158,
R161, R182), and the near port drives nothing (R183). -/
abbrev State.HoldsResetValues (s : State) : Prop :=
  (∀ i : Slot, s.record i = .free) ∧ s.order = [] ∧
  s.summary = { live := 0, pending := 0, attempt := 0, backoff := 0, watch := 0, ready := 0 } ∧ s.pointer = 15 ∧
  s.far = { link := .reset, transaction := .empty, tagCounter := 0, replyTimer := 0, resetTimer := 4, late := 0,
            misaddressed := 0, requestClks := 0 } ∧
  (∀ st : Station, s.stationEntry st =
    { mode := .off, cls := .plain, replyTimeout := 8, backoff := 4, pollInterval := 100, silences := 0 }) ∧
  (∀ q : Requester, s.requesterEntry q =
    { quota := 4, live := 0, turnedAway := 0, unclaimed := 0, fault := .clear,
      setup := { mode := .differ, reference := 0, mask := 0xFFFFFFFF, pollLimit := 0 } }) ∧
  s.params = { aperturesOpen := false, timeBaseSelect := 3, holdBudget := 32, silenceLimit := 3,
               collectionLimit := 2000 } ∧
  s.divider = 0 ∧ s.flags = .none ∧ s.enables = .none ∧ s.command = .afterReset ∧ s.answer = .notClaimed

/-- A write of a control window word is taken: RST# is not asserted, the near check passes and the writer has the
right to the word (R180). -/
abbrev State.Takes (s : State) (reg : Register) (w : WindowWrite) : Prop :=
  s.rstAsserted = false ∧ passesCheck w.data w.check = true ∧
    (w.requester = s.own ∨ registerGuest reg = some w.requester)

/-- The command is a taken write of 1 to a requester's fault clear (R154). -/
abbrev State.ClearsFault (s : State) (c : Instr) (q : Requester) : Prop :=
  ∃ o w, c.windowWriteAt s.bsel = some (o, w) ∧ registerOf o = .faultOffset q ∧ s.Takes (.faultOffset q) w ∧
    w.lanes.getLsbD 3 = true ∧ w.data.getLsbD 31 = true

/-- A near access is claimed and lies in an aperture (R27, R28). -/
abbrev State.Claims (s : State) (n : NearAccess) (isWatch : Bool) (st : Station) (offset : WordOffset) : Prop :=
  s.rstAsserted = false ∧ s.params.aperturesOpen = true ∧
  decodeAddress s.bsel n.address = (if isWatch then .watch st offset else .far st offset)

/-- No live record has the key (R16). -/
abbrev State.NoMatch (s : State) (k : Key) : Prop := ∀ i : Slot, (s.record i).live → (s.record i).key ≠ k

/-- The near answer of a write that is taken: ACK, nothing driven on ND (R24). -/
def ackWrite : NearAnswer := { response := .ack, data := none }

/-- The region an aperture access is reported under (R33). -/
def apertureRegion (isWatch : Bool) : FaultRegion := if isWatch then .watch else .far

/-- The owner's write can reach an idle Command Unit (R162). -/
abbrev State.CommandIdle (s : State) : Prop := s.rstAsserted = false ∧ s.command.busy = false

/-- A command that completes at once with a result has been taken: the last command and the last result, CMDDONE,
and the answer ACK (R162, R163). -/
def State.doneAtOnce (s : State) (code operand : Byte) (result : CommandResult) : State :=
  { s with
    command := { s.command with busy := false, lastCode := code, lastOperand := operand, lastResult := result,
                                wait := .nothing }
    flags := { s.flags with cmdDone := true }
    answer := ackWrite }

/-- A command that waits has been taken (R162). -/
def State.nowWaits (s : State) (code operand : Byte) (wait : CommandWait) : State :=
  { s with
    command := { s.command with busy := true, lastCode := code, lastOperand := operand, lastResult := .none,
                                wait := wait }
    answer := ackWrite }

/-- A transaction of the record in a slot is in AWAIT (R65, R66, R68). -/
abbrev State.Awaits (s : State) (i : Slot) : Prop :=
  s.rstAsserted = false ∧ s.far.link = .await ∧ s.far.transaction.slot = i ∧
  s.far.transaction.station = (s.record i).station ∧
  s.far.transaction.isWrite = ((s.record i).kind == .write) ∧ (s.record i).state = .attempt

/-- The link has returned to IDLE with an empty context and a cleared reply timer (R75). -/
def State.linkFreed (s : State) : State :=
  { s with far := { s.far with link := .idle, transaction := .empty, replyTimer := 0, requestClks := 0 } }

/-- An accepted reply has ended the transaction: the link is IDLE, and the station's silence count is 0 when the
station is ACTIVE or SUSPENDED (R75, R129). -/
def State.heardFrom (s : State) (st : Station) : State :=
  let e := s.stationEntry st
  { s.linkFreed with
    stations := if e.mode = .active ∨ e.mode = .suspended then s.stations.set st { e with silences := 0 }
                else s.stations }

/-- The content `r` of a record as it enters READY (R50, R87). -/
def Record.asReady (r : Record) (limit : BitVec 16) (o : RecordOutcome) (d : Word) : Record :=
  { r with state := .ready, timer := limit, withdrawn := false, outcome := some o, resultData := d,
           expiring := false }

/-- The content `r` of a record as it returns to wait in a state with a timer (R95, R115). -/
def Record.asWaiting (r : Record) (st : RecordState) (timer : BitVec 16) : Record :=
  { r with state := st, timer := timer, withdrawn := false, expiring := false }

/-- The record in ATTEMPT in a slot, with content `r`, has become READY (R87, R100). -/
def State.attemptToReady (s : State) (i : Slot) (r : Record) (o : RecordOutcome) (d : Word) : State :=
  { s with
    slots := s.slots.set i (r.asReady s.params.collectionLimit o d)
    summary := { s.summary with attempt := s.summary.attempt - 1, ready := s.summary.ready + 1 }
    flags := { s.flags with ready := s.flags.ready ||| (1#8 <<< r.requester.val) } }

/-- The record in ATTEMPT in a slot, with content `r`, has gone to BACKOFF, or to WATCH for a watch, with the delay of
its station (R95, R115). -/
def State.attemptToWait (s : State) (i : Slot) (r : Record) : State :=
  let e := s.stationEntry r.station
  if r.kind = .watch then
    { s with
      slots := s.slots.set i (r.asWaiting .watch e.pollInterval)
      summary := { s.summary with attempt := s.summary.attempt - 1, watch := s.summary.watch + 1 } }
  else
    { s with
      slots := s.slots.set i (r.asWaiting .backoff (e.backoff.setWidth 16))
      summary := { s.summary with attempt := s.summary.attempt - 1, backoff := s.summary.backoff + 1 } }

/-- The station is in service: ACTIVE or SUSPENDED (R96). -/
abbrev State.InService (s : State) (st : Station) : Prop :=
  (s.stationEntry st).mode = .active ∨ (s.stationEntry st).mode = .suspended

/-- The record in ATTEMPT in a slot, with content `r`, has a provisional result: it waits again, or is READY NOSTATION
when its station is closed (R97). -/
def State.attemptProvisional (s : State) (i : Slot) (r : Record) : State :=
  if s.InService r.station then s.attemptToWait i r else s.attemptToReady i r .noStation 0

/-- The record waits at the station, so that a closure reaches it (R127). -/
abbrev Record.WaitsAt (r : Record) (st : Station) : Prop :=
  r.station = st ∧ (r.state = .pending ∨ r.state = .backoff ∨ r.state = .watch)

/-- The number of records of a station in a state. -/
def State.stationSlotsIn (s : State) (st : Station) (k : RecordState) : Nat :=
  (List.finRange 24).countP fun i => (s.record i).station == st && (s.record i).state == k

/-- The summary counts after the waiting records of a station have become READY (R19, R127). -/
def State.closedSummary (s : State) (st : Station) : Summary :=
  { s.summary with
    pending := s.summary.pending - s.stationSlotsIn st .pending
    backoff := s.summary.backoff - s.stationSlotsIn st .backoff
    watch := s.summary.watch - s.stationSlotsIn st .watch
    ready := s.summary.ready + s.stationSlotsIn st .pending + s.stationSlotsIn st .backoff +
      s.stationSlotsIn st .watch }

/-- The records for which `P` holds have become READY NOSTATION with their requesters' READY notices set, and no other
record has changed (R97, R127). -/
abbrev State.MadeNoStation (s t : State) (P : Slot → Prop) : Prop :=
  (∀ j, P j → t.record j = (s.record j).asReady s.params.collectionLimit .noStation 0) ∧
  (∀ j, ¬ P j → t.record j = s.record j) ∧
  (∀ q : Requester, t.flags.ready.getLsbD q.val = true ↔
    s.flags.ready.getLsbD q.val = true ∨ ∃ j, P j ∧ (s.record j).requester = q)

/-- The record is older than the one in slot `i` in the entry order (R18). -/
abbrev State.Older (s : State) (j i : Slot) : Prop := s.order.idxOf j < s.order.idxOf i

/-- The record may be handed to the Far Port (R52, R54). -/
abbrev State.MayBeAttempted (s : State) (i : Slot) : Prop :=
  s.far.link = .idle ∧ (s.stationEntry (s.record i).station).mode = .active ∧
  (((s.record i).kind ≠ .watch ∧ (s.record i).state = .pending ∧
      ∀ j, s.Older j i → (s.record j).kind ≠ .watch → (s.record j).requester = (s.record i).requester →
        (s.record j).station = (s.record i).station → (s.record j).state = .ready) ∨
    ((s.record i).kind = .watch ∧ (s.record i).state = .watch ∧ (s.record i).timer = 0))

/-- How late a station comes in the rotation: 0 for the one after the pointer, 15 for the pointer itself (R60). -/
def State.turn (s : State) (st : Station) : Nat := (st.val + 15 - s.pointer.val) % 16

/-- The record is the one a choice takes: its station is first in the rotation, and it is the oldest there
(R60, R61). -/
abbrev State.IsChosen (s : State) (i : Slot) : Prop :=
  s.MayBeAttempted i ∧ ∀ j, s.MayBeAttempted j → j ≠ i →
    s.turn (s.record i).station ≤ s.turn (s.record j).station ∧
      ((s.record j).station = (s.record i).station → s.Older i j)

/-- An earlier tick has made SILENT due (R73). -/
abbrev State.SilentDue (s : State) : Prop := s.far.link = .await ∧ s.far.replyTimer = 0

/-- An earlier tick has made the end of the far reset due (R85). -/
abbrev State.ResetEndDue (s : State) : Prop := s.far.link = .reset ∧ s.far.resetTimer = 0

/-- Nothing that an earlier tick made due is still to be taken (R141, R73, R85). -/
abbrev State.NothingDue (s : State) : Prop :=
  (∀ i : Slot, (s.record i).expiring = false) ∧ ¬ s.SilentDue ∧ ¬ s.ResetEndDue

/-- The event that an earlier tick made due and that the model takes first: SILENT or the end of the far reset, else
the expiry of the lowest slot that has one (assumptions 4 and 6). -/
abbrev State.FirstDue (s : State) (c : Instr) : Prop :=
  (c = .silent ∧ s.SilentDue) ∨ (c = .farResetEnd ∧ s.ResetEndDue) ∨
    (¬ s.SilentDue ∧ ¬ s.ResetEndDue ∧ ∃ i : Slot, (s.record i).expiring = true ∧
      (∀ j, j < i → (s.record j).expiring = false) ∧
      ((c = .backoffEnd i ∧ (s.record i).state = .backoff) ∨ (c = .watchDue i ∧ (s.record i).state = .watch) ∨
        (c = .discard i ∧ (s.record i).state = .ready)))

/-- The beats of the request in REQUEST, of two CLK periods each, have been driven (R185). -/
abbrev State.BeatsDriven (s : State) : Prop :=
  s.far.link = .request ∧ (if s.far.transaction.isWrite then 4 else 2) ≤ s.far.requestClks

/-- The records a withdraw of many reaches: the live records of one requester, or all live records (R173, R174). -/
abbrev State.Reached (s : State) (q : Option Requester) (i : Slot) : Prop :=
  (s.record i).live ∧ ∀ p, q = some p → (s.record i).requester = p

/-- How many records a withdraw of many frees for which `P` holds: those reached that are not in ATTEMPT. -/
def State.freedBy (s : State) (q : Option Requester) (P : Record → Bool) : Nat :=
  (List.finRange 24).countP fun i =>
    decide (s.Reached q i) && (s.record i).state != .attempt && P (s.record i)

end Sys2Proof.Machine
end

