-- ==== Sys2Proof/Certificates/Slice0/Obligations.lean ====
section
/-! DEFINITION. The statements for the provers, group by group: the step and reset, the near port, the control
window, the Command Unit, the far link, time, and the laws that every step keeps. OBLIGATIONS.json gives each its title
and its source. -/

section Statements

open Sys2Proof Sys2Proof.Machine

/-! ### The step, and chip reset -/

/-- A step with a command at the front of the queue is that command run on the queue's rest. -/
def Obligations.StepRunsFrontCommand : Prop :=
  ∀ (c : Instr) (rest : List Instr) (s : State),
    step { s with pending := c :: rest } = exec c { s with pending := rest }

/-- A step with no command waiting. It takes the part's own event that is due: one that an earlier tick made due, else
the last beat of a request, else a choice. With none due one CLK period passes: the divider counts it, or a tick is
produced when the count reaches 2^(4+2n). While RST# is asserted nothing happens. That a step with an empty queue is
one own event, in this order, or one CLK period is the model's choice (assumption 6), as is the count of the CLK
periods of a request (assumption 17). -/
def Obligations.IdleStepIsOwnEventOrClkPeriod : Prop :=
  ∀ s : State, s.pending = [] →
    let exact := s.FieldsExact ∧ s.OrderExact
    let far := if s.far.link = .request then { s.far with requestClks := s.far.requestClks + 1 } else s.far
    (s.rstAsserted = true → step s = .next s) ∧
    (s.rstAsserted = false →
      (∀ c, s.FirstDue c → step s = exec c s) ∧
      (s.NothingDue → s.BeatsDriven → step s = exec .lastBeatDriven s) ∧
      (s.NothingDue → exact → (∃ i, s.MayBeAttempted i) → step s = exec .choice s) ∧
      (s.NothingDue → exact → ¬ s.BeatsDriven → (∀ i, ¬ s.MayBeAttempted i) → s.ownEvent = none) ∧
      (s.ownEvent = none → s.divider + 1 < 2 ^ (4 + 2 * s.params.timeBaseSelect.toNat) →
        step s = .next { s with far := far, divider := s.divider + 1 }) ∧
      (s.ownEvent = none → 2 ^ (4 + 2 * s.params.timeBaseSelect.toNat) ≤ s.divider + 1 →
        step s = exec .tick { s with far := far }))

/-- The state right after reset satisfies every law of `State.Safe`. -/
def Obligations.ResetStateIsSafe : Prop := State.reset.Safe

/-- CHIP_RESET puts every block at its reset values from any state, and keeps the queue. The far reset timer at 4 while
RST# is asserted is deduced, and that the strap values keep what was last sampled then is the model's choice
(assumption 2). -/
def Obligations.ChipResetClearsEverything : Prop :=
  ∀ s : State, ∃ t, exec .chipReset s = .next t ∧ t.HoldsResetValues ∧ t.rstAsserted = true ∧ t.bsel = s.bsel ∧
    t.own = s.own ∧ t.pending = s.pending

/-- RESET_RELEASE samples the straps and leaves every block at its reset values; without RST# asserted it changes
nothing. -/
def Obligations.ResetReleaseSamplesTheStraps : Prop :=
  ∀ (s : State) (bsel : BitVec 4) (own : Requester),
    (s.rstAsserted = true → ∃ t, exec (.resetRelease bsel own) s = .next t ∧ t.HoldsResetValues ∧
      t.rstAsserted = false ∧ t.bsel = bsel ∧ t.own = own ∧ t.pending = s.pending) ∧
    (s.rstAsserted = false → exec (.resetRelease bsel own) s = .next s)

/-- While RST# is asserted no command but the two of reset changes the state, and no near access is claimed. -/
def Obligations.NothingHappensInReset : Prop :=
  ∀ (c : Instr) (s : State), s.rstAsserted = true → c ≠ .chipReset → (∀ bsel own, c ≠ .resetRelease bsel own) →
    exec c s = .next (if c.nearBus then { s with answer := .notClaimed } else s)

/-! ### The near port -/

/-- The claim block: where it lies, its regions, and the station and offset that an aperture address gives. -/
def Obligations.ClaimBlockDecodes : Prop :=
  ∀ (bsel : BitVec 4) (a : NearAddr),
    let base := 0xC0000000 + bsel.toNat * 0x4000000
    let address := a.toNat * 4
    let offset := address - base
    (address < base ∨ base + 0x4000000 ≤ address → decodeAddress bsel a = .notClaimed) ∧
    (base ≤ address → address < base + 0x4000000 →
      (offset < 0x1000000 → ∃ st o, decodeAddress bsel a = .far st o ∧ st.val = offset / 0x100000 % 16 ∧
        o.toNat * 4 = offset % 0x100000) ∧
      (0x1000000 ≤ offset → offset < 0x2000000 → ∃ st o, decodeAddress bsel a = .watch st o ∧
        st.val = offset / 0x100000 % 16 ∧ o.toNat * 4 = offset % 0x100000) ∧
      (0x2000000 ≤ offset → offset < 0x2001000 → ∃ o, decodeAddress bsel a = .control o ∧
        o.toNat * 4 = offset - 0x2000000) ∧
      (0x2001000 ≤ offset → decodeAddress bsel a = .notClaimed))

/-- An access outside the claimed regions, or in a closed aperture, is answered by nothing and changes nothing. -/
def Obligations.UnclaimedAccessHasNoEffect : Prop :=
  ∀ (s : State) (n : NearAccess) (isWatch : Bool), s.rstAsserted = false →
    (decodeAddress s.bsel n.address = .notClaimed ∨ (s.params.aperturesOpen = false ∧ ∃ st o,
      decodeAddress s.bsel n.address = .far st o ∨ decodeAddress s.bsel n.address = .watch st o)) →
    exec (n.command isWatch) s = .next { s with answer := .notClaimed }

/-- A report fills a fault record that is not valid, and only counts in one that is; it sets FAULT(r) and changes
nothing else. -/
def Obligations.ReportKeepsTheFirstFault : Prop :=
  ∀ (s : State) (q : Requester) (reason : FaultReason) (region : FaultRegion) (st : Station) (o : WordOffset),
    let e := s.requesterEntry q
    s.report q reason region st o =
      { s with
        requesters := s.requesters.set q
          { e with
            fault := if e.fault.valid then
                { e.fault with further := if e.fault.further = 255 then 255 else e.fault.further + 1 }
              else { valid := true, reason := some reason, region := some region, station := st, offset := o,
                     further := 0 } }
        flags := { s.flags with fault := s.flags.fault ||| (1#8 <<< q.val) } }

/-- A claimed aperture write that fails the near check, and an aperture access with empty lanes, are refused and
reported, and have no other effect. -/
def Obligations.FailedCheckAndEmptyLanesAreRefused : Prop :=
  ∀ (s : State) (n : NearAccess) (isWatch : Bool) (st : Station) (o : WordOffset), s.Claims n isWatch st o →
    (∀ data check, n.direction = .write data check → passesCheck data check = false →
      exec (n.command isWatch) s =
        .next { s.report n.requester .nearCheck (apertureRegion isWatch) st o with answer := n.bareAnswer .fault }) ∧
    ((∀ data check, n.direction = .write data check → passesCheck data check = true) → n.lanes = 0 →
      exec (n.command isWatch) s =
        .next { s.report n.requester .noLanes (apertureRegion isWatch) st o with answer := n.bareAnswer .fault })

/-- A claimed write to the watch aperture that passes the near check and has a lane is answered FAULT BADWATCH. -/
def Obligations.WatchApertureWriteIsRefused : Prop :=
  ∀ (s : State) (q : Requester) (a : NearAddr) (lanes : Lanes) (data : Word) (check : Bool) (st : Station)
    (o : WordOffset), s.rstAsserted = false → s.params.aperturesOpen = true →
    decodeAddress s.bsel a = .watch st o → passesCheck data check = true → lanes ≠ 0 →
    exec (.watchApertureWrite q a lanes data check) s =
      .next { s.report q .badWatch .watch st o with answer := { response := .fault, data := none } }

/-- A repeat that matches a record in PENDING, ATTEMPT, BACKOFF or WATCH is answered RETRY and changes nothing. -/
def Obligations.RepeatMeetsUnfinishedRecord : Prop :=
  ∀ (s : State) (n : NearAccess) (isWatch : Bool) (st : Station) (o : WordOffset) (i : Slot),
    s.Claims n isWatch st o → n.PassesRefusals isWatch → s.KeysUnique → (s.record i).live →
    (s.record i).state ≠ .ready → (s.record i).key = n.key isWatch st o →
    exec (n.command isWatch) s = .next { s with answer := n.bareAnswer .retry }

/-- Freeing a live record clears its slot, takes it out of the entry order, and lowers the live count, the count of
its state and its requester's live count by 1. -/
def Obligations.FreeingRemovesTheRecord : Prop :=
  ∀ (s : State) (i : Slot), (s.record i).live →
    let r := s.record i
    let e := s.requesterEntry r.requester
    s.freeRecord i =
      { s with
        slots := s.slots.set i .free
        order := s.order.erase i
        summary :=
          { live := s.summary.live - 1
            pending := s.summary.pending - if r.state = .pending then 1 else 0
            attempt := s.summary.attempt - if r.state = .attempt then 1 else 0
            backoff := s.summary.backoff - if r.state = .backoff then 1 else 0
            watch := s.summary.watch - if r.state = .watch then 1 else 0
            ready := s.summary.ready - if r.state = .ready then 1 else 0 }
        requesters := s.requesters.set r.requester { e with live := e.live - 1 } }

/-- A repeat that matches a READY record is answered by its outcome, reported where the answer is FAULT or carries
TAINTED data, and frees the record. -/
def Obligations.ReadyRecordIsCollected : Prop :=
  ∀ (s : State) (n : NearAccess) (isWatch : Bool) (st : Station) (o : WordOffset) (i : Slot),
    s.Claims n isWatch st o → n.PassesRefusals isWatch → s.KeysUnique → (s.record i).state = .ready →
    (s.record i).key = n.key isWatch st o →
    let d := (s.record i).resultData
    let freed := s.freeRecord i
    let reported := fun reason => freed.report n.requester reason (apertureRegion isWatch) st o
    ((s.record i).outcome = some .ok → ∃ check, passesCheck d check = true ∧
      exec (n.command isWatch) s = .next { freed with answer := n.wordAnswer .ack d check }) ∧
    ((s.record i).outcome = some .tainted → ∃ check, passesCheck d check = false ∧
      exec (n.command isWatch) s = .next { reported .tainted with answer := n.wordAnswer .ack d check }) ∧
    ((s.record i).outcome = some .rejected →
      exec (n.command isWatch) s = .next { reported .rejected with answer := n.bareAnswer .fault }) ∧
    ((s.record i).outcome = some .noStation →
      exec (n.command isWatch) s = .next { reported .noStation with answer := n.bareAnswer .fault }) ∧
    ((s.record i).outcome = some .exhausted →
      exec (n.command isWatch) s = .next { reported .exhausted with answer := n.bareAnswer .fault }) ∧
    ((s.record i).outcome = some .expired → ∃ check, passesCheck d check = true ∧
      exec (n.command isWatch) s = .next { reported .expired with answer := n.wordAnswer .fault d check })

/-- A new request is refused for a quota of 0, then for a closed station, then for a watch of a SIDE station; each
refusal is reported and nothing is entered. -/
def Obligations.AdmissionRefusesInOrder : Prop :=
  ∀ (s : State) (n : NearAccess) (isWatch : Bool) (st : Station) (o : WordOffset), s.Claims n isWatch st o →
    n.PassesRefusals isWatch → s.NoMatch (n.key isWatch st o) →
    let refused := fun reason => Host.Outcome.next
      { s.report n.requester reason (apertureRegion isWatch) st o with answer := n.bareAnswer .fault }
    ((s.requesterEntry n.requester).quota = 0 → exec (n.command isWatch) s = refused .barred) ∧
    ((s.requesterEntry n.requester).quota ≠ 0 → ¬ s.InService st →
      exec (n.command isWatch) s = refused .noStation) ∧
    ((s.requesterEntry n.requester).quota ≠ 0 → s.InService st → isWatch = true → (s.stationEntry st).cls = .side →
      exec (n.command isWatch) s = refused .badWatch)

/-- A new request of a requester at its quota, or made while every slot is live, is answered RETRY without entry, and
the turned-away count rises by 1, held at 255. -/
def Obligations.NewRequestIsTurnedAway : Prop :=
  ∀ (s : State) (n : NearAccess) (isWatch : Bool) (st : Station) (o : WordOffset), s.Claims n isWatch st o →
    n.PassesRefusals isWatch → s.NoMatch (n.key isWatch st o) → s.InService st →
    ¬ (isWatch = true ∧ (s.stationEntry st).cls = .side) →
    let e := s.requesterEntry n.requester
    e.quota ≠ 0 → (e.quota.toNat ≤ e.live ∨ ∀ i : Slot, (s.record i).live) →
    exec (n.command isWatch) s =
      .next { s with
        requesters := s.requesters.set n.requester
          { e with turnedAway := if e.turnedAway = 255 then 255 else e.turnedAway + 1 }
        answer := n.bareAnswer .retry }

/-- A new far access that passes admission is entered PENDING in the lowest FREE slot and answered RETRY. -/
def Obligations.FarAccessIsEntered : Prop :=
  ∀ (s : State) (n : NearAccess) (st : Station) (o : WordOffset) (i : Slot), s.Claims n false st o →
    n.PassesRefusals false → s.NoMatch (n.key false st o) → s.InService st →
    let e := s.requesterEntry n.requester
    e.quota ≠ 0 → e.live < e.quota.toNat → (s.record i).state = .free → (∀ j, j < i → (s.record j).live) →
    exec (.farAccess n) s =
      .next { s with
        slots := s.slots.set i
          { Record.free with
            state := .pending, requester := n.requester, kind := (n.key false st o).kind, station := st, offset := o,
            lanes := n.lanes, writeData := (n.key false st o).writeData }
        order := s.order ++ [i]
        summary := { s.summary with live := s.summary.live + 1, pending := s.summary.pending + 1 }
        requesters := s.requesters.set n.requester { e with live := e.live + 1 }
        answer := n.bareAnswer .retry }

/-- A new watch read that passes admission is entered due in the lowest FREE slot, with the requester's watch setup,
and answered RETRY. -/
def Obligations.WatchReadIsEntered : Prop :=
  ∀ (s : State) (q : Requester) (a : NearAddr) (lanes : Lanes) (st : Station) (o : WordOffset) (i : Slot),
    let n : NearAccess := { requester := q, address := a, lanes := lanes, direction := .read }
    s.Claims n true st o → lanes ≠ 0 → s.NoMatch (n.key true st o) → s.InService st →
    (s.stationEntry st).cls = .plain →
    let e := s.requesterEntry q
    e.quota ≠ 0 → e.live < e.quota.toNat → (s.record i).state = .free → (∀ j, j < i → (s.record j).live) →
    exec (.watchRead q a lanes) s =
      .next { s with
        slots := s.slots.set i
          { Record.free with
            state := .watch, requester := q, kind := .watch, station := st, offset := o, lanes := lanes,
            watchMode := e.setup.mode, mask := e.setup.mask, pollLimit := e.setup.pollLimit,
            reference := if e.setup.mode = .differ then e.setup.reference else 0,
            captured := decide (e.setup.mode = .differ) }
        order := s.order ++ [i]
        summary := { s.summary with live := s.summary.live + 1, watch := s.summary.watch + 1 }
        requesters := s.requesters.set q { e with live := e.live + 1 }
        answer := { response := .retry, data := some { word := 0, check := false } } }

/-- The quota law: whatever the command, a slot that becomes live holds a record of a requester whose live records
numbered fewer than its quota. -/
def Obligations.NoEntryAtOrAboveQuota : Prop :=
  ∀ (c : Instr) (s t : State) (i : Slot), s.LiveExact → exec c s = .next t → (s.record i).state = .free →
    (t.record i).live →
    s.liveSlotsOf (t.record i).requester < (s.requesterEntry (t.record i).requester).quota.toNat

/-- Outside chip reset a valid fault record stays as it is, or its further count rises by 1, held at 255, unless the
command is a taken write of 1 to the fault clear of its requester, which clears it whole; and no command but a near
transfer changes a fault record. -/
def Obligations.ValidFaultKeepsItsDetail : Prop :=
  ∀ (c : Instr) (s t : State) (q : Requester), c ≠ .chipReset → (∀ bsel own, c ≠ .resetRelease bsel own) →
    exec c s = .next t →
    let f := (s.requesterEntry q).fault
    let f' := (t.requesterEntry q).fault
    (f.valid = true → f' = f ∨ f' = { f with further := if f.further = 255 then 255 else f.further + 1 } ∨
      (s.ClearsFault c q ∧ f' = .clear)) ∧
    (c.nearBus = false ∨ c.commandBytes.isSome = true → f' = f)

/-! ### The control window -/

/-- The register map: each word stands at its offset, and no offset names two. -/
def Obligations.RegisterMapIsExact : Prop :=
  (∀ reg : Register, reg ≠ .absent →
    registerOf (registerAt reg) = reg ∧ (registerAt reg).toNat * 4 = registerOffset reg) ∧
  (∀ o : WindowOffset, registerOf o ≠ .absent → registerAt (registerOf o) = o)

/-- What a read of each word returns, as a number: every field at its bits, every other bit 0, with the codes of the
coded fields. The clear words and the offsets without a register read 0. -/
def Obligations.ReadWordsFollowTheLayout : Prop :=
  ∀ (s : State) (st : Station) (q : Requester),
    let e := s.stationEntry st
    let r := s.requesterEntry q
    let c := s.command
    let v := s.command.view
    [RecordState.free, .pending, .attempt, .backoff, .watch, .ready].map recordStateCode = [0, 1, 2, 3, 4, 5] ∧
    [Kind.read, .write, .watch].map kindCode = [0, 1, 2] ∧ [WatchMode.differ, .change].map watchModeCode = [0, 1] ∧
    [none, some RecordOutcome.ok, some .tainted, some .rejected, some .noStation, some .exhausted,
      some .expired].map outcomeCode = [0, 1, 2, 3, 4, 5, 6] ∧
    [StationMode.off, .active, .suspended, .unreachable].map stationModeCode = [0, 1, 2, 3] ∧
    [StationClass.plain, .side].map stationClassCode = [0, 1] ∧
    [LinkState.idle, .request, .await, .reset].map linkStateCode = [0, 1, 2, 3] ∧
    [CommandResult.none, .ok, .noRecord, .badOperand, .badCommand, .notUnreachable].map commandResultCode =
      [0, 1, 2, 3, 4, 5] ∧
    [none, some FaultReason.noStation, some .rejected, some .exhausted, some .expired, some .badWatch, some .barred,
      some .nearCheck, some .notOwner, some .noLanes, some .tainted].map faultReasonCode =
      [0, 1, 2, 3, 4, 5, 6, 7, 8, 9, 10] ∧
    [none, some FaultRegion.far, some .watch, some .control].map faultRegionCode = [0, 1, 2, 3] ∧
    (s.readRegister .globalControl).toNat = s.params.aperturesOpen.toNat + s.params.timeBaseSelect.toNat * 2 ^ 8 ∧
    (s.readRegister .holdBudget).toNat = s.params.holdBudget.toNat ∧
    (s.readRegister .silenceLimit).toNat = s.params.silenceLimit.toNat ∧
    (s.readRegister .collectionLimit).toNat = s.params.collectionLimit.toNat ∧
    (s.summary.live < 32 → s.summary.pending < 32 → s.summary.attempt < 2 → s.summary.backoff < 32 →
      s.summary.watch < 32 → s.summary.ready < 32 →
      (s.readRegister .tableSummary).toNat = s.summary.live + s.summary.pending * 2 ^ 5 + s.summary.attempt * 2 ^ 10 +
        s.summary.backoff * 2 ^ 11 + s.summary.watch * 2 ^ 16 + s.summary.ready * 2 ^ 21) ∧
    (s.readRegister .farLinkStatus).toNat =
      s.far.late.toNat + s.far.misaddressed.toNat * 2 ^ 8 + linkStateCode s.far.link * 2 ^ 24 ∧
    s.readRegister .farLinkClear = 0 ∧
    (s.readRegister .command).toNat = c.lastCode.toNat + c.lastOperand.toNat * 2 ^ 8 ∧
    (s.readRegister .commandStatus).toNat = c.busy.toNat + c.overlap.toNat * 2 +
      commandResultCode c.lastResult * 2 ^ 8 + c.lastCode.toNat * 2 ^ 16 + c.lastOperand.toNat * 2 ^ 24 ∧
    (v.rank < 32 → (s.readRegister (.view 0)).toNat = v.slot.val + recordStateCode v.content.state * 2 ^ 8 +
      v.rank * 2 ^ 16 + v.content.withdrawn.toNat * 2 ^ 24) ∧
    (s.readRegister (.view 1)).toNat = v.content.requester.val + kindCode v.content.kind * 2 ^ 4 +
      watchModeCode v.content.watchMode * 2 ^ 6 + v.content.captured.toNat * 2 ^ 7 + v.content.station.val * 2 ^ 8 +
      v.content.lanes.toNat * 2 ^ 12 + outcomeCode v.content.outcome * 2 ^ 16 ∧
    (s.readRegister (.view 2)).toNat = v.content.offset.toNat * 4 ∧
    s.readRegister (.view 3) = v.content.writeData ∧ s.readRegister (.view 4) = v.content.reference ∧
    s.readRegister (.view 5) = v.content.mask ∧
    (s.readRegister (.view 6)).toNat = v.content.pollLimit.toNat + v.content.pollCount.toNat * 2 ^ 16 ∧
    (s.readRegister (.view 7)).toNat = v.content.timer.toNat + v.content.holdCount.toNat * 2 ^ 16 ∧
    s.readRegister (.view 8) = v.content.resultData ∧
    (s.readRegister (.stationMode st)).toNat = stationModeCode e.mode + stationClassCode e.cls * 2 ^ 8 ∧
    (s.readRegister (.stationTiming st)).toNat = e.replyTimeout.toNat + e.backoff.toNat * 2 ^ 8 ∧
    (s.readRegister (.stationPoll st)).toNat = e.pollInterval.toNat ∧
    (s.readRegister (.stationSilences st)).toNat = e.silences.toNat ∧
    (r.live < 256 → (s.readRegister (.requesterCounts q)).toNat = r.live + r.turnedAway.toNat * 2 ^ 8 +
      r.unclaimed.toNat * 2 ^ 16 + r.quota.toNat * 2 ^ 24) ∧
    s.readRegister (.counterClear q) = 0 ∧
    (s.readRegister (.faultStatus q)).toNat = faultReasonCode r.fault.reason + faultRegionCode r.fault.region * 2 ^ 4 +
      r.fault.station.val * 2 ^ 8 + r.fault.further.toNat * 2 ^ 16 + r.fault.valid.toNat * 2 ^ 31 ∧
    (s.readRegister (.faultOffset q)).toNat = r.fault.offset.toNat * 4 ∧
    (s.readRegister (.setupMode q)).toNat = watchModeCode r.setup.mode ∧
    s.readRegister (.setupReference q) = r.setup.reference ∧ s.readRegister (.setupMask q) = r.setup.mask ∧
    (s.readRegister (.setupPollLimit q)).toNat = r.setup.pollLimit.toNat ∧
    s.readRegister .flagsA = s.flags.toWord .a ∧ s.readRegister .flagsB = s.flags.toWord .b ∧
    s.readRegister .enablesA = s.enables.toWord .a ∧ s.readRegister .enablesB = s.enables.toWord .b ∧
    s.readRegister .absent = 0

/-- A claimed read of the control window is answered ACK with the word and a correct check, from any requester and
with any lanes, and changes nothing. No row carries such a read; that FAR_ACCESS at a control address does is the
model's choice (assumptions 9 and 10). -/
def Obligations.WindowReadChangesNothing : Prop :=
  ∀ (s : State) (n : NearAccess) (o : WindowOffset), s.rstAsserted = false →
    decodeAddress s.bsel n.address = .control o → n.direction = .read →
    ∃ check, passesCheck (s.readRegister (registerOf o)) check = true ∧
      exec (.farAccess n) s =
        .next { s with answer := { response := .ack,
                                   data := some { word := s.readRegister (registerOf o), check := check } } }

/-- A control window write that fails the near check, or whose writer has no right to the word, is refused and
reported under the window's offset, and has no other effect. -/
def Obligations.WindowWriteNeedsTheRight : Prop :=
  ∀ (c : Instr) (s : State) (o : WindowOffset) (w : WindowWrite), c.windowWord = some (o, w) →
    s.rstAsserted = false →
    let refused := fun reason => Host.Outcome.next
      { s.report w.requester reason .control 0 (o.setWidth 18) with answer := { response := .fault, data := none } }
    (passesCheck w.data w.check = false → exec c s = refused .nearCheck) ∧
    (passesCheck w.data w.check = true → w.requester ≠ s.own →
      ¬ (0x20C + 0x20 * w.requester.val ≤ o.toNat * 4 ∧ o.toNat * 4 ≤ 0x21C + 0x20 * w.requester.val) →
      exec c s = refused .notOwner)

/-- A taken write of global control stores apertures-open from lane 0 and the time base select from lane 1; a changed
select sets the divider to 0. -/
def Obligations.GlobalControlWrite : Prop :=
  ∀ (s : State) (w : WindowWrite), s.Takes .globalControl w →
    let select := if w.lanes.getLsbD 1 then w.data.extractLsb' 8 3 else s.params.timeBaseSelect
    ∀ c ∈ [Instr.aperturesOpenWrite w, Instr.timeBaseSelectWrite w],
      exec c s =
        .next { s with
          params := { s.params with
            aperturesOpen := if w.lanes.getLsbD 0 then w.data.getLsbD 0 else s.params.aperturesOpen
            timeBaseSelect := select }
          divider := if select = s.params.timeBaseSelect then s.divider else 0
          answer := ackWrite }

/-- A taken write of the silence limit stores it and clears the silence count of every station that is not
UNREACHABLE; the value 0, or a write without lane 0, changes nothing. -/
def Obligations.SilenceLimitWrite : Prop :=
  ∀ (s : State) (w : WindowWrite), s.Takes .silenceLimit w →
    let limit := w.data.extractLsb' 0 4
    (w.lanes.getLsbD 0 = true → limit ≠ 0 → ∃ t, exec (.silenceLimitWrite w) s = .next t ∧
      t = { s with params := { s.params with silenceLimit := limit }, stations := t.stations, answer := ackWrite } ∧
      ∀ st, t.stationEntry st = if (s.stationEntry st).mode = .unreachable then s.stationEntry st
        else { s.stationEntry st with silences := 0 }) ∧
    (w.lanes.getLsbD 0 = false ∨ limit = 0 → exec (.silenceLimitWrite w) s = .next { s with answer := ackWrite })

/-- A taken write of a station's mode and class word that closes nothing, by STATION_MODE_WRITE or by REGISTER_WRITE of
the word, which carries the write of the class alone: the modes it leaves as they stand, the moves into and between
ACTIVE and SUSPENDED, and OFF written to an UNREACHABLE station. -/
def Obligations.ModeWriteWithoutClosure : Prop :=
  ∀ (s : State) (st : Station) (w : WindowWrite), s.Takes (.stationMode st) w →
    let e := s.stationEntry st
    let cls := if w.lanes.getLsbD 1 then (if w.data.getLsbD 8 then .side else .plain) else e.cls
    let code := (w.data.extractLsb' 0 2).toNat
    let becomes := fun entry : StationEntry =>
      ∀ c ∈ [Instr.stationModeWrite st w, Instr.registerWrite (registerAt (.stationMode st)) w],
        exec c s = .next { s with stations := s.stations.set st entry, answer := ackWrite }
    (w.lanes.getLsbD 0 = false ∨ code = 3 ∨ code = stationModeCode e.mode ∨ (e.mode = .unreachable ∧ code ≠ 0) →
      becomes { e with cls := cls }) ∧
    (w.lanes.getLsbD 0 = true → code = 1 → e.mode ≠ .unreachable → becomes { e with cls := cls, mode := .active }) ∧
    (w.lanes.getLsbD 0 = true → code = 2 → e.mode ≠ .unreachable →
      becomes { e with cls := cls, mode := .suspended }) ∧
    (w.lanes.getLsbD 0 = true → code = 0 → e.mode = .unreachable →
      becomes { e with cls := cls, mode := .off, silences := 0 })

/-- OFF written to a station in service, by STATION_MODE_WRITE or by REGISTER_WRITE of the word, closes it: its waiting
records become READY NOSTATION, with their requesters' READY notices, the summary counts follow, and its silence count
becomes 0; nothing else changes but the class. -/
def Obligations.WritingOffClosesTheStation : Prop :=
  ∀ (s : State) (st : Station) (w : WindowWrite), s.Takes (.stationMode st) w → w.lanes.getLsbD 0 = true →
    w.data.extractLsb' 0 2 = 0 → s.InService st →
    let e := s.stationEntry st
    let cls := if w.lanes.getLsbD 1 then (if w.data.getLsbD 8 then .side else .plain) else e.cls
    ∃ t, (∀ c ∈ [Instr.stationModeWrite st w, Instr.registerWrite (registerAt (.stationMode st)) w],
        exec c s = .next t) ∧
      t = { s with
        slots := t.slots, summary := s.closedSummary st, flags := { s.flags with ready := t.flags.ready }
        stations := s.stations.set st { e with cls := cls, mode := .off, silences := 0 }, answer := ackWrite } ∧
      s.MadeNoStation t fun j => (s.record j).WaitsAt st

/-- The write-1 positions: the far link counts, a requester's two counts, a fault record and the overlap flag. Each
acts only in a selected byte and only when 1 is written to it. -/
def Obligations.WriteOneClears : Prop :=
  ∀ (s : State) (q : Requester) (w : WindowWrite),
    let ones := fun bit => w.lanes.getLsbD (bit / 8) && w.data.getLsbD bit
    let e := s.requesterEntry q
    (s.Takes .farLinkClear w → ∀ c ∈ [Instr.clearLateCount w, Instr.clearMisaddressedCount w],
      exec c s = .next { s with
        far := { s.far with late := if ones 0 then 0 else s.far.late
                            misaddressed := if ones 1 then 0 else s.far.misaddressed }
        answer := ackWrite }) ∧
    (s.Takes (.counterClear q) w → ∀ c ∈ [Instr.clearTurnedAwayCount q w, Instr.clearUnclaimedCount q w],
      exec c s = .next { s with
        requesters := s.requesters.set q
          { e with turnedAway := if ones 0 then 0 else e.turnedAway
                   unclaimed := if ones 1 then 0 else e.unclaimed }
        answer := ackWrite }) ∧
    (s.Takes (.faultOffset q) w → exec (.faultClear q w) s = .next { s with
        requesters := s.requesters.set q
          { e with fault := if ones 31 then { valid := false, reason := none, region := none, station := 0, offset := 0,
                                              further := 0 } else e.fault }
        answer := ackWrite }) ∧
    (s.Takes .commandStatus w → exec (.overlapClear w) s = .next { s with
        command := { s.command with overlap := if ones 1 then false else s.command.overlap }
        answer := ackWrite })

/-- A taken write of one word of a watch setup replaces the selected bytes of that field and nothing else. -/
def Obligations.WatchSetupWrite : Prop :=
  ∀ (s : State) (q : Requester) (field : SetupField) (w : WindowWrite), s.Takes (setupRegister q field) w →
    let e := s.requesterEntry q
    let bytes := fun {n : Nat} (old new : BitVec n) (k : Nat) =>
      new.extractLsb' (8 * k) 8 = if w.lanes.getLsbD k then w.data.extractLsb' (8 * k) 8 else old.extractLsb' (8 * k) 8
    ∃ setup, exec (.watchSetupWrite q field w) s = .next { s with
        requesters := s.requesters.set q { e with setup := setup }, answer := ackWrite } ∧
      match field with
      | .mode => setup = { e.setup with mode := if w.lanes.getLsbD 0 then
            (if w.data.getLsbD 0 then .change else .differ) else e.setup.mode }
      | .reference => setup = { e.setup with reference := setup.reference } ∧
          ∀ k < 4, bytes e.setup.reference setup.reference k
      | .mask => setup = { e.setup with mask := setup.mask } ∧ ∀ k < 4, bytes e.setup.mask setup.mask k
      | .pollLimit => setup = { e.setup with pollLimit := setup.pollLimit } ∧
          ∀ k < 2, bytes e.setup.pollLimit setup.pollLimit k

/-- The two words of flags and of enables: where each flag stands, that a taken write of 1 clears a flag, and that a
taken write stores an enable; positions of unselected bytes and of the other word keep their values. -/
def Obligations.NoticeWordsAreWritten : Prop :=
  (∀ n : Notices,
    (∀ k, (n.toWord .a).getLsbD k =
      if k < 8 then n.ready.getLsbD k else if k < 16 then n.fault.getLsbD (k - 8)
      else if k < 24 then n.unclaimed.getLsbD (k - 16) else (k == 24 && n.cmdDone) || (k == 25 && n.linkErr)) ∧
    (∀ k, (n.toWord .b).getLsbD k = n.lost.getLsbD k)) ∧
  ∀ (s : State) (word : NoticeWord) (w : WindowWrite),
    (s.Takes (flagsRegister word) w →
      ∃ n, exec (.noticeClear word w) s = .next { s with flags := n, answer := ackWrite } ∧
      (∀ k, (n.toWord word).getLsbD k =
        ((s.flags.toWord word).getLsbD k && !(w.lanes.getLsbD (k / 8) && w.data.getLsbD k))) ∧
      ∀ other, other ≠ word → n.toWord other = s.flags.toWord other) ∧
    (s.Takes (enablesRegister word) w →
      ∃ n, exec (.noticeEnableWrite word w) s = .next { s with enables := n, answer := ackWrite } ∧
      (∀ k < (if word = .a then 26 else 16), (n.toWord word).getLsbD k =
        if w.lanes.getLsbD (k / 8) then w.data.getLsbD k else (s.enables.toWord word).getLsbD k) ∧
      ∀ other, other ≠ word → n.toWord other = s.enables.toWord other)

/-- NOTICE# is asserted exactly when some notice flag is set whose enable is set; while RST# is asserted it is
negated. -/
def Obligations.NoticeIsAnEnabledFlag : Prop :=
  ∀ s : State,
    (s.noticeAsserted = true ↔
      ∃ word k, (s.flags.toWord word).getLsbD k = true ∧ (s.enables.toWord word).getLsbD k = true) ∧
    (s.HeldInReset → s.rstAsserted = true → s.noticeAsserted = false)

/-- REGISTER_WRITE of a parameter, a timing word or a quota: selected bytes are stored, and a value out of the field's
range leaves it as it stands. -/
def Obligations.StoredFieldsKeepTheirRange : Prop :=
  ∀ (s : State) (w : WindowWrite),
    let written := fun reg t => exec (.registerWrite (registerAt reg) w) s = .next { t with answer := ackWrite }
    let byte := fun (lane : Nat) (old : Byte) =>
      if w.lanes.getLsbD lane = true ∧ w.data.extractLsb' (8 * lane) 8 ≠ 0 then w.data.extractLsb' (8 * lane) 8 else old
    let half := fun old : BitVec 16 =>
      let new := (if w.lanes.getLsbD 1 then w.data.extractLsb' 8 8 else old.extractLsb' 8 8) ++
        (if w.lanes.getLsbD 0 then w.data.extractLsb' 0 8 else old.extractLsb' 0 8)
      if new = 0 then old else new
    (s.Takes .holdBudget w →
      written .holdBudget { s with params := { s.params with holdBudget := byte 0 s.params.holdBudget } }) ∧
    (s.Takes .collectionLimit w → written .collectionLimit
      { s with params := { s.params with collectionLimit := half s.params.collectionLimit } }) ∧
    (∀ st, s.Takes (.stationTiming st) w → written (.stationTiming st)
      { s with
        stations := s.stations.set st
          { s.stationEntry st with replyTimeout := byte 0 (s.stationEntry st).replyTimeout
                                   backoff := byte 1 (s.stationEntry st).backoff } }) ∧
    (∀ st, s.Takes (.stationPoll st) w → written (.stationPoll st)
      { s with
        stations := s.stations.set st
          { s.stationEntry st with pollInterval := half (s.stationEntry st).pollInterval } }) ∧
    (∀ q, s.Takes (.requesterCounts q) w → written (.requesterCounts q)
      { s with
        requesters := s.requesters.set q
          { s.requesterEntry q with
            quota := if w.lanes.getLsbD 3 = true ∧ (w.data.extractLsb' 24 8).toNat ≤ 24 then w.data.extractLsb' 24 8
                     else (s.requesterEntry q).quota } })

/-- REGISTER_WRITE of a read-only or absent word changes nothing but the answer; of the command register it is the
command written when lanes 0 and 1 are selected, and nothing otherwise. That BAD_COMMAND with a code that names a
command is that command is the model's choice (assumption 10). -/
def Obligations.OtherWordsKeepTheirValues : Prop :=
  ∀ (s : State) (o : WindowOffset) (w : WindowWrite), s.Takes (registerOf o) w →
    ((registerOf o = .absent ∨ registerOf o = .tableSummary ∨ registerOf o = .farLinkStatus ∨
        (∃ n, registerOf o = .view n) ∨ (∃ st, registerOf o = .stationSilences st) ∨
        ∃ q, registerOf o = .faultStatus q) →
      exec (.registerWrite o w) s = .next { s with answer := ackWrite }) ∧
    (registerOf o = .command → w.lanes.getLsbD 0 = false ∨ w.lanes.getLsbD 1 = false →
      exec (.registerWrite o w) s = .next { s with answer := ackWrite }) ∧
    (∀ c, registerOf o = .command → w.lanes.getLsbD 0 = true → w.lanes.getLsbD 1 = true →
      c.commandBytes = some (w.data.extractLsb' 0 8, w.data.extractLsb' 8 8) →
      exec (.registerWrite o w) s = exec c s)

/-! ### The Command Unit -/

/-- In BUSY a write of the command register is answered ACK and ignored, and the overlap flag is set. -/
def Obligations.BusyCommandUnitIgnores : Prop :=
  ∀ (s : State) (c : Instr), c.commandBytes.isSome = true → s.rstAsserted = false → s.command.busy = true →
    exec c s = .next { s with command := { s.command with overlap := true }, answer := ackWrite }

/-- A code that names no command completes with BAD_COMMAND, an operand out of range with BAD_OPERAND; nothing but the
Command Unit's own state, CMDDONE and the answer changes. -/
def Obligations.CommandChecksComeFirst : Prop :=
  ∀ (s : State) (code operand : Byte), s.CommandIdle →
    (code = 0 ∨ 6 < code.toNat →
      exec (.badCommand code operand) s = .next (s.doneAtOnce code operand .badCommand)) ∧
    (24 ≤ operand.toNat → exec (.view operand) s = .next (s.doneAtOnce 1 operand .badOperand)) ∧
    (24 ≤ operand.toNat → exec (.withdraw operand) s = .next (s.doneAtOnce 2 operand .badOperand)) ∧
    (8 ≤ operand.toNat → exec (.withdrawRequester operand) s = .next (s.doneAtOnce 3 operand .badOperand)) ∧
    (16 ≤ operand.toNat → exec (.readmit operand) s = .next (s.doneAtOnce 5 operand .badOperand))

/-- VIEW copies the slot, its rank and its record into the view registers and completes with OK. -/
def Obligations.ViewTakesASnapshot : Prop :=
  ∀ (s : State) (operand : Byte) (i : Slot), s.CommandIdle → operand.toNat = i.val →
    let done := s.doneAtOnce 1 operand .ok
    exec (.view operand) s =
      .next { done with
        command := { done.command with
          view := { slot := i, rank := if (s.record i).state = .free then 0 else s.order.idxOf i,
                    content := { s.record i with expiring := false } } } }

/-- WITHDRAW of a slot: NO_RECORD when it is FREE, the record freed with OK when it waits or is READY, and marked when
it is in ATTEMPT, with the command waiting for the slot. -/
def Obligations.WithdrawActsOnTheSlot : Prop :=
  ∀ (s : State) (operand : Byte) (i : Slot), s.CommandIdle → operand.toNat = i.val →
    ((s.record i).state = .free → exec (.withdraw operand) s = .next (s.doneAtOnce 2 operand .noRecord)) ∧
    ((s.record i).live → (s.record i).state ≠ .attempt →
      exec (.withdraw operand) s = .next ((s.freeRecord i).doneAtOnce 2 operand .ok)) ∧
    ((s.record i).state = .attempt →
      exec (.withdraw operand) s =
        .next (State.nowWaits { s with slots := s.slots.set i { s.record i with withdrawn := true } }
          2 operand (.slot i)))

/-- WITHDRAW_REQUESTER and CLEAR withdraw every live record they reach in the event of the command: each is freed, or
marked in ATTEMPT, in which case the command waits for that slot. CLEAR keeps its operand in the last command
(deduced, assumption 12). -/
def Obligations.WithdrawingManyRecords : Prop :=
  ∀ (s : State) (c : Instr) (code operand : Byte) (q : Option Requester),
    (c = .clear operand ∧ code = 4 ∧ q = none) ∨
      (c = .withdrawRequester operand ∧ code = 3 ∧ ∃ p : Requester, operand.toNat = p.val ∧ q = some p) →
    s.CommandIdle → s.order.Nodup →
    (∀ i j, (s.record i).state = .attempt → (s.record j).state = .attempt → i = j) →
    ∃ u : State, u = { s with slots := u.slots, order := u.order, summary := u.summary, requesters := u.requesters } ∧
      (∀ i, u.record i = if s.Reached q i then
        (if (s.record i).state = .attempt then { s.record i with withdrawn := true } else .free) else s.record i) ∧
      u.order = s.order.filter (fun i => decide (¬ (s.Reached q i ∧ (s.record i).state ≠ .attempt))) ∧
      u.summary =
        { live := s.summary.live - s.freedBy q fun _ => true
          pending := s.summary.pending - s.freedBy q fun r => r.state == .pending
          attempt := s.summary.attempt
          backoff := s.summary.backoff - s.freedBy q fun r => r.state == .backoff
          watch := s.summary.watch - s.freedBy q fun r => r.state == .watch
          ready := s.summary.ready - s.freedBy q fun r => r.state == .ready } ∧
      (∀ p, u.requesterEntry p =
        { s.requesterEntry p with live := (s.requesterEntry p).live - s.freedBy q fun r => r.requester == p }) ∧
      ((∀ i, ¬ (s.Reached q i ∧ (s.record i).state = .attempt)) → exec c s = .next (u.doneAtOnce code operand .ok)) ∧
      ∀ i, s.Reached q i → (s.record i).state = .attempt → exec c s = .next (u.nowWaits code operand (.slot i))

/-- READMIT returns an UNREACHABLE station to ACTIVE with silence count 0, and completes with NOT_UNREACHABLE on a
station in any other mode. -/
def Obligations.ReadmitReturnsALostStation : Prop :=
  ∀ (s : State) (operand : Byte) (st : Station), s.CommandIdle → operand.toNat = st.val →
    ((s.stationEntry st).mode = .unreachable → exec (.readmit operand) s =
      .next (State.doneAtOnce
        { s with stations := s.stations.set st { s.stationEntry st with mode := .active, silences := 0 } }
        5 operand .ok)) ∧
    ((s.stationEntry st).mode ≠ .unreachable →
      exec (.readmit operand) s = .next (s.doneAtOnce 5 operand .notUnreachable))

/-- FAR_RESET puts the link in RESET with the timer at 4, empties the context, clears the silence counts of the
stations that are not UNREACHABLE and waits; a transaction in flight is abandoned, and its record waits again or is
READY NOSTATION at a closed station. The operand is kept in the last command (deduced, assumption 12); the cleared
count of CLK periods is the model's own (assumption 17). -/
def Obligations.FarResetBegins : Prop :=
  ∀ (s : State) (operand : Byte), s.CommandIdle →
    let begins := fun u : State => ∃ t, exec (.farReset operand) s = .next t ∧
      t = { u.nowWaits 6 operand .farReset with
        far := { s.far with link := .reset, transaction := .empty, replyTimer := 0, resetTimer := 4, requestClks := 0 }
        stations := t.stations } ∧
      ∀ st, t.stationEntry st = if (s.stationEntry st).mode = .unreachable then s.stationEntry st
        else { s.stationEntry st with silences := 0 }
    (s.far.link = .idle ∨ s.far.link = .reset → begins s) ∧
    (∀ i, s.far.link = .request ∨ s.far.link = .await → s.far.transaction.slot = i →
      (s.record i).state = .attempt → begins (s.attemptProvisional i (s.record i)))

/-! ### The far link -/

/-- A choice takes the oldest eligible record of the first station in rotation that has one, and hands it over: the
record enters ATTEMPT, the pointer becomes its station, the context is written with the tag counter, the counter
advances, and the reply timer is loaded. With no eligible record nothing changes. The cleared count of CLK periods is
the model's own (assumption 17). -/
def Obligations.ChoiceHandsOverByRotationAndAge : Prop :=
  ∀ s : State, s.rstAsserted = false → s.FieldsExact → s.OrderExact →
    (∀ i, s.IsChosen i →
      let r := s.record i
      exec .choice s =
        .next { s with
          slots := s.slots.set i { r with state := .attempt, timer := 0, withdrawn := false, expiring := false }
          summary := { s.summary with
            attempt := s.summary.attempt + 1
            pending := s.summary.pending - if r.state = .pending then 1 else 0
            watch := s.summary.watch - if r.state = .watch then 1 else 0 }
          pointer := r.station
          far := { s.far with
            link := .request
            transaction := { slot := i, station := r.station, tag := s.far.tagCounter, isWrite := r.kind == .write,
                             offset := r.offset, lanes := r.lanes, writeData := r.writeData }
            tagCounter := s.far.tagCounter + 1
            replyTimer := (s.stationEntry r.station).replyTimeout
            requestClks := 0 } }) ∧
    ((∃ i, s.MayBeAttempted i) → ∃ i, s.IsChosen i) ∧
    ((∀ i, ¬ s.MayBeAttempted i) → exec .choice s = .next s)

/-- The beats of a far request are the address beat with the offset on FAD[19:2], then for a write the data beat, each
with the context's fields and a correct check. In REQUEST the far port asserts FREQ# and drives the address beat, and
for a write the data beat from the third CLK period on; in every other state it drives none. FRST# is asserted exactly
in RESET, and so while RST# is asserted. When the last beat has been driven the link passes from REQUEST to AWAIT and
nothing else changes. The signals are computed from the state, with no beat for FREQ# negated (the model's choice,
assumption 14). The count of CLK periods that says which beat is driven, and that the passage to AWAIT clears, is the
model's own (assumption 17), as is that the event changes nothing outside REQUEST (assumption 5). -/
def Obligations.RequestIsDrivenThenAwaited : Prop :=
  (∀ x : Transaction,
    (∀ b ∈ x.beats, b.station = x.station ∧ b.tag = x.tag ∧ b.isWrite = x.isWrite ∧ b.lanes = x.lanes ∧
      passesCheck b.fad b.fchk = true) ∧
    (x.beats.map fun b => b.fad.toNat) =
      if x.isWrite then [x.offset.toNat * 4, x.writeData.toNat] else [x.offset.toNat * 4]) ∧
  ∀ s : State,
    let x := s.far.transaction
    let drives := fun fad : Word => ∃ check, passesCheck fad check = true ∧
      s.farBeat = some { station := x.station, tag := x.tag, isWrite := x.isWrite, lanes := x.lanes, fad := fad,
                         fchk := check }
    (s.far.link = .request → x.isWrite = false ∨ s.far.requestClks < 2 →
      drives (BitVec.ofNat 32 (x.offset.toNat * 4))) ∧
    (s.far.link = .request → x.isWrite = true → 2 ≤ s.far.requestClks → drives x.writeData) ∧
    (s.far.link ≠ .request → s.farBeat = none) ∧
    (s.frstAsserted = true ↔ s.far.link = .reset) ∧
    (s.HeldInReset → s.rstAsserted = true → s.frstAsserted = true ∧ s.farBeat = none) ∧
    (s.rstAsserted = false → s.far.link = .request →
      exec .lastBeatDriven s = .next { s with far := { s.far with link := .await, requestClks := 0 } }) ∧
    (s.rstAsserted = false → s.far.link ≠ .request → exec .lastBeatDriven s = .next s)

/-- A reply without the station and tag in flight in AWAIT changes no record and no transaction: it is counted as
misaddressed or late, held at 255, and sets LINKERR. -/
def Obligations.UnacceptedReplyOnlyCounts : Prop :=
  ∀ (s : State) (st : Station) (tag : Tag) (kind : BitVec 2) (data : Word) (check : Bool), s.rstAsserted = false →
    let f := s.far
    let inFlight := f.link = .request ∨ f.link = .await
    (inFlight → f.transaction.station ≠ st →
      exec (.farReply st tag kind data check) s =
        .next { s with far := { f with misaddressed := if f.misaddressed = 255 then 255 else f.misaddressed + 1 }
                       flags := { s.flags with linkErr := true } }) ∧
    (¬ inFlight ∨ (f.transaction.station = st ∧ (f.link = .request ∨ f.transaction.tag ≠ tag)) →
      exec (.farReply st tag kind data check) s =
        .next { s with far := { f with late := if f.late = 255 then 255 else f.late + 1 }
                       flags := { s.flags with linkErr := true } })

/-- An accepted DONE or REJECT ends the attempt of an unmarked READ or WRITE record with a final result: OK with the
word, TAINTED with the word, OK for a write, or REJECTED. -/
def Obligations.ReadOrWriteReplyIsFinal : Prop :=
  ∀ (s : State) (i : Slot) (data : Word) (check : Bool), s.Awaits i → (s.record i).withdrawn = false →
    (s.record i).kind ≠ .watch →
    let r := s.record i
    let reply := fun kind : BitVec 2 => exec (.farReply r.station s.far.transaction.tag kind data check) s
    let ready := fun o d => Host.Outcome.next ((s.heardFrom r.station).attemptToReady i r o d)
    (r.kind = .read → passesCheck data check = true → reply 0 = ready .ok data) ∧
    (r.kind = .read → passesCheck data check = false → reply 0 = ready .tainted data) ∧
    (r.kind = .write → reply 0 = ready .ok 0) ∧
    reply 2 = ready .rejected 0 ∧ reply 3 = ready .rejected 0

/-- An accepted HOLD adds 1 to the hold count of an unmarked READ or WRITE record: at or above the hold budget the
record is READY EXHAUSTED, below it the record backs off, or is READY NOSTATION at a closed station. -/
def Obligations.HoldIsCountedAgainstTheBudget : Prop :=
  ∀ (s : State) (i : Slot) (data : Word) (check : Bool), s.Awaits i → (s.record i).withdrawn = false →
    (s.record i).kind ≠ .watch →
    let r := s.record i
    let held := { r with holdCount := if r.holdCount = 255 then 255 else r.holdCount + 1 }
    let reply := exec (.farReply r.station s.far.transaction.tag 1 data check) s
    (s.params.holdBudget ≤ held.holdCount →
      reply = .next ((s.heardFrom r.station).attemptToReady i held .exhausted 0)) ∧
    (held.holdCount < s.params.holdBudget → reply = .next ((s.heardFrom r.station).attemptProvisional i held))

/-- An accepted reply to a poll of an unmarked watch: clean data is captured, counted, tested under the mask and held
against the poll limit, in that order; tainted data and REJECT are final; HOLD returns the record to WATCH. -/
def Obligations.PollReplyIsCompared : Prop :=
  ∀ (s : State) (i : Slot) (data : Word) (check : Bool), s.Awaits i → (s.record i).withdrawn = false →
    (s.record i).kind = .watch →
    let r := s.record i
    let heard := s.heardFrom r.station
    let reply := fun kind : BitVec 2 => exec (.farReply r.station s.far.transaction.tag kind data check) s
    let polled := { r with reference := if r.captured then r.reference else data, captured := true
                           pollCount := if r.pollCount = 65535 then 65535 else r.pollCount + 1 }
    let found := r.captured = true ∧ ∃ k, r.mask.getLsbD k = true ∧ data.getLsbD k ≠ r.reference.getLsbD k
    let reached := r.pollLimit ≠ 0 ∧ polled.pollCount = r.pollLimit
    (passesCheck data check = true → found → reply 0 = .next (heard.attemptToReady i polled .ok data)) ∧
    (passesCheck data check = true → ¬ found → reached →
      reply 0 = .next (heard.attemptToReady i polled .expired data)) ∧
    (passesCheck data check = true → ¬ found → ¬ reached →
      reply 0 = .next (heard.attemptProvisional i polled)) ∧
    (passesCheck data check = false → reply 0 = .next (heard.attemptToReady i r .tainted data)) ∧
    reply 1 = .next (heard.attemptProvisional i r) ∧
    reply 2 = .next (heard.attemptToReady i r .rejected 0) ∧ reply 3 = .next (heard.attemptToReady i r .rejected 0)

/-- SILENT at a station in service below its limit counts the silence, and the record waits again; at an OFF station it
counts nothing, and the record is READY NOSTATION. Where it is not due it changes nothing (the model's choice,
assumption 5). -/
def Obligations.SilenceIsCounted : Prop :=
  ∀ (s : State) (i : Slot), s.Awaits i → (s.record i).withdrawn = false →
    let r := s.record i
    let e := s.stationEntry r.station
    (s.far.replyTimer = 0 → s.InService r.station → e.silences.toNat + 1 < s.params.silenceLimit.toNat →
      exec .silent s =
        .next (State.attemptToWait
          { s.linkFreed with stations := s.stations.set r.station { e with silences := e.silences + 1 } } i r)) ∧
    (s.far.replyTimer = 0 → e.mode = .off → exec .silent s = .next (s.linkFreed.attemptToReady i r .noStation 0)) ∧
    (s.far.replyTimer ≠ 0 → exec .silent s = .next s)

/-- The SILENT that brings a station in service to its silence limit makes it UNREACHABLE, sets LOST(s), and makes the
record in flight and every waiting record of the station READY NOSTATION; the summary counts follow. -/
def Obligations.SilenceLimitLosesTheStation : Prop :=
  ∀ (s : State) (i : Slot), s.Awaits i → (s.record i).withdrawn = false → s.far.replyTimer = 0 →
    let st := (s.record i).station
    let e := s.stationEntry st
    s.InService st → s.params.silenceLimit.toNat ≤ e.silences.toNat + 1 →
    ∃ t, exec .silent s = .next t ∧
      t = { s.linkFreed with
        slots := t.slots
        summary := { s.closedSummary st with
          attempt := s.summary.attempt - 1, ready := (s.closedSummary st).ready + 1 }
        flags := { s.flags with ready := t.flags.ready, lost := s.flags.lost ||| (1#16 <<< st.val) }
        stations := s.stations.set st
          { e with mode := .unreachable, silences := if e.silences = 15 then 15 else e.silences + 1 } } ∧
      s.MadeNoStation t fun j => j = i ∨ (s.record j).WaitsAt st

/-- A marked record is freed at the end of its transaction, whatever the reply, with no READY notice, and the command
that waits for its slot completes with OK. The same holds when the transaction ends SILENT, and the silence is counted
as any other: below the limit the count rises, at the limit the station becomes UNREACHABLE, LOST(s) is set and the
waiting records of the station become READY NOSTATION, and at an OFF station nothing is counted. -/
def Obligations.MarkedRecordIsFreed : Prop :=
  ∀ (s : State) (i : Slot), s.Awaits i → (s.record i).withdrawn = true → s.command.wait = .slot i →
    let r := s.record i
    let e := s.stationEntry r.station
    let command := { s.command with busy := false, lastResult := .ok, wait := .nothing }
    let freed := s.linkFreed.freeRecord i
    (∀ kind data check, exec (.farReply r.station s.far.transaction.tag kind data check) s =
      .next { (s.heardFrom r.station).freeRecord i with
        command := command, flags := { s.flags with cmdDone := true } }) ∧
    (s.far.replyTimer = 0 → s.InService r.station → e.silences.toNat + 1 < s.params.silenceLimit.toNat →
      exec .silent s = .next { freed with
        stations := s.stations.set r.station { e with silences := e.silences + 1 }
        command := command, flags := { s.flags with cmdDone := true } }) ∧
    (s.far.replyTimer = 0 → s.InService r.station → s.params.silenceLimit.toNat ≤ e.silences.toNat + 1 →
      ∃ t, exec .silent s = .next t ∧
        t = { freed with
          slots := t.slots
          summary := { s.closedSummary r.station with live := s.summary.live - 1, attempt := s.summary.attempt - 1 }
          stations := s.stations.set r.station
            { e with mode := .unreachable, silences := if e.silences = 15 then 15 else e.silences + 1 }
          command := command
          flags := { s.flags with
            ready := t.flags.ready, lost := s.flags.lost ||| (1#16 <<< r.station.val), cmdDone := true } } ∧
        freed.MadeNoStation t fun j => (s.record j).WaitsAt r.station) ∧
    (s.far.replyTimer = 0 → e.mode = .off →
      exec .silent s = .next { freed with command := command, flags := { s.flags with cmdDone := true } })

/-- At the end of a far reset the link enters IDLE, and a FAR_RESET that waits for it completes with OK; no notice but
CMDDONE is set and no record changes. Where the timer has not run out nothing changes (the model's choice,
assumption 5). -/
def Obligations.FarResetEnds : Prop :=
  ∀ s : State, s.rstAsserted = false → s.far.link = .reset →
    (s.far.resetTimer = 0 → s.command.wait = .farReset →
      exec .farResetEnd s =
        .next { s with far := { s.far with link := .idle }
                       command := { s.command with busy := false, lastResult := .ok, wait := .nothing }
                       flags := { s.flags with cmdDone := true } }) ∧
    (s.far.resetTimer = 0 → s.command.wait ≠ .farReset →
      exec .farResetEnd s = .next { s with far := { s.far with link := .idle } }) ∧
    (s.far.resetTimer ≠ 0 → exec .farResetEnd s = .next s)

/-! ### Time -/

/-- A tick that finds an event which an earlier tick made due acts as that event and then the tick (deduced,
assumption 4). One that finds none counts every running record timer down by 1, the reply timer while a transaction is
in flight, and the far reset timer in RESET, and sets the divider to 0. The countdown that would bring a record's timer
to 0 only marks it here: the expiry that takes it is a command of its own (the model's form, assumption 3). That the
command TICK may be taken at any value of the divider, and sets it to 0 there, is the model's choice (assumption 7). -/
def Obligations.TickRunsTheTimers : Prop :=
  ∀ s : State, s.rstAsserted = false →
    (∀ c u, s.FirstDue c → exec c s = .next u → exec .tick s = exec .tick u) ∧
    (s.NothingDue → ∃ t, exec .tick s = .next t ∧ t = { s with slots := t.slots, far := t.far, divider := 0 } ∧
      (∀ i, t.record i =
        if (s.record i).timer ≠ 0 ∧
            ((s.record i).state = .backoff ∨ (s.record i).state = .watch ∨ (s.record i).state = .ready) then
          (if (s.record i).timer = 1 then { s.record i with expiring := true }
           else { s.record i with timer := (s.record i).timer - 1 })
        else s.record i) ∧
      t.far = { s.far with
        replyTimer := if (s.far.link = .request ∨ s.far.link = .await) ∧ s.far.replyTimer ≠ 0
          then s.far.replyTimer - 1 else s.far.replyTimer
        resetTimer := if s.far.link = .reset then s.far.resetTimer - 1 else s.far.resetTimer })

/-- The three expiries: a backoff that ends makes its record PENDING, a watch becomes due, and an uncollected READY
record is freed, counted in its requester's unclaimed count, held at 255, and noticed. Where no expiry of that kind is
due at the slot nothing changes (the model's choice, assumption 5). -/
def Obligations.ExpiriesMoveTheirRecords : Prop :=
  ∀ (s : State) (i : Slot), s.rstAsserted = false →
    let r := s.record i
    let e := s.requesterEntry r.requester
    (r.expiring = true → r.state = .backoff →
      exec (.backoffEnd i) s =
        .next { s with
          slots := s.slots.set i { r with state := .pending, timer := 0, expiring := false }
          summary := { s.summary with backoff := s.summary.backoff - 1, pending := s.summary.pending + 1 } }) ∧
    (r.expiring = true → r.state = .watch →
      exec (.watchDue i) s = .next { s with slots := s.slots.set i { r with timer := 0, expiring := false } }) ∧
    (r.expiring = true → r.state = .ready →
      exec (.discard i) s =
        .next { s.freeRecord i with
          requesters := s.requesters.set r.requester
            { e with live := e.live - 1, unclaimed := if e.unclaimed = 255 then 255 else e.unclaimed + 1 }
          flags := { s.flags with unclaimed := s.flags.unclaimed ||| (1#8 <<< r.requester.val) } }) ∧
    (r.expiring = false ∨ r.state ≠ .backoff → exec (.backoffEnd i) s = .next s) ∧
    (r.expiring = false ∨ r.state ≠ .watch → exec (.watchDue i) s = .next s) ∧
    (r.expiring = false ∨ r.state ≠ .ready → exec (.discard i) s = .next s)

/-! ### The laws that every step keeps

A step takes any command, or on an empty queue an event of the part's own or a CLK period; which one it takes then is
the model's choice (assumption 6), and the laws hold of each. -/

/-- Every step keeps the summary counts equal to the slots in each state, and each requester's live count equal to
the number of its live records. -/
def Obligations.StepKeepsTheCounts : Prop :=
  (∀ s t : State, s.SummaryExact → step s = .next t → t.SummaryExact) ∧
  ∀ s t : State, s.LiveExact → step s = .next t → t.LiveExact

/-- Every step keeps the entry order a list of exactly the live records, without duplicates, and the keys of the live
records different. -/
def Obligations.StepKeepsOrderAndKeys : Prop :=
  (∀ s t : State, s.OrderExact → step s = .next t → t.OrderExact) ∧
  ∀ s t : State, s.KeysUnique → step s = .next t → t.KeysUnique

/-- Every step keeps at most one record in ATTEMPT, and one exactly while a transaction is in flight, whose context
repeats the record; so the ATTEMPT count of the table summary is 1 in REQUEST and AWAIT and 0 in IDLE and RESET. -/
def Obligations.StepKeepsOneAttempt : Prop :=
  (∀ s t : State, s.LinkExact → step s = .next t → t.LinkExact) ∧
  ∀ s : State, s.LinkExact →
    (∀ i j, (s.record i).state = .attempt → (s.record j).state = .attempt → i = j) ∧
    ((∃ i, (s.record i).state = .attempt) ↔ s.far.link = .request ∨ s.far.link = .await) ∧
    (s.SummaryExact → s.summary.attempt = if s.far.link = .request ∨ s.far.link = .await then 1 else 0)

/-- Every step keeps every live record of a closed station READY or in ATTEMPT. -/
def Obligations.StepKeepsClosedStationsQuiet : Prop :=
  ∀ s t : State, s.ClosedQuiet → s.LinkExact → step s = .next t → t.ClosedQuiet

/-- Every step keeps the order of pairs: a READ or WRITE record is in ATTEMPT or BACKOFF only while every older live
READ or WRITE record of its requester and station is READY. -/
def Obligations.StepKeepsPairsOrdered : Prop :=
  ∀ s t : State, s.PairsOrdered → s.OrderExact → s.FieldsExact → step s = .next t → t.PairsOrdered

/-- Every step keeps the parameters in their ranges, each record's fields to those of its kind and state, and the
silence counts below the limit outside UNREACHABLE and at 0 in OFF. -/
def Obligations.StepKeepsFieldsAndRanges : Prop :=
  ∀ s t : State, s.ParamsInRange → step s = .next t →
    t.ParamsInRange ∧ (s.FieldsExact → t.FieldsExact) ∧ (s.SilencesBounded → t.SilencesBounded)

/-- Every step keeps every law of `State.Safe` at once. -/
def Obligations.StepKeepsEveryLaw : Prop := ∀ s t : State, s.Safe → step s = .next t → t.Safe

end Statements
end

