-- ==== Sys2Proof/Laws/State.lean ====
section
/-! SUPPORT. What each one-part update of the state changes and what it leaves: one lemma per field per update, and
what the three entry readers see after it. -/

namespace Sys2Proof.Machine

/-! ### setRecord -/

@[simp] theorem State.setRecord_rstAsserted (s : State) (i : Slot) (r : Record) :
    (s.setRecord i r).rstAsserted = s.rstAsserted := rfl
@[simp] theorem State.setRecord_bsel (s : State) (i : Slot) (r : Record) : (s.setRecord i r).bsel = s.bsel := rfl
@[simp] theorem State.setRecord_own (s : State) (i : Slot) (r : Record) : (s.setRecord i r).own = s.own := rfl
@[simp] theorem State.setRecord_answer (s : State) (i : Slot) (r : Record) :
    (s.setRecord i r).answer = s.answer := rfl
@[simp] theorem State.setRecord_slots (s : State) (i : Slot) (r : Record) :
    (s.setRecord i r).slots = s.slots.set i r := rfl
@[simp] theorem State.setRecord_order (s : State) (i : Slot) (r : Record) : (s.setRecord i r).order = s.order := rfl
@[simp] theorem State.setRecord_summary (s : State) (i : Slot) (r : Record) :
    (s.setRecord i r).summary = (s.summary.add r.state).sub (s.record i).state := rfl
@[simp] theorem State.setRecord_pointer (s : State) (i : Slot) (r : Record) :
    (s.setRecord i r).pointer = s.pointer := rfl
@[simp] theorem State.setRecord_far (s : State) (i : Slot) (r : Record) : (s.setRecord i r).far = s.far := rfl
@[simp] theorem State.setRecord_stations (s : State) (i : Slot) (r : Record) :
    (s.setRecord i r).stations = s.stations := rfl
@[simp] theorem State.setRecord_requesters (s : State) (i : Slot) (r : Record) :
    (s.setRecord i r).requesters = s.requesters := rfl
@[simp] theorem State.setRecord_params (s : State) (i : Slot) (r : Record) :
    (s.setRecord i r).params = s.params := rfl
@[simp] theorem State.setRecord_divider (s : State) (i : Slot) (r : Record) :
    (s.setRecord i r).divider = s.divider := rfl
@[simp] theorem State.setRecord_flags (s : State) (i : Slot) (r : Record) : (s.setRecord i r).flags = s.flags := rfl
@[simp] theorem State.setRecord_enables (s : State) (i : Slot) (r : Record) :
    (s.setRecord i r).enables = s.enables := rfl
@[simp] theorem State.setRecord_command (s : State) (i : Slot) (r : Record) :
    (s.setRecord i r).command = s.command := rfl
@[simp] theorem State.setRecord_pending (s : State) (i : Slot) (r : Record) :
    (s.setRecord i r).pending = s.pending := rfl
@[simp] theorem State.setRecord_stationEntry (s : State) (i : Slot) (r : Record) (k : Station) :
    (s.setRecord i r).stationEntry k = s.stationEntry k := rfl
@[simp] theorem State.setRecord_requesterEntry (s : State) (i : Slot) (r : Record) (k : Requester) :
    (s.setRecord i r).requesterEntry k = s.requesterEntry k := rfl

/-! ### setOrder -/

@[simp] theorem State.setOrder_rstAsserted (s : State) (l : List Slot) :
    (s.setOrder l).rstAsserted = s.rstAsserted := rfl
@[simp] theorem State.setOrder_bsel (s : State) (l : List Slot) : (s.setOrder l).bsel = s.bsel := rfl
@[simp] theorem State.setOrder_own (s : State) (l : List Slot) : (s.setOrder l).own = s.own := rfl
@[simp] theorem State.setOrder_answer (s : State) (l : List Slot) : (s.setOrder l).answer = s.answer := rfl
@[simp] theorem State.setOrder_slots (s : State) (l : List Slot) : (s.setOrder l).slots = s.slots := rfl
@[simp] theorem State.setOrder_order (s : State) (l : List Slot) : (s.setOrder l).order = l := rfl
@[simp] theorem State.setOrder_summary (s : State) (l : List Slot) : (s.setOrder l).summary = s.summary := rfl
@[simp] theorem State.setOrder_pointer (s : State) (l : List Slot) : (s.setOrder l).pointer = s.pointer := rfl
@[simp] theorem State.setOrder_far (s : State) (l : List Slot) : (s.setOrder l).far = s.far := rfl
@[simp] theorem State.setOrder_stations (s : State) (l : List Slot) : (s.setOrder l).stations = s.stations := rfl
@[simp] theorem State.setOrder_requesters (s : State) (l : List Slot) :
    (s.setOrder l).requesters = s.requesters := rfl
@[simp] theorem State.setOrder_params (s : State) (l : List Slot) : (s.setOrder l).params = s.params := rfl
@[simp] theorem State.setOrder_divider (s : State) (l : List Slot) : (s.setOrder l).divider = s.divider := rfl
@[simp] theorem State.setOrder_flags (s : State) (l : List Slot) : (s.setOrder l).flags = s.flags := rfl
@[simp] theorem State.setOrder_enables (s : State) (l : List Slot) : (s.setOrder l).enables = s.enables := rfl
@[simp] theorem State.setOrder_command (s : State) (l : List Slot) : (s.setOrder l).command = s.command := rfl
@[simp] theorem State.setOrder_pending (s : State) (l : List Slot) : (s.setOrder l).pending = s.pending := rfl
@[simp] theorem State.setOrder_record (s : State) (l : List Slot) (k : Slot) :
    (s.setOrder l).record k = s.record k := rfl
@[simp] theorem State.setOrder_stationEntry (s : State) (l : List Slot) (k : Station) :
    (s.setOrder l).stationEntry k = s.stationEntry k := rfl
@[simp] theorem State.setOrder_requesterEntry (s : State) (l : List Slot) (k : Requester) :
    (s.setOrder l).requesterEntry k = s.requesterEntry k := rfl

/-! ### setStation -/

@[simp] theorem State.setStation_rstAsserted (s : State) (st : Station) (e : StationEntry) :
    (s.setStation st e).rstAsserted = s.rstAsserted := rfl
@[simp] theorem State.setStation_bsel (s : State) (st : Station) (e : StationEntry) :
    (s.setStation st e).bsel = s.bsel := rfl
@[simp] theorem State.setStation_own (s : State) (st : Station) (e : StationEntry) :
    (s.setStation st e).own = s.own := rfl
@[simp] theorem State.setStation_answer (s : State) (st : Station) (e : StationEntry) :
    (s.setStation st e).answer = s.answer := rfl
@[simp] theorem State.setStation_slots (s : State) (st : Station) (e : StationEntry) :
    (s.setStation st e).slots = s.slots := rfl
@[simp] theorem State.setStation_order (s : State) (st : Station) (e : StationEntry) :
    (s.setStation st e).order = s.order := rfl
@[simp] theorem State.setStation_summary (s : State) (st : Station) (e : StationEntry) :
    (s.setStation st e).summary = s.summary := rfl
@[simp] theorem State.setStation_pointer (s : State) (st : Station) (e : StationEntry) :
    (s.setStation st e).pointer = s.pointer := rfl
@[simp] theorem State.setStation_far (s : State) (st : Station) (e : StationEntry) :
    (s.setStation st e).far = s.far := rfl
@[simp] theorem State.setStation_stations (s : State) (st : Station) (e : StationEntry) :
    (s.setStation st e).stations = s.stations.set st e := rfl
@[simp] theorem State.setStation_requesters (s : State) (st : Station) (e : StationEntry) :
    (s.setStation st e).requesters = s.requesters := rfl
@[simp] theorem State.setStation_params (s : State) (st : Station) (e : StationEntry) :
    (s.setStation st e).params = s.params := rfl
@[simp] theorem State.setStation_divider (s : State) (st : Station) (e : StationEntry) :
    (s.setStation st e).divider = s.divider := rfl
@[simp] theorem State.setStation_flags (s : State) (st : Station) (e : StationEntry) :
    (s.setStation st e).flags = s.flags := rfl
@[simp] theorem State.setStation_enables (s : State) (st : Station) (e : StationEntry) :
    (s.setStation st e).enables = s.enables := rfl
@[simp] theorem State.setStation_command (s : State) (st : Station) (e : StationEntry) :
    (s.setStation st e).command = s.command := rfl
@[simp] theorem State.setStation_pending (s : State) (st : Station) (e : StationEntry) :
    (s.setStation st e).pending = s.pending := rfl
@[simp] theorem State.setStation_record (s : State) (st : Station) (e : StationEntry) (k : Slot) :
    (s.setStation st e).record k = s.record k := rfl
@[simp] theorem State.setStation_requesterEntry (s : State) (st : Station) (e : StationEntry) (k : Requester) :
    (s.setStation st e).requesterEntry k = s.requesterEntry k := rfl

/-! ### setRequester -/

@[simp] theorem State.setRequester_rstAsserted (s : State) (q : Requester) (e : RequesterEntry) :
    (s.setRequester q e).rstAsserted = s.rstAsserted := rfl
@[simp] theorem State.setRequester_bsel (s : State) (q : Requester) (e : RequesterEntry) :
    (s.setRequester q e).bsel = s.bsel := rfl
@[simp] theorem State.setRequester_own (s : State) (q : Requester) (e : RequesterEntry) :
    (s.setRequester q e).own = s.own := rfl
@[simp] theorem State.setRequester_answer (s : State) (q : Requester) (e : RequesterEntry) :
    (s.setRequester q e).answer = s.answer := rfl
@[simp] theorem State.setRequester_slots (s : State) (q : Requester) (e : RequesterEntry) :
    (s.setRequester q e).slots = s.slots := rfl
@[simp] theorem State.setRequester_order (s : State) (q : Requester) (e : RequesterEntry) :
    (s.setRequester q e).order = s.order := rfl
@[simp] theorem State.setRequester_summary (s : State) (q : Requester) (e : RequesterEntry) :
    (s.setRequester q e).summary = s.summary := rfl
@[simp] theorem State.setRequester_pointer (s : State) (q : Requester) (e : RequesterEntry) :
    (s.setRequester q e).pointer = s.pointer := rfl
@[simp] theorem State.setRequester_far (s : State) (q : Requester) (e : RequesterEntry) :
    (s.setRequester q e).far = s.far := rfl
@[simp] theorem State.setRequester_stations (s : State) (q : Requester) (e : RequesterEntry) :
    (s.setRequester q e).stations = s.stations := rfl
@[simp] theorem State.setRequester_requesters (s : State) (q : Requester) (e : RequesterEntry) :
    (s.setRequester q e).requesters = s.requesters.set q e := rfl
@[simp] theorem State.setRequester_params (s : State) (q : Requester) (e : RequesterEntry) :
    (s.setRequester q e).params = s.params := rfl
@[simp] theorem State.setRequester_divider (s : State) (q : Requester) (e : RequesterEntry) :
    (s.setRequester q e).divider = s.divider := rfl
@[simp] theorem State.setRequester_flags (s : State) (q : Requester) (e : RequesterEntry) :
    (s.setRequester q e).flags = s.flags := rfl
@[simp] theorem State.setRequester_enables (s : State) (q : Requester) (e : RequesterEntry) :
    (s.setRequester q e).enables = s.enables := rfl
@[simp] theorem State.setRequester_command (s : State) (q : Requester) (e : RequesterEntry) :
    (s.setRequester q e).command = s.command := rfl
@[simp] theorem State.setRequester_pending (s : State) (q : Requester) (e : RequesterEntry) :
    (s.setRequester q e).pending = s.pending := rfl
@[simp] theorem State.setRequester_record (s : State) (q : Requester) (e : RequesterEntry) (k : Slot) :
    (s.setRequester q e).record k = s.record k := rfl
@[simp] theorem State.setRequester_stationEntry (s : State) (q : Requester) (e : RequesterEntry) (k : Station) :
    (s.setRequester q e).stationEntry k = s.stationEntry k := rfl

/-! ### setFar -/

@[simp] theorem State.setFar_rstAsserted (s : State) (f : FarPort) : (s.setFar f).rstAsserted = s.rstAsserted := rfl
@[simp] theorem State.setFar_bsel (s : State) (f : FarPort) : (s.setFar f).bsel = s.bsel := rfl
@[simp] theorem State.setFar_own (s : State) (f : FarPort) : (s.setFar f).own = s.own := rfl
@[simp] theorem State.setFar_answer (s : State) (f : FarPort) : (s.setFar f).answer = s.answer := rfl
@[simp] theorem State.setFar_slots (s : State) (f : FarPort) : (s.setFar f).slots = s.slots := rfl
@[simp] theorem State.setFar_order (s : State) (f : FarPort) : (s.setFar f).order = s.order := rfl
@[simp] theorem State.setFar_summary (s : State) (f : FarPort) : (s.setFar f).summary = s.summary := rfl
@[simp] theorem State.setFar_pointer (s : State) (f : FarPort) : (s.setFar f).pointer = s.pointer := rfl
@[simp] theorem State.setFar_far (s : State) (f : FarPort) : (s.setFar f).far = f := rfl
@[simp] theorem State.setFar_stations (s : State) (f : FarPort) : (s.setFar f).stations = s.stations := rfl
@[simp] theorem State.setFar_requesters (s : State) (f : FarPort) : (s.setFar f).requesters = s.requesters := rfl
@[simp] theorem State.setFar_params (s : State) (f : FarPort) : (s.setFar f).params = s.params := rfl
@[simp] theorem State.setFar_divider (s : State) (f : FarPort) : (s.setFar f).divider = s.divider := rfl
@[simp] theorem State.setFar_flags (s : State) (f : FarPort) : (s.setFar f).flags = s.flags := rfl
@[simp] theorem State.setFar_enables (s : State) (f : FarPort) : (s.setFar f).enables = s.enables := rfl
@[simp] theorem State.setFar_command (s : State) (f : FarPort) : (s.setFar f).command = s.command := rfl
@[simp] theorem State.setFar_pending (s : State) (f : FarPort) : (s.setFar f).pending = s.pending := rfl
@[simp] theorem State.setFar_record (s : State) (f : FarPort) (k : Slot) : (s.setFar f).record k = s.record k := rfl
@[simp] theorem State.setFar_stationEntry (s : State) (f : FarPort) (k : Station) :
    (s.setFar f).stationEntry k = s.stationEntry k := rfl
@[simp] theorem State.setFar_requesterEntry (s : State) (f : FarPort) (k : Requester) :
    (s.setFar f).requesterEntry k = s.requesterEntry k := rfl

/-! ### setPointer -/

@[simp] theorem State.setPointer_rstAsserted (s : State) (st : Station) :
    (s.setPointer st).rstAsserted = s.rstAsserted := rfl
@[simp] theorem State.setPointer_bsel (s : State) (st : Station) : (s.setPointer st).bsel = s.bsel := rfl
@[simp] theorem State.setPointer_own (s : State) (st : Station) : (s.setPointer st).own = s.own := rfl
@[simp] theorem State.setPointer_answer (s : State) (st : Station) : (s.setPointer st).answer = s.answer := rfl
@[simp] theorem State.setPointer_slots (s : State) (st : Station) : (s.setPointer st).slots = s.slots := rfl
@[simp] theorem State.setPointer_order (s : State) (st : Station) : (s.setPointer st).order = s.order := rfl
@[simp] theorem State.setPointer_summary (s : State) (st : Station) : (s.setPointer st).summary = s.summary := rfl
@[simp] theorem State.setPointer_pointer (s : State) (st : Station) : (s.setPointer st).pointer = st := rfl
@[simp] theorem State.setPointer_far (s : State) (st : Station) : (s.setPointer st).far = s.far := rfl
@[simp] theorem State.setPointer_stations (s : State) (st : Station) : (s.setPointer st).stations = s.stations := rfl
@[simp] theorem State.setPointer_requesters (s : State) (st : Station) :
    (s.setPointer st).requesters = s.requesters := rfl
@[simp] theorem State.setPointer_params (s : State) (st : Station) : (s.setPointer st).params = s.params := rfl
@[simp] theorem State.setPointer_divider (s : State) (st : Station) : (s.setPointer st).divider = s.divider := rfl
@[simp] theorem State.setPointer_flags (s : State) (st : Station) : (s.setPointer st).flags = s.flags := rfl
@[simp] theorem State.setPointer_enables (s : State) (st : Station) : (s.setPointer st).enables = s.enables := rfl
@[simp] theorem State.setPointer_command (s : State) (st : Station) : (s.setPointer st).command = s.command := rfl
@[simp] theorem State.setPointer_pending (s : State) (st : Station) : (s.setPointer st).pending = s.pending := rfl
@[simp] theorem State.setPointer_record (s : State) (st : Station) (k : Slot) :
    (s.setPointer st).record k = s.record k := rfl
@[simp] theorem State.setPointer_stationEntry (s : State) (st : Station) (k : Station) :
    (s.setPointer st).stationEntry k = s.stationEntry k := rfl
@[simp] theorem State.setPointer_requesterEntry (s : State) (st : Station) (k : Requester) :
    (s.setPointer st).requesterEntry k = s.requesterEntry k := rfl

/-! ### setParams -/

@[simp] theorem State.setParams_rstAsserted (s : State) (p : Params) :
    (s.setParams p).rstAsserted = s.rstAsserted := rfl
@[simp] theorem State.setParams_bsel (s : State) (p : Params) : (s.setParams p).bsel = s.bsel := rfl
@[simp] theorem State.setParams_own (s : State) (p : Params) : (s.setParams p).own = s.own := rfl
@[simp] theorem State.setParams_answer (s : State) (p : Params) : (s.setParams p).answer = s.answer := rfl
@[simp] theorem State.setParams_slots (s : State) (p : Params) : (s.setParams p).slots = s.slots := rfl
@[simp] theorem State.setParams_order (s : State) (p : Params) : (s.setParams p).order = s.order := rfl
@[simp] theorem State.setParams_summary (s : State) (p : Params) : (s.setParams p).summary = s.summary := rfl
@[simp] theorem State.setParams_pointer (s : State) (p : Params) : (s.setParams p).pointer = s.pointer := rfl
@[simp] theorem State.setParams_far (s : State) (p : Params) : (s.setParams p).far = s.far := rfl
@[simp] theorem State.setParams_stations (s : State) (p : Params) : (s.setParams p).stations = s.stations := rfl
@[simp] theorem State.setParams_requesters (s : State) (p : Params) : (s.setParams p).requesters = s.requesters := rfl
@[simp] theorem State.setParams_params (s : State) (p : Params) : (s.setParams p).params = p := rfl
@[simp] theorem State.setParams_divider (s : State) (p : Params) : (s.setParams p).divider = s.divider := rfl
@[simp] theorem State.setParams_flags (s : State) (p : Params) : (s.setParams p).flags = s.flags := rfl
@[simp] theorem State.setParams_enables (s : State) (p : Params) : (s.setParams p).enables = s.enables := rfl
@[simp] theorem State.setParams_command (s : State) (p : Params) : (s.setParams p).command = s.command := rfl
@[simp] theorem State.setParams_pending (s : State) (p : Params) : (s.setParams p).pending = s.pending := rfl
@[simp] theorem State.setParams_record (s : State) (p : Params) (k : Slot) :
    (s.setParams p).record k = s.record k := rfl
@[simp] theorem State.setParams_stationEntry (s : State) (p : Params) (k : Station) :
    (s.setParams p).stationEntry k = s.stationEntry k := rfl
@[simp] theorem State.setParams_requesterEntry (s : State) (p : Params) (k : Requester) :
    (s.setParams p).requesterEntry k = s.requesterEntry k := rfl

/-! ### setDivider -/

@[simp] theorem State.setDivider_rstAsserted (s : State) (n : Nat) :
    (s.setDivider n).rstAsserted = s.rstAsserted := rfl
@[simp] theorem State.setDivider_bsel (s : State) (n : Nat) : (s.setDivider n).bsel = s.bsel := rfl
@[simp] theorem State.setDivider_own (s : State) (n : Nat) : (s.setDivider n).own = s.own := rfl
@[simp] theorem State.setDivider_answer (s : State) (n : Nat) : (s.setDivider n).answer = s.answer := rfl
@[simp] theorem State.setDivider_slots (s : State) (n : Nat) : (s.setDivider n).slots = s.slots := rfl
@[simp] theorem State.setDivider_order (s : State) (n : Nat) : (s.setDivider n).order = s.order := rfl
@[simp] theorem State.setDivider_summary (s : State) (n : Nat) : (s.setDivider n).summary = s.summary := rfl
@[simp] theorem State.setDivider_pointer (s : State) (n : Nat) : (s.setDivider n).pointer = s.pointer := rfl
@[simp] theorem State.setDivider_far (s : State) (n : Nat) : (s.setDivider n).far = s.far := rfl
@[simp] theorem State.setDivider_stations (s : State) (n : Nat) : (s.setDivider n).stations = s.stations := rfl
@[simp] theorem State.setDivider_requesters (s : State) (n : Nat) : (s.setDivider n).requesters = s.requesters := rfl
@[simp] theorem State.setDivider_params (s : State) (n : Nat) : (s.setDivider n).params = s.params := rfl
@[simp] theorem State.setDivider_divider (s : State) (n : Nat) : (s.setDivider n).divider = n := rfl
@[simp] theorem State.setDivider_flags (s : State) (n : Nat) : (s.setDivider n).flags = s.flags := rfl
@[simp] theorem State.setDivider_enables (s : State) (n : Nat) : (s.setDivider n).enables = s.enables := rfl
@[simp] theorem State.setDivider_command (s : State) (n : Nat) : (s.setDivider n).command = s.command := rfl
@[simp] theorem State.setDivider_pending (s : State) (n : Nat) : (s.setDivider n).pending = s.pending := rfl
@[simp] theorem State.setDivider_record (s : State) (n : Nat) (k : Slot) :
    (s.setDivider n).record k = s.record k := rfl
@[simp] theorem State.setDivider_stationEntry (s : State) (n : Nat) (k : Station) :
    (s.setDivider n).stationEntry k = s.stationEntry k := rfl
@[simp] theorem State.setDivider_requesterEntry (s : State) (n : Nat) (k : Requester) :
    (s.setDivider n).requesterEntry k = s.requesterEntry k := rfl

/-! ### setFlags -/

@[simp] theorem State.setFlags_rstAsserted (s : State) (n : Notices) :
    (s.setFlags n).rstAsserted = s.rstAsserted := rfl
@[simp] theorem State.setFlags_bsel (s : State) (n : Notices) : (s.setFlags n).bsel = s.bsel := rfl
@[simp] theorem State.setFlags_own (s : State) (n : Notices) : (s.setFlags n).own = s.own := rfl
@[simp] theorem State.setFlags_answer (s : State) (n : Notices) : (s.setFlags n).answer = s.answer := rfl
@[simp] theorem State.setFlags_slots (s : State) (n : Notices) : (s.setFlags n).slots = s.slots := rfl
@[simp] theorem State.setFlags_order (s : State) (n : Notices) : (s.setFlags n).order = s.order := rfl
@[simp] theorem State.setFlags_summary (s : State) (n : Notices) : (s.setFlags n).summary = s.summary := rfl
@[simp] theorem State.setFlags_pointer (s : State) (n : Notices) : (s.setFlags n).pointer = s.pointer := rfl
@[simp] theorem State.setFlags_far (s : State) (n : Notices) : (s.setFlags n).far = s.far := rfl
@[simp] theorem State.setFlags_stations (s : State) (n : Notices) : (s.setFlags n).stations = s.stations := rfl
@[simp] theorem State.setFlags_requesters (s : State) (n : Notices) : (s.setFlags n).requesters = s.requesters := rfl
@[simp] theorem State.setFlags_params (s : State) (n : Notices) : (s.setFlags n).params = s.params := rfl
@[simp] theorem State.setFlags_divider (s : State) (n : Notices) : (s.setFlags n).divider = s.divider := rfl
@[simp] theorem State.setFlags_flags (s : State) (n : Notices) : (s.setFlags n).flags = n := rfl
@[simp] theorem State.setFlags_enables (s : State) (n : Notices) : (s.setFlags n).enables = s.enables := rfl
@[simp] theorem State.setFlags_command (s : State) (n : Notices) : (s.setFlags n).command = s.command := rfl
@[simp] theorem State.setFlags_pending (s : State) (n : Notices) : (s.setFlags n).pending = s.pending := rfl
@[simp] theorem State.setFlags_record (s : State) (n : Notices) (k : Slot) :
    (s.setFlags n).record k = s.record k := rfl
@[simp] theorem State.setFlags_stationEntry (s : State) (n : Notices) (k : Station) :
    (s.setFlags n).stationEntry k = s.stationEntry k := rfl
@[simp] theorem State.setFlags_requesterEntry (s : State) (n : Notices) (k : Requester) :
    (s.setFlags n).requesterEntry k = s.requesterEntry k := rfl

/-! ### setEnables -/

@[simp] theorem State.setEnables_rstAsserted (s : State) (n : Notices) :
    (s.setEnables n).rstAsserted = s.rstAsserted := rfl
@[simp] theorem State.setEnables_bsel (s : State) (n : Notices) : (s.setEnables n).bsel = s.bsel := rfl
@[simp] theorem State.setEnables_own (s : State) (n : Notices) : (s.setEnables n).own = s.own := rfl
@[simp] theorem State.setEnables_answer (s : State) (n : Notices) : (s.setEnables n).answer = s.answer := rfl
@[simp] theorem State.setEnables_slots (s : State) (n : Notices) : (s.setEnables n).slots = s.slots := rfl
@[simp] theorem State.setEnables_order (s : State) (n : Notices) : (s.setEnables n).order = s.order := rfl
@[simp] theorem State.setEnables_summary (s : State) (n : Notices) : (s.setEnables n).summary = s.summary := rfl
@[simp] theorem State.setEnables_pointer (s : State) (n : Notices) : (s.setEnables n).pointer = s.pointer := rfl
@[simp] theorem State.setEnables_far (s : State) (n : Notices) : (s.setEnables n).far = s.far := rfl
@[simp] theorem State.setEnables_stations (s : State) (n : Notices) : (s.setEnables n).stations = s.stations := rfl
@[simp] theorem State.setEnables_requesters (s : State) (n : Notices) :
    (s.setEnables n).requesters = s.requesters := rfl
@[simp] theorem State.setEnables_params (s : State) (n : Notices) : (s.setEnables n).params = s.params := rfl
@[simp] theorem State.setEnables_divider (s : State) (n : Notices) : (s.setEnables n).divider = s.divider := rfl
@[simp] theorem State.setEnables_flags (s : State) (n : Notices) : (s.setEnables n).flags = s.flags := rfl
@[simp] theorem State.setEnables_enables (s : State) (n : Notices) : (s.setEnables n).enables = n := rfl
@[simp] theorem State.setEnables_command (s : State) (n : Notices) : (s.setEnables n).command = s.command := rfl
@[simp] theorem State.setEnables_pending (s : State) (n : Notices) : (s.setEnables n).pending = s.pending := rfl
@[simp] theorem State.setEnables_record (s : State) (n : Notices) (k : Slot) :
    (s.setEnables n).record k = s.record k := rfl
@[simp] theorem State.setEnables_stationEntry (s : State) (n : Notices) (k : Station) :
    (s.setEnables n).stationEntry k = s.stationEntry k := rfl
@[simp] theorem State.setEnables_requesterEntry (s : State) (n : Notices) (k : Requester) :
    (s.setEnables n).requesterEntry k = s.requesterEntry k := rfl

/-! ### setCommand -/

@[simp] theorem State.setCommand_rstAsserted (s : State) (c : CommandUnit) :
    (s.setCommand c).rstAsserted = s.rstAsserted := rfl
@[simp] theorem State.setCommand_bsel (s : State) (c : CommandUnit) : (s.setCommand c).bsel = s.bsel := rfl
@[simp] theorem State.setCommand_own (s : State) (c : CommandUnit) : (s.setCommand c).own = s.own := rfl
@[simp] theorem State.setCommand_answer (s : State) (c : CommandUnit) : (s.setCommand c).answer = s.answer := rfl
@[simp] theorem State.setCommand_slots (s : State) (c : CommandUnit) : (s.setCommand c).slots = s.slots := rfl
@[simp] theorem State.setCommand_order (s : State) (c : CommandUnit) : (s.setCommand c).order = s.order := rfl
@[simp] theorem State.setCommand_summary (s : State) (c : CommandUnit) : (s.setCommand c).summary = s.summary := rfl
@[simp] theorem State.setCommand_pointer (s : State) (c : CommandUnit) : (s.setCommand c).pointer = s.pointer := rfl
@[simp] theorem State.setCommand_far (s : State) (c : CommandUnit) : (s.setCommand c).far = s.far := rfl
@[simp] theorem State.setCommand_stations (s : State) (c : CommandUnit) :
    (s.setCommand c).stations = s.stations := rfl
@[simp] theorem State.setCommand_requesters (s : State) (c : CommandUnit) :
    (s.setCommand c).requesters = s.requesters := rfl
@[simp] theorem State.setCommand_params (s : State) (c : CommandUnit) : (s.setCommand c).params = s.params := rfl
@[simp] theorem State.setCommand_divider (s : State) (c : CommandUnit) : (s.setCommand c).divider = s.divider := rfl
@[simp] theorem State.setCommand_flags (s : State) (c : CommandUnit) : (s.setCommand c).flags = s.flags := rfl
@[simp] theorem State.setCommand_enables (s : State) (c : CommandUnit) : (s.setCommand c).enables = s.enables := rfl
@[simp] theorem State.setCommand_command (s : State) (c : CommandUnit) : (s.setCommand c).command = c := rfl
@[simp] theorem State.setCommand_pending (s : State) (c : CommandUnit) : (s.setCommand c).pending = s.pending := rfl
@[simp] theorem State.setCommand_record (s : State) (c : CommandUnit) (k : Slot) :
    (s.setCommand c).record k = s.record k := rfl
@[simp] theorem State.setCommand_stationEntry (s : State) (c : CommandUnit) (k : Station) :
    (s.setCommand c).stationEntry k = s.stationEntry k := rfl
@[simp] theorem State.setCommand_requesterEntry (s : State) (c : CommandUnit) (k : Requester) :
    (s.setCommand c).requesterEntry k = s.requesterEntry k := rfl

/-! ### setAnswer -/

@[simp] theorem State.setAnswer_rstAsserted (s : State) (a : NearAnswer) :
    (s.setAnswer a).rstAsserted = s.rstAsserted := rfl
@[simp] theorem State.setAnswer_bsel (s : State) (a : NearAnswer) : (s.setAnswer a).bsel = s.bsel := rfl
@[simp] theorem State.setAnswer_own (s : State) (a : NearAnswer) : (s.setAnswer a).own = s.own := rfl
@[simp] theorem State.setAnswer_answer (s : State) (a : NearAnswer) : (s.setAnswer a).answer = a := rfl
@[simp] theorem State.setAnswer_slots (s : State) (a : NearAnswer) : (s.setAnswer a).slots = s.slots := rfl
@[simp] theorem State.setAnswer_order (s : State) (a : NearAnswer) : (s.setAnswer a).order = s.order := rfl
@[simp] theorem State.setAnswer_summary (s : State) (a : NearAnswer) : (s.setAnswer a).summary = s.summary := rfl
@[simp] theorem State.setAnswer_pointer (s : State) (a : NearAnswer) : (s.setAnswer a).pointer = s.pointer := rfl
@[simp] theorem State.setAnswer_far (s : State) (a : NearAnswer) : (s.setAnswer a).far = s.far := rfl
@[simp] theorem State.setAnswer_stations (s : State) (a : NearAnswer) : (s.setAnswer a).stations = s.stations := rfl
@[simp] theorem State.setAnswer_requesters (s : State) (a : NearAnswer) :
    (s.setAnswer a).requesters = s.requesters := rfl
@[simp] theorem State.setAnswer_params (s : State) (a : NearAnswer) : (s.setAnswer a).params = s.params := rfl
@[simp] theorem State.setAnswer_divider (s : State) (a : NearAnswer) : (s.setAnswer a).divider = s.divider := rfl
@[simp] theorem State.setAnswer_flags (s : State) (a : NearAnswer) : (s.setAnswer a).flags = s.flags := rfl
@[simp] theorem State.setAnswer_enables (s : State) (a : NearAnswer) : (s.setAnswer a).enables = s.enables := rfl
@[simp] theorem State.setAnswer_command (s : State) (a : NearAnswer) : (s.setAnswer a).command = s.command := rfl
@[simp] theorem State.setAnswer_pending (s : State) (a : NearAnswer) : (s.setAnswer a).pending = s.pending := rfl
@[simp] theorem State.setAnswer_record (s : State) (a : NearAnswer) (k : Slot) :
    (s.setAnswer a).record k = s.record k := rfl
@[simp] theorem State.setAnswer_stationEntry (s : State) (a : NearAnswer) (k : Station) :
    (s.setAnswer a).stationEntry k = s.stationEntry k := rfl
@[simp] theorem State.setAnswer_requesterEntry (s : State) (a : NearAnswer) (k : Requester) :
    (s.setAnswer a).requesterEntry k = s.requesterEntry k := rfl

/-! ### The entry that an update replaces -/

@[simp] theorem State.setRecord_record (s : State) (i : Slot) (r : Record) (j : Slot) :
    (s.setRecord i r).record j = if j = i then r else s.record j := by
  simp only [State.record, State.setRecord_slots, Fin.getElem_fin, Vector.getElem_set, ← Fin.ext_iff, eq_comm]

@[simp] theorem State.setStation_stationEntry (s : State) (st : Station) (e : StationEntry) (k : Station) :
    (s.setStation st e).stationEntry k = if k = st then e else s.stationEntry k := by
  simp only [State.stationEntry, State.setStation_stations, Fin.getElem_fin, Vector.getElem_set, ← Fin.ext_iff, eq_comm]

@[simp] theorem State.setRequester_requesterEntry (s : State) (q : Requester) (e : RequesterEntry) (k : Requester) :
    (s.setRequester q e).requesterEntry k = if k = q then e else s.requesterEntry k := by
  simp only [State.requesterEntry, State.setRequester_requesters, Fin.getElem_fin, Vector.getElem_set, ← Fin.ext_iff,
    eq_comm]

/-! ### The entries are the whole of their vectors -/

theorem State.slots_ext {s t : State} (h : ∀ i, s.record i = t.record i) : s.slots = t.slots :=
  Vector.ext fun i hi => h ⟨i, hi⟩

theorem State.stations_ext {s t : State} (h : ∀ st, s.stationEntry st = t.stationEntry st) : s.stations = t.stations :=
  Vector.ext fun i hi => h ⟨i, hi⟩

theorem State.requesters_ext {s t : State} (h : ∀ q, s.requesterEntry q = t.requesterEntry q) :
    s.requesters = t.requesters :=
  Vector.ext fun i hi => h ⟨i, hi⟩

end Sys2Proof.Machine
end

