-- ==== Sys2Proof/Laws/Ops.lean ====
section
/-! SUPPORT. What each shared operation can do, said once: its result as one state, or the fields it leaves and what
it does to each entry. -/

namespace Sys2Proof.Machine

/-! ### Searches over the slots -/

/-- A search over all slots answers the lowest one that passes. -/
theorem find_slots_eq_some (p : Slot → Bool) (i : Slot) :
    (List.finRange 24).find? p = some i ↔ p i = true ∧ ∀ j, j < i → p j = false := by
  rw [List.find?_eq_some_iff_getElem]
  constructor
  · rintro ⟨hp, k, hk, hki, hlt⟩
    have hki' : k = i.val := by rw [← hki]; simp
    refine ⟨hp, fun j hj => ?_⟩
    have := hlt j.val (by rw [hki']; exact hj)
    simpa using this
  · rintro ⟨hp, hlt⟩
    refine ⟨hp, i.val, by simp, by simp, fun j hj => ?_⟩
    have := hlt ⟨j, lt_trans hj i.isLt⟩ hj
    simpa using this

theorem find_slots_eq_none (p : Slot → Bool) : (List.finRange 24).find? p = none ↔ ∀ i, p i = false := by
  simp [List.find?_eq_none]

theorem State.freeSlot_eq_some (s : State) (i : Slot) :
    s.freeSlot = some i ↔ (s.record i).state = .free ∧ ∀ j, j < i → (s.record j).state ≠ .free := by
  simp [State.freeSlot, find_slots_eq_some]

theorem State.freeSlot_eq_none (s : State) : s.freeSlot = none ↔ ∀ i, (s.record i).state ≠ .free := by
  simp [State.freeSlot]

theorem State.findMatch_eq_none (s : State) (k : Key) : s.findMatch k = none ↔ s.NoMatch k := by
  simp [State.findMatch, State.NoMatch]

/-- A match is a live record with the key. -/
theorem State.findMatch_spec (s : State) (k : Key) (i : Slot) (h : s.findMatch k = some i) :
    (s.record i).live ∧ (s.record i).key = k := by
  simpa [State.findMatch] using List.find?_some h

/-- With unique keys the matching live record is the one found. -/
theorem State.findMatch_of_unique (s : State) (hu : s.KeysUnique) (i : Slot) (hl : (s.record i).live) :
    s.findMatch (s.record i).key = some i := by
  cases h : s.findMatch (s.record i).key with
  | none => exact absurd rfl ((s.findMatch_eq_none _).1 h i hl)
  | some j =>
    obtain ⟨hj, hk⟩ := s.findMatch_spec _ _ h
    rw [hu j i hj hl hk]

/-! ### Folds over the slots -/

/-- A field that no step of a fold changes is not changed by the fold. -/
theorem foldl_keeps {α : Type} (f : State → Slot → State) (g : State → α) (h : ∀ s i, g (f s i) = g s) (l : List Slot)
    (s : State) : g (l.foldl f s) = g s := by
  induction l generalizing s with
  | nil => rfl
  | cons i l ih => rw [List.foldl_cons, ih, h]

/-- A property that every step of a fold keeps holds after it. -/
theorem foldl_induct (f : State → Slot → State) (P : State → Prop) (h : ∀ s i, P s → P (f s i)) (l : List Slot)
    (s : State) (hs : P s) : P (l.foldl f s) := by
  induction l generalizing s with
  | nil => exact hs
  | cons i l ih => exact ih _ (h s i hs)

/-- A fold whose steps each change the record of their own slot only, by a function `φ` of it and of a part `g` of the
state that the steps keep, changes every listed record by `φ`. -/
theorem foldl_record {α : Type} (f : State → Slot → State) (g : State → α) (φ : α → Record → Record)
    (hg : ∀ s i, g (f s i) = g s)
    (hf : ∀ s i j, (f s i).record j = if j = i then φ (g s) (s.record i) else s.record j) (l : List Slot) (hl : l.Nodup)
    (s : State) (j : Slot) : (l.foldl f s).record j = if j ∈ l then φ (g s) (s.record j) else s.record j := by
  induction l generalizing s with
  | nil => simp
  | cons i l ih =>
    obtain ⟨hi, hl⟩ := List.nodup_cons.1 hl
    rw [List.foldl_cons, ih hl, hg, hf]
    by_cases hji : j = i
    · subst hji; simp [hi]
    · simp [hji]

/-! ### Entry and freeing -/

theorem State.freeRecord_of_free (s : State) (i : Slot) (h : (s.record i).state = .free) : s.freeRecord i = s := by
  simp [State.freeRecord, h]

theorem State.freeRecord_of_live (s : State) (i : Slot) (h : (s.record i).live) :
    s.freeRecord i = ((s.setRecord i .free).setOrder (s.order.erase i)).setRequester (s.record i).requester
      { s.requesterEntry (s.record i).requester with
        live := (s.requesterEntry (s.record i).requester).live - 1 } := by
  simp [State.freeRecord, h, State.setLive]

/-- Freeing changes the slots, the entry order, the summary counts and the requesters only. -/
theorem State.freeRecord_frame (s : State) (i : Slot) :
    s.freeRecord i = { s with
      slots := (s.freeRecord i).slots, order := (s.freeRecord i).order, summary := (s.freeRecord i).summary,
      requesters := (s.freeRecord i).requesters } := by
  by_cases h : (s.record i).state = .free
  · rw [s.freeRecord_of_free i h]
  · rw [s.freeRecord_of_live i h]; rfl

theorem State.freeRecord_record (s : State) (i j : Slot) :
    (s.freeRecord i).record j = if j = i ∧ (s.record i).live then .free else s.record j := by
  by_cases h : (s.record i).state = .free
  · simp [s.freeRecord_of_free i h, h]
  · simp [s.freeRecord_of_live i h, h]

theorem State.freeRecord_requesterEntry (s : State) (i : Slot) (q : Requester) :
    (s.freeRecord i).requesterEntry q =
      if (s.record i).live ∧ q = (s.record i).requester then
        { s.requesterEntry q with live := (s.requesterEntry q).live - 1 } else s.requesterEntry q := by
  by_cases h : (s.record i).state = .free
  · simp [s.freeRecord_of_free i h, h]
  · by_cases hq : q = (s.record i).requester
    · subst hq; simp [s.freeRecord_of_live i h, h]
    · simp [s.freeRecord_of_live i h, h, hq]

theorem State.freeRecord_order (s : State) (i : Slot) (h : (s.record i).live) :
    (s.freeRecord i).order = s.order.erase i := by
  simp [s.freeRecord_of_live i h]

/-- Entry places the record, appends its slot to the entry order and counts it for its requester. -/
theorem State.enterRecord_eq (s : State) (i : Slot) (r : Record) :
    s.enterRecord i r = ((s.setRecord i r).setOrder (s.order ++ [i])).setRequester r.requester
      { s.requesterEntry r.requester with live := (s.requesterEntry r.requester).live + 1 } := rfl

/-! ### Reports, READY and completion -/

theorem State.report_eq (s : State) (q : Requester) (reason : FaultReason) (region : FaultRegion) (st : Station)
    (o : WordOffset) :
    s.report q reason region st o =
      (s.setRequester q
        { s.requesterEntry q with fault := (s.requesterEntry q).fault.take reason region st o }).setFlags
        (s.flags.setFault q) := rfl

theorem State.toReady_eq (s : State) (i : Slot) (o : RecordOutcome) (d : Word) :
    s.toReady i o d = (s.setRecord i ((s.record i).finished s.params.collectionLimit o d)).setFlags
      (s.flags.setReady (s.record i).requester) := rfl

theorem State.complete_eq (s : State) (result : CommandResult) :
    s.complete result = (s.setCommand { s.command with busy := false, lastResult := result, wait := .nothing }).setFlags
      s.flags.setCmdDone := rfl

theorem State.startWait_eq (s : State) (wait : CommandWait) :
    s.startWait wait = s.setCommand { s.command with busy := true, lastResult := .none, wait := wait } := rfl

/-- A flag of a group is set and the others keep their values. -/
theorem getLsbD_setBit {n : Nat} (x : BitVec n) (k j : Nat) (hk : k < n) :
    (setBit x k).getLsbD j = (x.getLsbD j || j == k) := by
  have h0 : 0 < n := by omega
  rw [setBit, BitVec.getLsbD_or, BitVec.getLsbD_shiftLeft, BitVec.getLsbD_one]
  by_cases hjk : j = k
  · subst hjk; simp [hk, h0]
  · by_cases h : j < k
    · simp [h, hjk]
    · simp [h, hjk, show j - k ≠ 0 by omega]

/-! ### Stations -/

/-- Closure changes the slots, the summary counts and the READY flags only. -/
theorem State.closeStation_frame (s : State) (st : Station) :
    s.closeStation st = { s with
      slots := (s.closeStation st).slots, summary := (s.closeStation st).summary
      flags := { s.flags with ready := (s.closeStation st).flags.ready } } := by
  have h : ∀ t i, ({ closeSlot st t i with
      slots := s.slots, summary := s.summary, flags := { (closeSlot st t i).flags with ready := 0 } } : State) =
      { t with slots := s.slots, summary := s.summary, flags := { t.flags with ready := 0 } } := by
    intro t i; unfold closeSlot; split <;> rfl
  have hs : ∀ u : State, ({ u with
      slots := s.slots, summary := s.summary, flags := { u.flags with ready := 0 } } : State) =
      { s with flags := { s.flags with ready := 0 } } → u = { s with
        slots := u.slots, summary := u.summary, flags := { s.flags with ready := u.flags.ready } } := by
    intro u hu
    exact congrArg (fun t => ({ t with
      slots := u.slots, summary := u.summary, flags := { t.flags with ready := u.flags.ready } } : State)) hu
  refine hs (s.closeStation st) ?_
  rw [State.closeStation]
  exact foldl_keeps (closeSlot st)
    (fun t => ({ t with slots := s.slots, summary := s.summary, flags := { t.flags with ready := 0 } } : State)) h
    (List.finRange 24) s

theorem closeSlot_record (st : Station) (s : State) (i j : Slot) :
    (closeSlot st s i).record j =
      if j = i then (if (s.record i).closedWith st then (s.record i).finished s.params.collectionLimit .noStation 0
        else s.record i) else s.record j := by
  unfold closeSlot
  by_cases h : (s.record i).closedWith st
  · simp [h, State.toReady_eq]
  · by_cases hj : j = i <;> simp [h, hj]

/-- Closure makes the station's waiting records READY NOSTATION and leaves the others. -/
theorem State.closeStation_record (s : State) (st : Station) (j : Slot) :
    (s.closeStation st).record j =
      if (s.record j).closedWith st then (s.record j).finished s.params.collectionLimit .noStation 0
      else s.record j := by
  have := foldl_record (closeSlot st) (fun t => t.params.collectionLimit)
    (fun limit r => if r.closedWith st then r.finished limit .noStation 0 else r)
    (fun t i => by unfold closeSlot; split <;> rfl) (fun t i j => closeSlot_record st t i j) (List.finRange 24)
    (List.nodup_finRange 24) s j
  rw [State.closeStation, this]; simp

/-- The silence counts of the stations that are not UNREACHABLE become 0, and nothing else changes. -/
theorem State.clearSilences_stationEntry (s : State) (st : Station) :
    s.clearSilences.stationEntry st =
      if (s.stationEntry st).mode = .unreachable then s.stationEntry st
      else { s.stationEntry st with silences := 0 } := by
  simp only [State.clearSilences, State.stationEntry, Fin.getElem_fin, Vector.getElem_map]
  rfl

theorem StationMode.closed_eq_false (m : StationMode) : m.closed = false ↔ m = .active ∨ m = .suspended := by
  cases m <;> simp [StationMode.closed]

theorem StationMode.closed_eq_true (m : StationMode) : m.closed = true ↔ m = .off ∨ m = .unreachable := by
  cases m <;> simp [StationMode.closed]

end Sys2Proof.Machine
end

