-- ==== Sys2Proof/Laws/Commands.lean ====
section
/-! SUPPORT. What a write of the command register comes to, and what a withdraw does to each record. -/

namespace Sys2Proof.Machine

/-- A row that writes the command register runs the owner's one command operation on its code and operand. -/
theorem exec_of_commandBytes (c : Instr) (code operand : Byte) (s : State)
    (h : c.commandBytes = some (code, operand)) : exec c s = .next (s.ownerCommand code operand) := by
  cases c <;> simp [Instr.commandBytes] at h <;> obtain ⟨rfl, rfl⟩ := h <;> rfl

/-- In IDLE the command is taken. -/
theorem exec_of_commandIdle {c : Instr} {code operand : Byte} {s : State} (h : c.commandBytes = some (code, operand))
    (hi : s.CommandIdle) : exec c s = .next ((s.takeCommand code operand).setAnswer ackWrite) := by
  rw [exec_of_commandBytes c code operand s h]
  simp only [State.ownerCommand, hi.1, State.writeCommand, hi.2]
  rfl

theorem slotOperand_eq (operand : Byte) (i : Slot) (h : operand.toNat = i.val) : slotOperand operand = some i := by
  rw [slotOperand, dif_pos (by omega)]; exact congrArg some (Fin.ext h)

theorem requesterOperand_eq (operand : Byte) (q : Requester) (h : operand.toNat = q.val) :
    requesterOperand operand = some q := by
  rw [requesterOperand, dif_pos (by omega)]; exact congrArg some (Fin.ext h)

theorem stationOperand_eq (operand : Byte) (st : Station) (h : operand.toNat = st.val) :
    stationOperand operand = some st := by
  rw [stationOperand, dif_pos (by omega)]; exact congrArg some (Fin.ext h)

/-- A withdraw marks a record in ATTEMPT, frees any other live record and leaves a FREE slot. -/
theorem State.withdrawRecord_record (s : State) (i j : Slot) :
    (s.withdrawRecord i).record j =
      if j = i then (if (s.record i).state = .attempt then { s.record i with withdrawn := true }
        else if (s.record i).live then .free else s.record i) else s.record j := by
  unfold State.withdrawRecord
  by_cases h : (s.record i).state = .attempt
  · simp [h]
  · rw [if_neg h, State.freeRecord_record]
    by_cases hj : j = i
    · subst hj; simp [h]
    · simp [hj]

theorem withdrawOne_record (q : Option Requester) (s : State) (i j : Slot) :
    (withdrawOne q s i).record j =
      if j = i then (if (s.record i).ofRequester q then
        (if (s.record i).state = .attempt then { s.record i with withdrawn := true }
          else if (s.record i).live then .free else s.record i) else s.record i) else s.record j := by
  unfold withdrawOne
  by_cases h : (s.record i).ofRequester q
  · simp only [h, if_true, State.withdrawRecord_record]
  · by_cases hj : j = i <;> simp [h, hj]

/-- A withdraw of many does to each record of its requesters what the withdraw of one does. -/
theorem withdrawAll_record (q : Option Requester) (s : State) (j : Slot) :
    ((List.finRange 24).foldl (withdrawOne q) s).record j =
      if (s.record j).ofRequester q then
        (if (s.record j).state = .attempt then { s.record j with withdrawn := true }
          else if (s.record j).live then .free else s.record j) else s.record j := by
  have := foldl_record (withdrawOne q) (fun _ => ())
    (fun _ r => if r.ofRequester q then
      (if r.state = .attempt then { r with withdrawn := true } else if r.live then .free else r) else r)
    (fun _ _ => rfl) (fun t i j => withdrawOne_record q t i j) (List.finRange 24) (List.nodup_finRange 24) s j
  rw [this]; simp

end Sys2Proof.Machine
end

