-- ==== Sys2Proof/Laws/ControlWindow.lean ====
section
/-! SUPPORT. What a write of the control window comes to once it is taken, and what the lanes select, bit by bit and
byte by byte. -/

namespace Sys2Proof.Machine

/-- A row that writes the control window runs the window's one write operation on its word. -/
theorem exec_of_windowWord (c : Instr) (s : State) (o : WindowOffset) (w : WindowWrite)
    (h : c.windowWord = some (o, w)) : exec c s = .next (s.takeWindowWrite o w) := by
  cases c <;> simp [Instr.windowWord] at h <;> obtain ⟨rfl, rfl⟩ := h <;> rfl

/-- A taken write stores its word and is answered ACK. -/
theorem State.takeWindowWrite_of_takes {s : State} {o : WindowOffset} {w : WindowWrite}
    (h : s.Takes (registerOf o) w) :
    s.takeWindowWrite o w = { s.writeRegister (registerOf o) w.lanes w.data with answer := ackWrite } := by
  obtain ⟨h1, h2, h3⟩ := h
  have hm : s.mayWrite w.requester (registerOf o) = true := by
    rw [State.mayWrite, Bool.or_eq_true, beq_iff_eq, beq_iff_eq]; exact h3
  simp only [State.takeWindowWrite, h1, State.windowWrite, h2, hm]
  rfl

/-! ### Lanes -/

theorem laneMask_bit (l : Lanes) (k : Nat) : (laneMask l).getLsbD k = l.getLsbD (k / 8) := by
  have byte : ∀ k < 4, ∀ j < 8, ∀ l : Lanes, (laneMask l).getLsbD (8 * k + j) = l.getLsbD k := by decide
  by_cases h : k < 32
  · have := byte (k / 8) (by omega) (k % 8) (by omega) l
    rwa [Nat.div_add_mod] at this
  · rw [BitVec.getLsbD_of_ge _ _ (by omega), BitVec.getLsbD_of_ge _ _ (by omega)]

/-- Each bit of a merged word comes from the write where its lane is selected, and stays otherwise. -/
theorem mergeWord_bit (old data : Word) (l : Lanes) (k : Nat) :
    (mergeWord old data l).getLsbD k = if l.getLsbD (k / 8) then data.getLsbD k else old.getLsbD k := by
  simp only [mergeWord, BitVec.getLsbD_or, BitVec.getLsbD_and, BitVec.getLsbD_not, laneMask_bit]
  by_cases h : k < 32
  · cases l.getLsbD (k / 8) <;> simp [h]
  · have hl : l.getLsbD (k / 8) = false := BitVec.getLsbD_of_ge _ _ (by omega)
    have ho : old.getLsbD k = false := BitVec.getLsbD_of_ge _ _ (by omega)
    simp [hl, ho]

theorem mergeWord_byte (old data : Word) (l : Lanes) (k : Nat) :
    (mergeWord old data l).extractLsb' (8 * k) 8 =
      if l.getLsbD k then data.extractLsb' (8 * k) 8 else old.extractLsb' (8 * k) 8 := by
  apply BitVec.eq_of_getLsbD_eq
  intro i hi
  rw [BitVec.getLsbD_extractLsb', mergeWord_bit, show (8 * k + i) / 8 = k by omega]
  cases l.getLsbD k <;> simp [hi]

end Sys2Proof.Machine
end

