-- ==== Sys2Proof/Laws/FarLink.lean ====
section
/-! SUPPORT. What the end of a transaction, a tick and the far link signals come to, in the words of the statements. -/

namespace Sys2Proof.Machine

theorem FarPort.inFlight_iff (f : FarPort) : f.inFlight = true ↔ f.link = .request ∨ f.link = .await := by
  simp [FarPort.inFlight]

theorem State.freed_link_eq (s : State) : s.setFar (s.far.over .idle) = s.linkFreed := rfl

/-- An accepted reply at the Station Table, after the link has been freed. -/
theorem State.acceptReply_linkFreed (s : State) (st : Station) : s.linkFreed.acceptReply st = s.heardFrom st := by
  simp only [State.acceptReply, State.heardFrom, show s.linkFreed.stationEntry st = s.stationEntry st from rfl]
  cases h : (s.stationEntry st).mode <;> simp only [StationMode.closed, reduceCtorEq, or_false, or_true, if_true,
    if_false, Bool.false_eq_true] <;> rfl

/-- A final result of a record in ATTEMPT (R87). -/
theorem State.finalResult_eq (s : State) (i : Slot) (r : Record) (o : RecordOutcome) (d : Word)
    (hr : r.state = .attempt) (hs : (s.record i).state = .attempt) :
    (s.setRecord i r).toReady i o d = s.attemptToReady i r o d := by
  simp only [State.toReady_eq, State.attemptToReady, State.setRecord_record, if_true, State.setRecord_params,
    State.setRecord_flags, Notices.setReady, setBit]
  simp only [State.setFlags, State.setRecord, State.record, Fin.getElem_fin, Vector.set_set]
  simp only [State.record, Fin.getElem_fin] at hs
  simp only [hr, hs, Record.finished, Vector.getElem_set_self, Summary.add, Summary.sub, Nat.add_sub_cancel]
  rfl

/-- A provisional result of a record in ATTEMPT (R87, R95, R97, R115). -/
theorem State.provisionalResult_eq (s : State) (i : Slot) (r : Record) (hr : r.state = .attempt)
    (hs : (s.record i).state = .attempt) : (s.setRecord i r).returnRecord i = s.attemptProvisional i r := by
  have hc : (s.stationEntry r.station).mode.closed = true ↔ ¬ s.InService r.station := by
    rw [State.InService]; cases (s.stationEntry r.station).mode <;> simp [StationMode.closed]
  unfold State.returnRecord State.attemptProvisional
  simp only [State.setRecord_record, if_true, State.setRecord_stationEntry]
  by_cases h : s.InService r.station
  · rw [if_neg (fun hx => hc.1 hx h), if_pos h]
    simp only [State.attemptToWait, State.setRecord, State.record, Fin.getElem_fin, Vector.set_set]
    simp only [State.record, Fin.getElem_fin] at hs
    cases hk : r.kind <;>
      simp [hk, hr, hs, Record.returned, Record.asWaiting, Summary.add, Summary.sub]
  · rw [if_pos (hc.2 h), if_neg h, s.finalResult_eq i r _ _ hr hs]

/-- A record's timer at a tick (R141). -/
theorem State.handTick_record (s : State) (i : Slot) : s.handTick.record i = (s.record i).countdown := by
  simp [State.handTick, State.record]

/-! ### The far link signals -/

/-- Outside REQUEST the far port drives no beat (R71, R183). -/
theorem State.farBeat_of_not_request {s : State} (h : s.far.link ≠ .request) : s.farBeat = none := by
  cases hl : s.far.link <;> simp_all [State.farBeat]

/-- In REQUEST the far port drives the address beat, or the data beat of a write after two CLK periods (R69, R185). -/
theorem State.farBeat_of_request {s : State} (h : s.far.link = .request) :
    s.farBeat = some (if s.far.transaction.isWrite = true ∧ 2 ≤ s.far.requestClks
      then s.far.transaction.dataBeat else s.far.transaction.addressBeat) := by
  have hc : (s.far.transaction.isWrite && decide (Config.clksPerBeat ≤ s.far.requestClks)) = true ↔
      s.far.transaction.isWrite = true ∧ 2 ≤ s.far.requestClks := by
    rw [Bool.and_eq_true, decide_eq_true_iff, Config.clksPerBeat]
  simp only [State.farBeat, h, hc]
  exact (apply_ite some _ _ _).symm

theorem State.frstAsserted_iff (s : State) : s.frstAsserted = true ↔ s.far.link = .reset := by
  simp [State.frstAsserted]

end Sys2Proof.Machine
end

