-- ==== Sys2Proof/Laws/NearPort.lean ====
section
/-! SUPPORT. What a near access comes to: one lemma for each stage it passes (claim, refusals, match, admission), and
the answers in the words of the statements. -/

namespace Sys2Proof.Machine

/-- The row that carries a near access runs the near port's one access operation. -/
theorem exec_command (n : NearAccess) (isWatch : Bool) (s : State) :
    exec (n.command isWatch) s = .next (s.nearAccess n) := by
  obtain ⟨q, a, l, d⟩ := n
  cases isWatch <;> cases d <;> rfl

theorem nearCheckPasses_iff (d : Direction) :
    nearCheckPasses d = true ↔ ∀ data check, d = .write data check → passesCheck data check = true := by
  cases d <;> simp [nearCheckPasses]

theorem isReadDirection_eq (d : Direction) : isReadDirection d = decide (d = .read) := by
  cases d <;> simp [isReadDirection]

theorem bareAnswer_eq (n : NearAccess) (response : NearResponse) :
    n.bareAnswer response = plainAnswer response (isReadDirection n.direction) := by
  simp [NearAccess.bareAnswer, plainAnswer, isReadDirection_eq]

theorem wordAnswer_eq (n : NearAccess) (response : NearResponse) (word : Word) (check : Bool) :
    n.wordAnswer response word check = dataAnswer response (isReadDirection n.direction) word check := by
  simp [NearAccess.wordAnswer, dataAnswer, isReadDirection_eq]

/-- The access as the Request Table takes it. -/
def apertureAccessOf (n : NearAccess) (isWatch : Bool) (st : Station) (o : WordOffset) : ApertureAccess :=
  { requester := n.requester, isWatch := isWatch, station := st, offset := o, lanes := n.lanes,
    direction := n.direction }

theorem apertureAccessOf_key (n : NearAccess) (isWatch : Bool) (st : Station) (o : WordOffset) :
    (apertureAccessOf n isWatch st o).key = n.key isWatch st o := by
  obtain ⟨q, a, l, d⟩ := n
  cases isWatch <;> cases d <;> rfl

theorem faultAccess_eq (s : State) (n : NearAccess) (isWatch : Bool) (st : Station) (o : WordOffset)
    (reason : FaultReason) :
    s.faultAccess (apertureAccessOf n isWatch st o) reason =
      { s.report n.requester reason (apertureRegion isWatch) st o with answer := n.bareAnswer .fault } := by
  rw [bareAnswer_eq]; rfl

theorem retryAccess_eq (s : State) (n : NearAccess) (isWatch : Bool) (st : Station) (o : WordOffset) :
    s.retryAccess (apertureAccessOf n isWatch st o) = { s with answer := n.bareAnswer .retry } := by
  rw [bareAnswer_eq]; rfl

/-- A claimed aperture access meets the refusals. -/
theorem exec_of_claims {s : State} {n : NearAccess} {isWatch : Bool} {st : Station} {o : WordOffset}
    (h : s.Claims n isWatch st o) :
    exec (n.command isWatch) s = .next (s.apertureAccess (apertureAccessOf n isWatch st o)) := by
  obtain ⟨hr, hop, hd⟩ := h
  rw [exec_command]
  cases isWatch <;> simp_all [State.nearAccess, State.claimAperture, apertureAccessOf]

/-- An access that passes the refusals is matched. -/
theorem exec_of_passes {s : State} {n : NearAccess} {isWatch : Bool} {st : Station} {o : WordOffset}
    (h : s.Claims n isWatch st o) (hp : n.PassesRefusals isWatch) :
    exec (n.command isWatch) s = .next (s.matchAccess (apertureAccessOf n isWatch st o)) := by
  obtain ⟨h1, h2, h3⟩ := hp
  rw [← nearCheckPasses_iff] at h1
  have h2' : ¬ n.lanes = 0#4 := h2
  rw [exec_of_claims h]
  simp only [State.apertureAccess, apertureAccessOf, h1]
  simp only [Bool.not_true, Bool.false_eq_true, if_false, BitVec.ofNat_eq_ofNat, h2']
  cases isWatch with
  | false => simp
  | true => simp [isReadDirection_eq, h3 rfl]

/-- An access that passes the refusals and matches no live record meets admission. -/
theorem exec_of_noMatch {s : State} {n : NearAccess} {isWatch : Bool} {st : Station} {o : WordOffset}
    (h : s.Claims n isWatch st o) (hp : n.PassesRefusals isWatch) (hm : s.NoMatch (n.key isWatch st o)) :
    exec (n.command isWatch) s = .next (s.admitOrRefuse (apertureAccessOf n isWatch st o)) := by
  rw [exec_of_passes h hp]
  rw [← apertureAccessOf_key, ← State.findMatch_eq_none] at hm
  simp only [State.matchAccess, hm]

theorem State.closed_iff_not_inService (s : State) (st : Station) :
    (s.stationEntry st).mode.closed = true ↔ ¬ s.InService st := by
  rw [State.InService]; cases (s.stationEntry st).mode <;> simp [StationMode.closed]

/-- The correct check bit passes the check, and the poisoned one fails it. -/
theorem passesCheck_correctCheck (w : Word) : passesCheck w (correctCheck w) = true := by
  simp only [passesCheck, correctCheck]
  rcases Nat.mod_two_eq_zero_or_one (onesOf w) with h | h <;> simp [h, Nat.add_mod]

theorem passesCheck_poisonedCheck (w : Word) : passesCheck w (poisonedCheck w) = false := by
  simp only [passesCheck, poisonedCheck, correctCheck]
  rcases Nat.mod_two_eq_zero_or_one (onesOf w) with h | h <;> simp [h, Nat.add_mod]

end Sys2Proof.Machine
end

