-- ==== Sys2Proof/Laws/Timers.lean ====
section
/-! SUPPORT. What the tick and the idle step do: an event that is not due leaves the state as it is, so a tick that
finds nothing due only counts. -/

namespace Sys2Proof.Machine

theorem takeExpiry_of_not_expiring {s : State} {i : Slot} (h : (s.record i).expiring = false) :
    takeExpiry s i = s := by
  simp [takeExpiry, State.takeBackoffEnd, State.takeWatchDue, State.takeDiscard, State.expiryDue, h]

theorem foldl_takeExpiry_of_none {s : State} (slots : List Slot) (h : ∀ i ∈ slots, (s.record i).expiring = false) :
    slots.foldl takeExpiry s = s := by
  induction slots with
  | nil => rfl
  | cons i rest ih =>
    rw [List.foldl_cons, takeExpiry_of_not_expiring (h i (by simp))]
    exact ih fun j hj => h j (by simp [hj])

theorem silentDue_iff (s : State) : s.far.silentDue = true ↔ s.SilentDue := by
  simp [FarPort.silentDue, State.SilentDue]

theorem resetEndDue_iff (s : State) : s.far.resetEndDue = true ↔ s.ResetEndDue := by
  simp [FarPort.resetEndDue, State.ResetEndDue]

theorem takeSilent_of_not_due {s : State} (h : ¬ s.SilentDue) : s.takeSilent = s := by
  rw [State.takeSilent, if_neg (mt (silentDue_iff s).mp h)]

theorem takeResetEnd_of_not_due {s : State} (h : ¬ s.ResetEndDue) : s.takeResetEnd = s := by
  rw [State.takeResetEnd, if_neg (mt (resetEndDue_iff s).mp h)]

/-- A tick that finds nothing due only counts (assumption 4). -/
theorem tick_of_nothingDue {s : State} (h : s.NothingDue) : s.tick = s.handTick := by
  rw [State.tick, State.takeDue, takeSilent_of_not_due h.2.1, takeResetEnd_of_not_due h.2.2,
    foldl_takeExpiry_of_none _ fun i _ => h.1 i]

/-- An idle step takes the own event that is due (assumption 6). -/
theorem step_of_ownEvent {s : State} {c : Instr} (hq : s.pending = []) (h : s.ownEvent = some c) :
    step s = exec c s := by
  simp [step, stepIdle, hq, h]

/-- An idle step with no own event due is one CLK period (assumption 6). -/
theorem step_of_no_ownEvent {s : State} (hq : s.pending = []) (h : s.ownEvent = none) :
    step s = .next s.clkPeriod := by
  simp [step, stepIdle, hq, h]

end Sys2Proof.Machine
end

