-- ==== Sys2Proof/WellFormed.lean ====
section
/-! DEFINITION. When a command is an instance of its own row: an aperture access aims at its aperture, and a
control window write reaches the field its row names. `exec` is total and right for the others too (a far access
whose address lies elsewhere is answered as that address asks), so nothing rests on this check. -/

namespace Sys2Proof

/-- Block offset bits 25:24 of a near address, the part of the claim block (R27): 0 the far aperture, 1 the watch
aperture. The claim block is aligned to its size, so BSEL does not matter here. -/
def NearAddr.part (a : NearAddr) : BitVec 2 := a.extractLsb' 22 2

/-- A control window write selects a lane (R181). -/
def WindowWrite.reaches (w : WindowWrite) (lane : Nat) : Bool := w.lanes.getLsbD lane

/-- A control window write puts a 1 on a data bit in a selected byte (R181, the write-1 positions). -/
def WindowWrite.writesOne (w : WindowWrite) (bit : Nat) : Bool := w.reaches (bit / 8) && w.data.getLsbD bit

/-- The word offsets (offset divided by 4) of which every field has a row of its own, so that they are no
REGISTER_WRITE: 000h, 008h, 044h, 084h; in a requester entry 04h, 0Ch and 10h to 1Ch; 300h to 30Ch (R177). -/
def hasOwnRow (offset : WindowOffset) : Bool :=
  let o := offset.toNat * 4
  o == 0x000 || o == 0x008 || o == 0x044 || o == 0x084 ||
    (0x200 ≤ o && o < 0x300 && (o % 0x20 == 0x04 || 0x0C ≤ o % 0x20)) || (0x300 ≤ o && o < 0x310)

/-- The command is an instance of its row. -/
def Instr.wellFormed : Instr → Bool
  | .chipReset => true
  | .resetRelease _ _ => true
  | .farAccess a => a.address.part == 0
  | .watchRead _ address _ => address.part == 1
  | .watchApertureWrite _ address _ _ _ => address.part == 1
  | .aperturesOpenWrite w => w.reaches 0
  | .timeBaseSelectWrite w => w.reaches 1
  | .silenceLimitWrite w => w.reaches 0
  | .stationModeWrite _ w => w.reaches 0
  | .clearLateCount w => w.writesOne 0
  | .clearMisaddressedCount w => w.writesOne 1
  | .clearTurnedAwayCount _ w => w.writesOne 0
  | .clearUnclaimedCount _ w => w.writesOne 1
  | .faultClear _ w => w.writesOne 31
  | .watchSetupWrite _ _ _ => true
  | .noticeClear _ w => (List.range 32).any w.writesOne
  | .noticeEnableWrite _ w => w.lanes != 0
  | .overlapClear w => w.writesOne 1
  | .registerWrite offset _ => !hasOwnRow offset
  | .view _ => true
  | .withdraw _ => true
  | .withdrawRequester _ => true
  | .clear _ => true
  | .readmit _ => true
  | .farReset _ => true
  | .badCommand code _ => code == 0 || 6 < code.toNat
  | .choice => true
  | .lastBeatDriven => true
  | .farReply _ _ _ _ _ => true
  | .silent => true
  | .tick => true
  | .backoffEnd _ => true
  | .watchDue _ => true
  | .discard _ => true
  | .farResetEnd => true

end Sys2Proof
end

