-- ==== Sys2Proof/Tests/Slice0.lean ====
section
/-! SUPPORT. The model's own tests: the well-formedness check, one or two steps of each command on a small state with
the results the spec works out, and for each statement with hypotheses a state and operands that meet them. -/

set_option Elab.async false

namespace Sys2Proof.Tests

open Sys2Proof.Machine

/-! ### Small states and operands -/

/-- Apertures open, link IDLE, stations 5 and 9 ACTIVE, station 9 SIDE, station 6 SUSPENDED, station 7 UNREACHABLE. -/
def base : State :=
  { State.reset with
    params := { Params.afterReset with aperturesOpen := true }
    far := { FarPort.afterReset with link := .idle, resetTimer := 0 }
    stations := ((((State.reset.stations.set 5
      { StationEntry.afterReset with mode := .active }).set 9
      { StationEntry.afterReset with mode := .active, cls := .side }).set 6
      { StationEntry.afterReset with mode := .suspended, silences := 1 }).set 7
      { StationEntry.afterReset with mode := .unreachable, silences := 3 }) }

/-- The state after a command. -/
def after (c : Instr) (s : State) : State :=
  match exec c s with
  | .next t => t
  | .fault f => nomatch f
  | .refused _ => s

def farAt (st offset : Nat) : NearAddr := BitVec.ofNat 30 ((0xC0000000 + st * 0x100000 + offset) / 4)

def watchAt (st offset : Nat) : NearAddr := BitVec.ofNat 30 ((0xC1000000 + st * 0x100000 + offset) / 4)

def windowAt (offset : Nat) : NearAddr := BitVec.ofNat 30 ((0xC2000000 + offset) / 4)

/-- A write of the window with its correct check. -/
def put (q : Requester) (lanes : Lanes) (data : Word) : WindowWrite :=
  { requester := q, lanes := lanes, data := data, check := correctCheck data }

/-- Requester 2 reads station 5, offset 104h. -/
def farRead : NearAccess := { requester := 2, address := farAt 5 0x104, lanes := 15, direction := .read }

/-- Requester 2 writes A5h to station 5, offset 104h, lane 0. -/
def farWrite : NearAccess :=
  { requester := 2, address := farAt 5 0x104, lanes := 1, direction := .write 0xA5 (correctCheck 0xA5) }

/-- Requester 2 watches station 5, offset 104h. -/
def farWatch : NearAccess := { requester := 2, address := watchAt 5 0x104, lanes := 15, direction := .read }

def readRecord : Record :=
  { Record.free with state := .pending, requester := 2, kind := .read, station := 5, offset := 0x41, lanes := 15 }

def writeRecord : Record :=
  { Record.free with
    state := .pending, requester := 2, kind := .write, station := 5, offset := 0x41, lanes := 1, writeData := 0xA5 }

def watchRecord : Record :=
  { Record.free with
    state := .watch, requester := 2, kind := .watch, station := 5, offset := 0x41, lanes := 15, captured := true,
    mask := 1, pollLimit := 3 }

/-- One record, in slot 0. -/
def holding (r : Record) : State := base.enterRecord 0 r

def readyRecord (o : RecordOutcome) (d : Word) : Record :=
  { readRecord with state := .ready, timer := 900, outcome := some o, resultData := d }

/-- One record in ATTEMPT in slot 0, its request driven, with the given reply timer. -/
def inFlight (r : Record) (timer : BitVec 8) : State :=
  let s := holding { r with state := .attempt, timer := 0 }
  { s with far := { s.far with
      link := .await, transaction := s.contextOf 0, tagCounter := 1, replyTimer := timer } }

/-- A marked record in flight, and the WITHDRAW that waits for it. -/
def marked (timer : BitVec 8) : State :=
  let s := inFlight { readRecord with withdrawn := true } timer
  { s with command := { s.command with busy := true, lastCode := 2, wait := .slot 0 } }

/-- Every slot holds a record of requester 1. -/
def full : State :=
  (List.finRange 24).foldl
    (fun s i => s.enterRecord i { readRecord with requester := 1, offset := BitVec.ofNat 18 i.val }) base

/-- The same state with one station's silence count and the silence limit replaced. -/
def withSilences (s : State) (n limit : BitVec 4) : State :=
  { s with stations := s.stations.set 5 { s.stationEntry 5 with silences := n }
           params := { s.params with silenceLimit := limit } }

/-- The same state with station 5 in another mode. -/
def withMode (s : State) (m : StationMode) : State :=
  { s with stations := s.stations.set 5 { s.stationEntry 5 with mode := m } }

/-! ### Well-formedness: each check refuses an ill-formed term -/

theorem test_wf_far_access : (Instr.farAccess farRead).wellFormed = true ∧
    (Instr.farAccess { farRead with address := watchAt 5 0 }).wellFormed = false := by decide

theorem test_wf_watch_read : (Instr.watchRead 2 (watchAt 5 0) 15).wellFormed = true ∧
    (Instr.watchRead 2 (farAt 5 0) 15).wellFormed = false := by decide

theorem test_wf_watch_write : (Instr.watchApertureWrite 2 (watchAt 5 0) 15 0 false).wellFormed = true ∧
    (Instr.watchApertureWrite 2 (windowAt 0) 15 0 false).wellFormed = false := by decide

theorem test_wf_global_control : (Instr.aperturesOpenWrite (put 0 1 1)).wellFormed = true ∧
    (Instr.aperturesOpenWrite (put 0 2 1)).wellFormed = false ∧
    (Instr.timeBaseSelectWrite (put 0 2 1)).wellFormed = true ∧
    (Instr.timeBaseSelectWrite (put 0 1 1)).wellFormed = false := by decide

theorem test_wf_silence_limit : (Instr.silenceLimitWrite (put 0 1 3)).wellFormed = true ∧
    (Instr.silenceLimitWrite (put 0 14 3)).wellFormed = false := by decide

theorem test_wf_station_mode : (Instr.stationModeWrite 5 (put 0 3 1)).wellFormed = true ∧
    (Instr.stationModeWrite 5 (put 0 2 1)).wellFormed = false := by decide

theorem test_wf_count_clears : (Instr.clearLateCount (put 0 1 1)).wellFormed = true ∧
    (Instr.clearLateCount (put 0 1 2)).wellFormed = false ∧
    (Instr.clearMisaddressedCount (put 0 1 2)).wellFormed = true ∧
    (Instr.clearMisaddressedCount (put 0 2 2)).wellFormed = false ∧
    (Instr.clearTurnedAwayCount 3 (put 0 1 1)).wellFormed = true ∧
    (Instr.clearTurnedAwayCount 3 (put 0 0 1)).wellFormed = false ∧
    (Instr.clearUnclaimedCount 3 (put 0 1 2)).wellFormed = true ∧
    (Instr.clearUnclaimedCount 3 (put 0 1 1)).wellFormed = false := by decide

theorem test_wf_fault_clear : (Instr.faultClear 3 (put 3 8 0x80000000)).wellFormed = true ∧
    (Instr.faultClear 3 (put 3 1 0x80000000)).wellFormed = false := by decide

theorem test_wf_notices : (Instr.noticeClear .a (put 0 8 0x01000000)).wellFormed = true ∧
    (Instr.noticeClear .a (put 0 7 0x01000000)).wellFormed = false ∧
    (Instr.noticeEnableWrite .b (put 0 1 0)).wellFormed = true ∧
    (Instr.noticeEnableWrite .b (put 0 0 0)).wellFormed = false := by decide

theorem test_wf_overlap_clear : (Instr.overlapClear (put 0 1 2)).wellFormed = true ∧
    (Instr.overlapClear (put 0 1 1)).wellFormed = false := by decide

theorem test_wf_register_write : (Instr.registerWrite (registerAt .holdBudget) (put 0 1 5)).wellFormed = true ∧
    (Instr.registerWrite (registerAt .silenceLimit) (put 0 1 5)).wellFormed = false := by decide

theorem test_wf_bad_command : (Instr.badCommand 7 0).wellFormed = true ∧ (Instr.badCommand 0 0).wellFormed = true ∧
    (Instr.badCommand 6 0).wellFormed = false := by decide

/-! ### Decoding an address, and codes -/

/-- The example of R29: station 5, offset 104h with BSEL 0. -/
theorem test_address_example : decodeAddress 0 (BitVec.ofNat 30 (0xC0500104 / 4)) = .far 5 0x41 ∧
    decodeAddress 0 (BitVec.ofNat 30 (0xC1500104 / 4)) = .watch 5 0x41 := by decide

/-- The examples of block placement of R27. -/
theorem test_block_examples : decodeAddress 3 (BitVec.ofNat 30 (0xCE000FFC / 4)) = .control 0x3FF ∧
    decodeAddress 15 (BitVec.ofNat 30 (0xFC000000 / 4)) = .far 0 0 ∧
    decodeAddress 15 (BitVec.ofNat 30 (0xFE001000 / 4)) = .notClaimed ∧
    decodeAddress 3 (BitVec.ofNat 30 (0xC0000000 / 4)) = .notClaimed := by decide

/-- The masks of the table of R112, for a reference of 0000_00FFh. -/
theorem test_mask_examples : finds 0xFFFFFFFF 0xFF 0xFF = false ∧ finds 0xFFFFFFFF 0xFF 0x1FF = true ∧
    finds 0xFF 0xFF 0x1FF = false ∧ finds 0xF0 0xFF 0xEF = true ∧ finds 0 0xFF 0xFFFF0000 = false := by decide

/-- The codes of NRSP and FKIND (R184, R185). -/
theorem test_signal_codes : nearResponseCode .ack = 0b01 ∧ nearResponseCode .retry = 0b10 ∧
    nearResponseCode .fault = 0b11 ∧ replyKindOf 0 = .done ∧ replyKindOf 1 = .hold ∧ replyKindOf 2 = .reject ∧
    replyKindOf 3 = .reject := by decide

/-- No row of the table gives bits, so no word spells a command. -/
theorem test_no_word : decodeTableWord 32 0 = none := rfl

/-! ### One step of each command -/

theorem test_chip_reset : after .chipReset (inFlight readRecord 8) = State.atReset true 0 0 [] := by decide +kernel

theorem test_reset_release : (after (.resetRelease 3 5) (State.atReset true 0 0 [])).bsel = 3 ∧
    (after (.resetRelease 3 5) (State.atReset true 0 0 [])).own = 5 ∧
    (after (.resetRelease 3 5) base).bsel = 0 := by decide +kernel

/-- Event 1 of section 12.1. -/
theorem test_far_access_entered : after (.farAccess farRead) base =
    { holding readRecord with answer := { response := .retry, data := some { word := 0, check := false } } } := by
  decide +kernel

/-- Event 7 of section 12.1: collection with a correct check; 12345678h holds 13 ones. -/
theorem test_far_access_collected :
    (after (.farAccess farRead) (holding (readyRecord .ok 0x12345678))).answer =
      { response := .ack, data := some { word := 0x12345678, check := true } } ∧
    (after (.farAccess farRead) (holding (readyRecord .ok 0x12345678))).record 0 = .free := by decide +kernel

/-- A tainted word is answered with the poisoned check and reported (R39). -/
theorem test_far_access_tainted :
    (after (.farAccess farRead) (holding (readyRecord .tainted 0x12345678))).answer =
      { response := .ack, data := some { word := 0x12345678, check := false } } ∧
    ((after (.farAccess farRead) (holding (readyRecord .tainted 0x12345678))).requesterEntry 2).fault.reason =
      some .tainted := by decide +kernel

/-- Event 5 of section 2.10: a closed station. -/
theorem test_far_access_refused :
    (after (.farAccess { farRead with address := farAt 8 0x10 }) base).answer.response = .fault ∧
    ((after (.farAccess { farRead with address := farAt 8 0x10 }) base).requesterEntry 2).fault =
      { valid := true, reason := some .noStation, region := some .far, station := 8, offset := 4, further := 0 } := by
  decide +kernel

theorem test_watch_read_entered : (after (.watchRead 2 (watchAt 5 0x80) 1) base).record 0 =
    { Record.free with state := .watch, requester := 2, kind := .watch, station := 5, offset := 0x20, lanes := 1,
                       mask := 0xFFFFFFFF, captured := true } := by decide +kernel

/-- Event 4 of section 2.10: a watch of a SIDE station. -/
theorem test_watch_read_side : ((after (.watchRead 2 (watchAt 9 0) 1) base).requesterEntry 2).fault =
    { valid := true, reason := some .badWatch, region := some .watch, station := 9, offset := 0, further := 0 } := by
  decide +kernel

theorem test_watch_aperture_write :
    ((after (.watchApertureWrite 2 (watchAt 5 8) 1 1 true) base).requesterEntry 2).fault =
      { valid := true, reason := some .badWatch, region := some .watch, station := 5, offset := 2, further := 0 } := by
  decide +kernel

theorem test_apertures_open_write : (after (.aperturesOpenWrite (put 0 1 1)) State.reset).params.aperturesOpen = true ∧
    (after (.aperturesOpenWrite (put 1 1 1)) State.reset).params.aperturesOpen = false ∧
    (after (.aperturesOpenWrite (put 1 1 1)) State.reset).answer.response = .fault := by decide +kernel

/-- Section 8.7: the select written 5 restarts the divider, the value in force does not. -/
theorem test_time_base_select_write :
    (after (.timeBaseSelectWrite (put 0 2 0x500)) { base with divider := 77 }).divider = 0 ∧
    (after (.timeBaseSelectWrite (put 0 2 0x500)) { base with divider := 77 }).params.timeBaseSelect = 5 ∧
    (after (.timeBaseSelectWrite (put 0 2 0x300)) { base with divider := 77 }).divider = 77 := by decide +kernel

theorem test_silence_limit_write : ((after (.silenceLimitWrite (put 0 1 2)) base).stationEntry 6).silences = 0 ∧
    ((after (.silenceLimitWrite (put 0 1 2)) base).stationEntry 7).silences = 3 ∧
    (after (.silenceLimitWrite (put 0 1 0xF0)) base).params.silenceLimit = 3 := by decide +kernel

theorem test_station_mode_write :
    ((after (.stationModeWrite 5 (put 0 1 0)) (holding readRecord)).record 0).outcome = some .noStation ∧
    ((after (.stationModeWrite 5 (put 0 1 0)) (holding readRecord)).record 0).timer = 2000 ∧
    ((after (.stationModeWrite 7 (put 0 1 1)) base).stationEntry 7).mode = .unreachable := by decide +kernel

theorem test_far_link_clears :
    (after (.clearLateCount (put 0 1 1)) { base with far := { base.far with late := 9, misaddressed := 8 } }).far.late = 0 ∧
    (after (.clearMisaddressedCount (put 0 1 2))
      { base with far := { base.far with late := 9, misaddressed := 8 } }).far.late = 9 := by decide +kernel

theorem test_counter_clears :
    let s := base.setRequester 3 { base.requesterEntry 3 with turnedAway := 4, unclaimed := 5 }
    ((after (.clearTurnedAwayCount 3 (put 0 1 1)) s).requesterEntry 3).turnedAway = 0 ∧
    ((after (.clearTurnedAwayCount 3 (put 0 1 1)) s).requesterEntry 3).unclaimed = 5 ∧
    ((after (.clearUnclaimedCount 3 (put 0 1 2)) s).requesterEntry 3).unclaimed = 0 ∧
    ((after (.clearUnclaimedCount 3 (put 3 1 2)) s).requesterEntry 3).unclaimed = 5 := by decide +kernel

/-- A requester clears its own fault record; another requester's clear is refused (R154). -/
theorem test_fault_clear :
    let s := base.report 3 .barred .far 5 1
    ((after (.faultClear 3 (put 3 8 0x80000000)) s).requesterEntry 3).fault = .clear ∧
    ((after (.faultClear 3 (put 2 8 0x80000000)) s).requesterEntry 3).fault.valid = true ∧
    ((after (.faultClear 3 (put 2 8 0x80000000)) s).requesterEntry 2).fault =
      { valid := true, reason := some .notOwner, region := some .control, station := 0, offset := 0x26C / 4,
        further := 0 } := by decide +kernel

theorem test_watch_setup_write :
    ((after (.watchSetupWrite 2 .mask (put 2 1 1)) base).requesterEntry 2).setup.mask = 0xFFFFFF01 ∧
    ((after (.watchSetupWrite 2 .mode (put 2 1 1)) base).requesterEntry 2).setup.mode = .change := by decide +kernel

theorem test_notice_clear :
    let s := base.setFlags { Notices.none with ready := 0xFF, cmdDone := true }
    (after (.noticeClear .a (put 0 1 0x04)) s).flags = { Notices.none with ready := 0xFB, cmdDone := true } ∧
    (after (.noticeClear .a (put 0 1 0xFFFFFF00)) s).flags = s.flags := by decide +kernel

theorem test_notice_enable_write :
    (after (.noticeEnableWrite .a (put 0 15 0x02000020)) base).enables =
      { Notices.none with ready := 0x20, linkErr := true } := by decide +kernel

theorem test_overlap_clear :
    (after (.overlapClear (put 0 1 2)) { base with command := { base.command with overlap := true } }).command.overlap =
      false := by decide +kernel

/-- A quota above 24 and a hold budget of 0 are not stored (R149, R181). -/
theorem test_register_write :
    ((after (.registerWrite (registerAt (.requesterCounts 3)) (put 0 8 0x18000000)) base).requesterEntry 3).quota = 24 ∧
    ((after (.registerWrite (registerAt (.requesterCounts 3)) (put 0 8 0x19000000)) base).requesterEntry 3).quota = 4 ∧
    (after (.registerWrite (registerAt .holdBudget) (put 0 1 0)) base).params.holdBudget = 32 := by decide +kernel

theorem test_register_write_absent :
    after (.registerWrite 4 (put 0 15 5)) base = { base with answer := ackWrite } := by decide +kernel

theorem test_view : (after (.view 0) (holding readRecord)).command.view =
    { slot := 0, rank := 0, content := readRecord } ∧
    (after (.view 24) (holding readRecord)).command.lastResult = .badOperand := by decide +kernel

theorem test_withdraw : (after (.withdraw 0) (holding readRecord)).record 0 = .free ∧
    ((after (.withdraw 0) (inFlight readRecord 8)).record 0).withdrawn = true ∧
    (after (.withdraw 0) (inFlight readRecord 8)).command.wait = .slot 0 ∧
    (after (.withdraw 0) base).command.lastResult = .noRecord := by decide +kernel

theorem test_withdraw_requester : (after (.withdrawRequester 2) (holding readRecord)).order = [] ∧
    (after (.withdrawRequester 1) (holding readRecord)).order = [0] := by decide +kernel

theorem test_clear : (after (.clear 0) full).summary = Summary.zero ∧ (after (.clear 0) full).order = [] := by
  decide +kernel

theorem test_readmit : ((after (.readmit 7) base).stationEntry 7).mode = .active ∧
    ((after (.readmit 7) base).stationEntry 7).silences = 0 ∧
    (after (.readmit 5) base).command.lastResult = .notUnreachable := by decide +kernel

theorem test_far_reset : ((after (.farReset 0) (inFlight writeRecord 8)).record 0).state = .backoff ∧
    ((after (.farReset 0) (inFlight writeRecord 8)).record 0).timer = 4 ∧
    (after (.farReset 0) (inFlight writeRecord 8)).far.resetTimer = 4 ∧
    (after (.farReset 0) (inFlight writeRecord 8)).far.tagCounter = 1 := by decide +kernel

theorem test_bad_command : (after (.badCommand 7 9) base).command.lastResult = .badCommand ∧
    (after (.badCommand 7 9) base).command.lastCode = 7 := by decide +kernel

/-- Event 2 of section 12.1. -/
theorem test_choice : (after .choice (holding readRecord)).far =
    { base.far with
      link := .request, tagCounter := 1, replyTimer := 8
      transaction := { slot := 0, station := 5, tag := 0, isWrite := false, offset := 0x41, lanes := 15,
                       writeData := 0 } } ∧
    (after .choice (holding readRecord)).pointer = 5 := by decide +kernel

/-- A pending record behind an older one of its pair is passed over for a record of another requester (R54, R61). -/
theorem test_choice_pair :
    let s := ((base.enterRecord 0 { readRecord with state := .backoff, timer := 3 }).enterRecord 1 writeRecord).enterRecord 2
      { readRecord with requester := 4 }
    s.chosen = some 2 := by decide +kernel

theorem test_last_beat :
    let s := { inFlight readRecord 8 with far := { (inFlight readRecord 8).far with link := .request } }
    after .lastBeatDriven s = inFlight readRecord 8 := by decide +kernel

/-- The beats of a write: the address beat, then the data beat, each with its check (R69). -/
theorem test_beats : ((inFlight writeRecord 8).far.transaction.beats.map fun b => (b.fad, b.fchk)) =
    [(0x104, false), (0xA5, false)] := by decide +kernel

/-- Event 6 of section 12.1. -/
theorem test_far_reply_done :
    ((after (.farReply 5 0 0 0x12345678 true) (inFlight readRecord 8)).record 0) =
      { readRecord with state := .ready, timer := 2000, outcome := some .ok, resultData := 0x12345678 } ∧
    (after (.farReply 5 0 0 0x12345678 true) (inFlight readRecord 8)).far.link = .idle := by decide +kernel

/-- Section 4.8: a reply of another station is misaddressed; one with another tag is late. -/
theorem test_far_reply_discarded : (after (.farReply 9 0 0 0 false) (inFlight readRecord 8)).far.misaddressed = 1 ∧
    (after (.farReply 5 2 0 0 false) (inFlight readRecord 8)).far.late = 1 ∧
    (after (.farReply 5 2 0 0 false) (inFlight readRecord 8)).flags.linkErr = true := by decide +kernel

/-- Section 4.8, tick 8, and section 12.3: below the limit, and at it. -/
theorem test_silent : ((after .silent (inFlight readRecord 0)).record 0).state = .backoff ∧
    ((after .silent (withSilences (inFlight readRecord 0) 2 3)).record 0).outcome = some .noStation ∧
    ((after .silent (withSilences (inFlight readRecord 0) 2 3)).stationEntry 5).mode = .unreachable := by
  decide +kernel

theorem test_tick : ((after .tick (holding { readRecord with state := .backoff, timer := 2 })).record 0).timer = 1 ∧
    (after .tick (inFlight readRecord 8)).far.replyTimer = 7 ∧ (after .tick State.reset).far.resetTimer = 3 := by
  decide +kernel

/-- The tick that brings a backoff to 0, and its end (section 4.8). -/
theorem test_backoff_end :
    after (.backoffEnd 0) (after .tick (holding { readRecord with state := .backoff, timer := 1 })) =
      holding readRecord := by decide +kernel

theorem test_watch_due :
    after (.watchDue 0) (after .tick (holding { watchRecord with timer := 1 })) = holding watchRecord := by
  decide +kernel

theorem test_discard :
    let s := after .tick (holding { readyRecord .ok 7 with timer := 1 })
    (after (.discard 0) s).record 0 = .free ∧ ((after (.discard 0) s).requesterEntry 2).unclaimed = 1 ∧
    (after (.discard 0) s).flags.unclaimed = 4 := by decide +kernel

theorem test_far_reset_end :
    let s := { State.reset with far := { State.reset.far with resetTimer := 0 } }
    (after .farResetEnd s).far.link = .idle ∧ (after .farResetEnd State.reset).far.link = .reset := by decide +kernel

/-- Sixteen records and more in BACKOFF use all five bits of their field in the table summary (R177). -/
theorem test_table_summary :
    (Summary.word { Summary.zero with live := 24, backoff := 24 }).toNat = 24 + 24 * 2 ^ 11 := by decide +kernel

/-! ### Witnesses: the hypotheses of the statements, met together -/

/-- Every law holds of the state with a transaction in flight, which the statements about every step start from. -/
theorem test_witness_safe : (inFlight writeRecord 8).Safe :=
  ⟨by decide +kernel, by decide +kernel, by decide +kernel, by decide +kernel, by decide +kernel, by decide +kernel,
    by decide +kernel, ⟨by decide +kernel, by decide +kernel, by decide +kernel, by decide +kernel⟩, by decide +kernel,
    by decide +kernel, by decide +kernel, by decide +kernel, by decide +kernel⟩

theorem test_witness_step : ∃ t, step (inFlight writeRecord 8) = .next t := ⟨_, rfl⟩

/-- IdleStepIsOwnEventOrClkPeriod: the first CLK period of a tick, and the last. -/
theorem test_witness_clk :
    State.reset.rstAsserted = false ∧ State.reset.pending = [] ∧ State.reset.ownEvent = none ∧
    State.reset.divider + 1 < 2 ^ (4 + 2 * State.reset.params.timeBaseSelect.toNat) ∧
    ({ State.reset with divider := 1023 } : State).ownEvent = none ∧
    2 ^ (4 + 2 * State.reset.params.timeBaseSelect.toNat) ≤ 1023 + 1 := by decide +kernel

/-- A state in which a tick has made the expiry of the record in slot 0 due. -/
def expired (r : Record) : State := after .tick (holding { r with timer := 1 })

/-- The states of `expired`, and the expiry of each kind due there. -/
theorem test_witness_first_due :
    (expired { readRecord with state := .backoff }).FirstDue (.backoffEnd 0) ∧
    (expired watchRecord).FirstDue (.watchDue 0) ∧ (expired (readyRecord .ok 7)).FirstDue (.discard 0) := by
  refine ⟨.inr (.inr ⟨by decide +kernel, by decide +kernel, 0, by decide +kernel, by decide +kernel, ?_⟩),
    .inr (.inr ⟨by decide +kernel, by decide +kernel, 0, by decide +kernel, by decide +kernel, ?_⟩),
    .inr (.inr ⟨by decide +kernel, by decide +kernel, 0, by decide +kernel, by decide +kernel, ?_⟩)⟩
  · exact .inl ⟨rfl, by decide +kernel⟩
  · exact .inr (.inl ⟨rfl, by decide +kernel⟩)
  · exact .inr (.inr ⟨rfl, by decide +kernel⟩)

/-- SILENT and the end of a far reset that an earlier tick made due. -/
theorem test_witness_link_due : (inFlight readRecord 0).FirstDue .silent ∧
    ({ State.reset with far := { State.reset.far with resetTimer := 0 } } : State).FirstDue .farResetEnd :=
  ⟨.inl ⟨rfl, by decide +kernel⟩, .inr (.inl ⟨rfl, by decide +kernel⟩)⟩

/-- A write request with some of its CLK periods driven. -/
def requested (n : Nat) : State :=
  let s := after .choice (holding writeRecord)
  s.setFar { s.far with requestClks := n }

/-- A request at its last CLK period, and the one before. -/
theorem test_witness_beats : (requested 4).NothingDue ∧ (requested 4).BeatsDriven ∧ (requested 3).NothingDue ∧
    ¬ (requested 3).BeatsDriven ∧ (requested 3).ownEvent = none := by decide +kernel

/-- RequestIsDrivenThenAwaited: the beats that the far port drives at the bounds of each, and none elsewhere. -/
theorem test_witness_far_beat :
    let x := (requested 0).far.transaction
    (requested 0).far.link = .request ∧ x.isWrite = true ∧ (requested 1).farBeat = some x.addressBeat ∧
    (requested 2).farBeat = some x.dataBeat ∧ (requested 3).farBeat = some x.dataBeat ∧
    (after .choice (holding readRecord)).far.transaction.isWrite = false ∧
    (inFlight readRecord 8).farBeat = none ∧ base.farBeat = none ∧ base.frstAsserted = false ∧
    State.reset.farBeat = none ∧ State.reset.frstAsserted = true := by decide +kernel

set_option synthInstance.maxSize 4000 in
/-- A due choice, and no own event at all. -/
theorem test_witness_idle_step :
    ((holding readRecord).NothingDue ∧ (holding readRecord).FieldsExact ∧ (holding readRecord).OrderExact ∧
      (holding readRecord).MayBeAttempted 0) ∧
    (base.NothingDue ∧ base.FieldsExact ∧ base.OrderExact ∧ ¬ base.BeatsDriven ∧
      ∀ i : Slot, ¬ base.MayBeAttempted i) := by decide +kernel

/-- ResetReleaseSamplesTheStraps and NothingHappensInReset. -/
theorem test_witness_reset : (State.atReset true 0 0 []).rstAsserted = true ∧ State.reset.rstAsserted = false ∧
    Instr.tick ≠ .chipReset ∧ (∀ bsel own, Instr.tick ≠ .resetRelease bsel own) ∧ Instr.tick.nearBus = false ∧
    (Instr.farAccess farRead).nearBus = true := by
  refine ⟨by decide, by decide, by decide, ?_, by decide, by decide⟩
  intro bsel own h; cases h

/-- ClaimBlockDecodes at the ends of the block and of each region, for the lowest and the highest BSEL. -/
theorem test_witness_claim_block : decodeAddress 0 (BitVec.ofNat 30 (0xBFFFFFFC / 4)) = .notClaimed ∧
    decodeAddress 0 (BitVec.ofNat 30 (0xC0000000 / 4)) = .far 0 0 ∧
    decodeAddress 0 (BitVec.ofNat 30 (0xC0FFFFFC / 4)) = .far 15 0x3FFFF ∧
    decodeAddress 0 (BitVec.ofNat 30 (0xC1000000 / 4)) = .watch 0 0 ∧
    decodeAddress 0 (BitVec.ofNat 30 (0xC1FFFFFC / 4)) = .watch 15 0x3FFFF ∧
    decodeAddress 0 (BitVec.ofNat 30 (0xC2000000 / 4)) = .control 0 ∧
    decodeAddress 0 (BitVec.ofNat 30 (0xC2000FFC / 4)) = .control 0x3FF ∧
    decodeAddress 0 (BitVec.ofNat 30 (0xC2001000 / 4)) = .notClaimed ∧
    decodeAddress 0 (BitVec.ofNat 30 (0xC3FFFFFC / 4)) = .notClaimed ∧
    decodeAddress 0 (BitVec.ofNat 30 (0xC4000000 / 4)) = .notClaimed ∧
    decodeAddress 15 (BitVec.ofNat 30 (0xFFFFFFFC / 4)) = .notClaimed := by decide +kernel

/-- UnclaimedAccessHasNoEffect: an address outside the block, and each aperture while they are closed. -/
theorem test_witness_unclaimed : State.reset.rstAsserted = false ∧ decodeAddress State.reset.bsel 0 = .notClaimed ∧
    State.reset.params.aperturesOpen = false ∧ decodeAddress State.reset.bsel (farAt 5 0x104) = .far 5 0x41 ∧
    decodeAddress State.reset.bsel (watchAt 5 0x104) = .watch 5 0x41 := by decide +kernel

/-- FailedCheckAndEmptyLanesAreRefused: a write with a failed check in each aperture. -/
theorem test_witness_failed_check :
    base.Claims { farWrite with direction := .write 0xA5 true } false 5 0x41 ∧
    base.Claims { farWatch with direction := .write 0xA5 true } true 5 0x41 ∧ passesCheck 0xA5 true = false := by
  decide +kernel

/-- FailedCheckAndEmptyLanesAreRefused: accesses with no lane and no failed check. -/
theorem test_witness_no_lanes : base.Claims { farRead with lanes := 0 } false 5 0x41 ∧
    base.Claims { farWrite with lanes := 0 } false 5 0x41 ∧ passesCheck 0xA5 (correctCheck 0xA5) = true ∧
    base.Claims { farWatch with lanes := 0 } true 5 0x41 := by decide +kernel

theorem test_witness_watch_write : base.rstAsserted = false ∧ base.params.aperturesOpen = true ∧
    decodeAddress base.bsel (watchAt 5 8) = .watch 5 2 ∧ passesCheck 1 true = true ∧ (1 : Lanes) ≠ 0 := by
  decide +kernel

/-- The three refusals before matching are passed by a far read, a far write and a watch read. -/
theorem test_witness_passes_refusals :
    farRead.PassesRefusals false ∧ farWrite.PassesRefusals false ∧ farWatch.PassesRefusals true := by
  refine ⟨⟨?_, by decide, by decide⟩, ⟨?_, by decide, by decide⟩, ⟨?_, by decide, by decide⟩⟩
  · intro data check h; cases h
  · intro data check h; cases h; rfl
  · intro data check h; cases h

/-- RepeatMeetsUnfinishedRecord, with a record of each kind. -/
theorem test_witness_repeat :
    (∀ r ∈ [readRecord, { readRecord with state := .backoff, timer := 3 }],
      (holding r).Claims farRead false 5 0x41 ∧ (holding r).KeysUnique ∧ ((holding r).record 0).live ∧
      ((holding r).record 0).state ≠ .ready ∧ ((holding r).record 0).key = farRead.key false 5 0x41) ∧
    ((inFlight writeRecord 8).record 0).key = farWrite.key false 5 0x41 ∧
    ((holding watchRecord).record 0).key = farWatch.key true 5 0x41 ∧
    (holding watchRecord).Claims farWatch true 5 0x41 ∧ (holding watchRecord).KeysUnique := by decide +kernel

theorem test_witness_live_record : ((holding readRecord).record 0).live := by decide +kernel

/-- ReadyRecordIsCollected, with each outcome that a READ record takes, and the two that others take. -/
theorem test_witness_collected :
    (∀ o ∈ [RecordOutcome.ok, .tainted, .rejected, .noStation, .exhausted],
      (holding (readyRecord o 0)).Claims farRead false 5 0x41 ∧ (holding (readyRecord o 0)).KeysUnique ∧
      ((holding (readyRecord o 0)).record 0).state = .ready ∧
      ((holding (readyRecord o 0)).record 0).key = farRead.key false 5 0x41 ∧
      ((holding (readyRecord o 0)).record 0).outcome = some o) ∧
    (let r := { watchRecord with state := .ready, timer := 1, outcome := some .expired };
      (holding r).Claims farWatch true 5 0x41 ∧ (holding r).KeysUnique ∧
      ((holding r).record 0).key = farWatch.key true 5 0x41) := by decide +kernel

/-- AdmissionRefusesInOrder: a quota of 0, each closed mode, and a SIDE station. -/
theorem test_witness_admission :
    (let s := base.setRequester 2 { base.requesterEntry 2 with quota := 0 };
      s.Claims farRead false 5 0x41 ∧ s.NoMatch (farRead.key false 5 0x41) ∧
      (s.requesterEntry farRead.requester).quota = 0) ∧
    (base.requesterEntry 2).quota ≠ 0 ∧ ¬ base.InService 7 ∧ ¬ base.InService 8 ∧
    base.Claims { farRead with address := farAt 7 0 } false 7 0 ∧
    base.NoMatch (({ farRead with address := farAt 7 0 } : NearAccess).key false 7 0) ∧
    base.Claims { farWatch with address := watchAt 9 0 } true 9 0 ∧ base.InService 9 ∧
    (base.stationEntry 9).cls = .side ∧
    base.NoMatch (({ farWatch with address := watchAt 9 0 } : NearAccess).key true 9 0) := by decide +kernel

/-- NewRequestIsTurnedAway: live records at the quota, and a full table below it. -/
theorem test_witness_turned_away :
    (let s := (holding { readRecord with offset := 0 }).setRequester 2
        { (holding readRecord).requesterEntry 2 with quota := 1 };
      s.Claims farRead false 5 0x41 ∧ s.NoMatch (farRead.key false 5 0x41) ∧ s.InService 5 ∧
      (s.requesterEntry 2).quota ≠ 0 ∧ (s.requesterEntry 2).quota.toNat ≤ (s.requesterEntry 2).live) ∧
    full.Claims farRead false 5 0x41 ∧ full.NoMatch (farRead.key false 5 0x41) ∧ full.InService 5 ∧
    (full.requesterEntry 2).quota ≠ 0 ∧ ∀ i : Slot, (full.record i).live := by decide +kernel

/-- FarAccessIsEntered with slot 0 taken, so the lowest FREE slot is 1, and the last record under the quota. -/
theorem test_witness_entered :
    let s := (holding { readRecord with offset := 0 }).setRequester 2
      { (holding readRecord).requesterEntry 2 with quota := 2 }
    s.Claims farWrite false 5 0x41 ∧ s.NoMatch (farWrite.key false 5 0x41) ∧ s.InService 5 ∧
    (s.requesterEntry 2).quota ≠ 0 ∧ (s.requesterEntry 2).live < (s.requesterEntry 2).quota.toNat ∧
    (s.record 1).state = .free ∧ ∀ j : Slot, j < 1 → (s.record j).live := by decide +kernel

theorem test_witness_watch_entered : base.Claims farWatch true 5 0x41 ∧ farWatch.lanes ≠ 0 ∧
    base.NoMatch (farWatch.key true 5 0x41) ∧ base.InService 5 ∧ (base.stationEntry 5).cls = .plain ∧
    (base.requesterEntry 2).quota ≠ 0 ∧ (base.requesterEntry 2).live < (base.requesterEntry 2).quota.toNat ∧
    (base.record 0).state = .free ∧ ∀ j : Slot, j < 0 → (base.record j).live := by decide +kernel

/-- NoEntryAtOrAboveQuota: a command that enters a record. -/
theorem test_witness_quota_law : base.LiveExact ∧ (base.record 0).state = .free ∧
    exec (.farAccess farRead) base = .next (after (.farAccess farRead) base) ∧
    ((after (.farAccess farRead) base).record 0).live :=
  ⟨by decide +kernel, by decide +kernel, rfl, by decide +kernel⟩

/-- ValidFaultKeepsItsDetail: a second report, a clear, and a command that is no near transfer. -/
theorem test_witness_valid_fault :
    let s := base.report 2 .barred .far 5 1
    (s.requesterEntry 2).fault.valid = true ∧
    ((after (.watchApertureWrite 2 (watchAt 5 8) 1 1 true) s).requesterEntry 2).fault.further = 1 ∧
    ((after (.faultClear 2 (put 2 8 0x80000000)) s).requesterEntry 2).fault = .clear ∧ Instr.tick.nearBus = false ∧
    (Instr.clear 0).commandBytes.isSome = true := by decide +kernel

/-- ValidFaultKeepsItsDetail: the clear by its row, by REGISTER_WRITE of the word, and by the access that spells it. -/
theorem test_witness_clears_fault : base.ClearsFault (.faultClear 2 (put 2 8 0x80000000)) 2 ∧
    base.ClearsFault (.registerWrite (registerAt (.faultOffset 2)) (put 0 8 0x80000000)) 2 ∧
    base.ClearsFault (.farAccess
      { requester := 2, address := windowAt 0x24C, lanes := 8, direction := .write 0x80000000 true }) 2 :=
  ⟨⟨_, put 2 8 0x80000000, rfl, by decide +kernel⟩, ⟨_, put 0 8 0x80000000, rfl, by decide +kernel⟩,
    ⟨registerAt (.faultOffset 2), put 2 8 0x80000000, by decide +kernel⟩⟩

/-- RegisterMapIsExact at both ends of the map. -/
theorem test_witness_register_map : Register.globalControl ≠ .absent ∧ Register.enablesB ≠ .absent ∧
    registerOf 0 ≠ .absent ∧ registerOf 0xC3 ≠ .absent := by decide +kernel

/-- ReadWordsFollowTheLayout: the ranges of the counts in a full table and of the ranks. -/
theorem test_witness_read_words : full.summary.live = 24 ∧ full.summary.pending = 24 ∧ full.summary.attempt < 2 ∧
    full.summary.backoff < 32 ∧ full.summary.watch < 32 ∧ full.summary.ready < 32 ∧
    (after (.view 23) full).command.view.rank = 23 ∧ (full.requesterEntry 1).live < 256 := by decide +kernel

/-- WindowReadChangesNothing: the first and the last word of the window. -/
theorem test_witness_window_read : base.rstAsserted = false ∧
    decodeAddress base.bsel (windowAt 0) = .control 0 ∧ decodeAddress base.bsel (windowAt 0xFFC) = .control 0x3FF := by
  decide +kernel

/-- WindowWriteNeedsTheRight: a failed check, and another requester's write just below and just above its own words. -/
theorem test_witness_no_right : passesCheck 0 true = false ∧ passesCheck 0 false = true ∧ (1 : Requester) ≠ base.own ∧
    (Instr.registerWrite (registerAt (.faultStatus 1)) (put 1 1 0)).windowWord =
      some (registerAt (.faultStatus 1), put 1 1 0) ∧
    (registerAt (.faultStatus 1)).toNat * 4 = 0x228 ∧ 0x228 < 0x20C + 0x20 * (1 : Requester).val ∧
    (registerAt (.requesterCounts 2)).toNat * 4 = 0x240 ∧ 0x21C + 0x20 * (1 : Requester).val < 0x240 := by
  decide +kernel

/-- The writes of the window are taken: of every word from the owner, of its own words from another requester. -/
theorem test_witness_takes : (∀ o : WindowOffset, base.Takes (registerOf o) (put 0 15 0)) ∧
    (∀ q : Requester, base.Takes (.faultOffset q) (put q 8 0x80000000) ∧
      base.Takes (setupRegister q .mode) (put q 1 1) ∧ base.Takes (setupRegister q .pollLimit) (put q 3 1)) ∧
    base.Takes (flagsRegister .b) (put 0 3 0xFFFF) ∧ base.Takes (enablesRegister .b) (put 0 3 0xFFFF) := by
  decide +kernel

/-- SilenceLimitWrite: the least and the greatest limit, and the two forms that store nothing. -/
theorem test_witness_silence_limit : ((1 : Word).extractLsb' 0 4) ≠ 0 ∧ ((15 : Word).extractLsb' 0 4) ≠ 0 ∧
    ((16 : Word).extractLsb' 0 4) = 0 ∧ (1 : Lanes).getLsbD 0 = true ∧ (14 : Lanes).getLsbD 0 = false := by decide

/-- ModeWriteWithoutClosure and WritingOffClosesTheStation: the modes and codes of each clause. -/
theorem test_witness_mode_write : (base.stationEntry 5).mode = .active ∧ (base.stationEntry 6).mode = .suspended ∧
    (base.stationEntry 7).mode = .unreachable ∧ (base.stationEntry 8).mode = .off ∧
    (∀ code : BitVec 2, ((put 0 1 (code.setWidth 32)).data.extractLsb' 0 2) = code) ∧
    (∀ code : BitVec 2, ∀ st : Station, base.Takes (.stationMode st) (put 0 1 (code.setWidth 32))) ∧
    base.InService 5 ∧ base.InService 6 ∧ base.Takes (.stationMode 5) (put 0 2 0x100) ∧
    (put 0 2 0x100).lanes.getLsbD 0 = false := by decide +kernel

/-- The class is written alone by REGISTER_WRITE of the mode and class word (R134). -/
theorem test_class_write :
    (after (.registerWrite (registerAt (.stationMode 5)) (put 0 2 0x100)) base).stationEntry 5 =
      { StationEntry.afterReset with mode := .active, cls := .side } := by decide +kernel

/-- StoredFieldsKeepTheirRange: a quota of 24 and of 25, and the bytes that are not stored. -/
theorem test_witness_stored_fields : ((0x18000000 : Word).extractLsb' 24 8).toNat ≤ 24 ∧
    ¬ ((0x19000000 : Word).extractLsb' 24 8).toNat ≤ 24 ∧ (8 : Lanes).getLsbD 3 = true := by decide

/-- OtherWordsKeepTheirValues: words of each form, and a command that the written bytes name. -/
theorem test_witness_other_words : registerOf 0x3FF = .absent ∧ registerOf (registerAt .tableSummary) = .tableSummary ∧
    registerOf (registerAt (.view 8)) = .view 8 ∧ registerOf (registerAt (.faultStatus 7)) = .faultStatus 7 ∧
    registerOf (registerAt .command) = .command ∧
    (Instr.readmit 7).commandBytes =
      some ((put 0 3 0x0705).data.extractLsb' 0 8, (put 0 3 0x0705).data.extractLsb' 8 8) := by decide

theorem test_witness_busy : (marked 8).rstAsserted = false ∧ (marked 8).command.busy = true ∧
    (Instr.view 0).commandBytes.isSome = true := by decide +kernel

/-- CommandChecksComeFirst: the codes 00h and 07h, and the first operand out of range of each command. -/
theorem test_witness_command_checks : base.CommandIdle ∧ (0 : Byte) = 0 ∧ 6 < (7 : Byte).toNat ∧
    24 ≤ (24 : Byte).toNat ∧ 8 ≤ (8 : Byte).toNat ∧ 16 ≤ (16 : Byte).toNat := by decide +kernel

/-- ViewTakesASnapshot and WithdrawActsOnTheSlot: the last slot, and a slot of each form. -/
theorem test_witness_slot_commands : base.CommandIdle ∧ (23 : Byte).toNat = (23 : Slot).val ∧
    (base.record 23).state = .free ∧ (holding readRecord).CommandIdle ∧ ((holding readRecord).record 0).live ∧
    ((holding readRecord).record 0).state ≠ .attempt ∧ (inFlight readRecord 8).CommandIdle ∧
    ((inFlight readRecord 8).record 0).state = .attempt := by decide +kernel

/-- WithdrawingManyRecords: with a record in ATTEMPT among those reached, and without. -/
theorem test_witness_withdraw_many : (inFlight readRecord 8).CommandIdle ∧ (inFlight readRecord 8).order.Nodup ∧
    (∀ i j : Slot, ((inFlight readRecord 8).record i).state = .attempt →
      ((inFlight readRecord 8).record j).state = .attempt → i = j) ∧
    (inFlight readRecord 8).Reached none 0 ∧ (inFlight readRecord 8).Reached (some 2) 0 ∧
    (∀ i : Slot, ¬ ((inFlight readRecord 8).Reached (some 1) i ∧ ((inFlight readRecord 8).record i).state = .attempt)) ∧
    (7 : Byte).toNat = (7 : Requester).val := by decide +kernel

theorem test_witness_readmit : base.CommandIdle ∧ (7 : Byte).toNat = (7 : Station).val ∧
    (base.stationEntry 7).mode = .unreachable ∧ (base.stationEntry 5).mode ≠ .unreachable := by decide +kernel

theorem test_witness_far_reset : base.far.link = .idle ∧ State.reset.CommandIdle ∧ State.reset.far.link = .reset ∧
    (inFlight readRecord 8).CommandIdle ∧ (inFlight readRecord 8).far.link = .await ∧
    (inFlight readRecord 8).far.transaction.slot = 0 ∧ ((inFlight readRecord 8).record 0).state = .attempt := by
  decide +kernel

set_option synthInstance.maxSize 4000 in
/-- ChoiceHandsOverByRotationAndAge: the older of two eligible records of a station, and no eligible record. -/
theorem test_witness_choice :
    let s := (holding readRecord).enterRecord 1 { readRecord with requester := 3 }
    (s.rstAsserted = false ∧ s.FieldsExact ∧ s.OrderExact ∧ s.MayBeAttempted 0 ∧ s.MayBeAttempted 1 ∧ s.IsChosen 0) ∧
    (base.FieldsExact ∧ base.OrderExact ∧ ∀ i : Slot, ¬ base.MayBeAttempted i) :=
  ⟨⟨by decide +kernel, ⟨by decide +kernel, by decide +kernel, by decide +kernel, by decide +kernel⟩, by decide +kernel,
      by decide +kernel, by decide +kernel, by decide +kernel⟩,
    ⟨by decide +kernel, by decide +kernel, by decide +kernel, by decide +kernel⟩, by decide +kernel, by decide +kernel⟩

/-- The link in REQUEST, and out of it (RequestIsDrivenThenAwaited, UnacceptedReplyOnlyCounts). -/
theorem test_witness_request : (after .choice (holding readRecord)).rstAsserted = false ∧
    (after .choice (holding readRecord)).far.link = .request ∧ base.far.link ≠ .request ∧
    (after .choice (holding readRecord)).far.transaction.station ≠ 9 ∧
    (after .choice (holding readRecord)).far.transaction.station = 5 ∧
    (inFlight readRecord 8).far.transaction.tag ≠ 1 := by decide +kernel

/-- A transaction in AWAIT of a READ, of a WRITE and of a watch, none of them marked. -/
theorem test_witness_awaits : ∀ r ∈ [readRecord, writeRecord, watchRecord],
    (inFlight r 0).Awaits 0 ∧ ((inFlight r 0).record 0).withdrawn = false ∧ (inFlight r 0).far.replyTimer = 0 := by
  decide +kernel

/-- The kinds of the records of the reply statements, and words with a check that passes and one that fails. -/
theorem test_witness_replies : ((inFlight readRecord 8).record 0).kind = .read ∧
    ((inFlight writeRecord 8).record 0).kind = .write ∧ ((inFlight watchRecord 8).record 0).kind = .watch ∧
    passesCheck 3 false = true ∧ passesCheck 3 true = false := by decide +kernel

/-- HoldIsCountedAgainstTheBudget: the hold that reaches the budget of 32, and the one before. -/
theorem test_witness_hold : let held := fun n : BitVec 8 => if n = 255 then 255 else n + 1
    base.params.holdBudget ≤ held 31 ∧ held 30 < base.params.holdBudget ∧ base.params.holdBudget ≤ held 255 := by
  decide +kernel

/-- PollReplyIsCompared: a bit of the mask that differs, none that differs at the limit, and none below it. -/
theorem test_witness_poll :
    let r := { watchRecord with pollCount := 2 }
    (r.captured = true ∧ ∃ k : Fin 32, r.mask.getLsbD k = true ∧ (1 : Word).getLsbD k ≠ r.reference.getLsbD k) ∧
    (∀ k : Fin 32, ¬ (r.mask.getLsbD k = true ∧ (2 : Word).getLsbD k ≠ r.reference.getLsbD k)) ∧ r.pollLimit ≠ 0 ∧
    r.pollCount + 1 = r.pollLimit ∧ watchRecord.pollCount + 1 ≠ watchRecord.pollLimit := by decide +kernel

/-- SilenceIsCounted and SilenceLimitLosesTheStation: below the limit, at it, at an OFF station, and not due. -/
theorem test_witness_silence :
    let below := withSilences (inFlight readRecord 0) 1 3
    let reaches := withSilences (inFlight readRecord 0) 2 3
    let off := withMode (inFlight readRecord 0) .off
    below.Awaits 0 ∧ below.InService 5 ∧ (below.stationEntry 5).silences.toNat + 1 < below.params.silenceLimit.toNat ∧
    reaches.Awaits 0 ∧ reaches.InService 5 ∧ (reaches.record 0).withdrawn = false ∧
    reaches.params.silenceLimit.toNat ≤ (reaches.stationEntry 5).silences.toNat + 1 ∧
    off.Awaits 0 ∧ (off.stationEntry 5).mode = .off ∧ (inFlight readRecord 8).far.replyTimer ≠ 0 := by decide +kernel

theorem test_witness_marked : (marked 0).Awaits 0 ∧ ((marked 0).record 0).withdrawn = true ∧
    (marked 0).command.wait = .slot 0 ∧ (marked 0).far.replyTimer = 0 := by decide +kernel

/-- MarkedRecordIsFreed: a silence below the limit, at it, and at an OFF station. -/
theorem test_witness_marked_silence :
    let below := withSilences (marked 0) 1 3
    let reaches := withSilences (marked 0) 2 3
    let off := withMode (marked 0) .off
    below.Awaits 0 ∧ below.command.wait = .slot 0 ∧ below.InService 5 ∧
    (below.stationEntry 5).silences.toNat + 1 < below.params.silenceLimit.toNat ∧
    reaches.Awaits 0 ∧ (reaches.record 0).withdrawn = true ∧ reaches.InService 5 ∧
    reaches.params.silenceLimit.toNat ≤ (reaches.stationEntry 5).silences.toNat + 1 ∧
    off.Awaits 0 ∧ off.command.wait = .slot 0 ∧ (off.stationEntry 5).mode = .off := by decide +kernel

/-- The silence at the limit of a marked record: no READY notice, and the station lost (R99, R130). -/
theorem test_marked_silence_at_limit :
    let t := after .silent (withSilences (marked 0) 2 3)
    t.flags = { Notices.none with lost := 1#16 <<< 5, cmdDone := true } ∧ t.record 0 = .free ∧
    t.summary = Summary.zero ∧ (t.stationEntry 5).mode = .unreachable := by decide +kernel

/-- FarResetEnds: with a command that waits, with none, and before the timer has run out. -/
theorem test_witness_far_reset_end :
    let s := { State.reset with far := { State.reset.far with resetTimer := 0 } }
    let w := s.setCommand { s.command with busy := true, lastCode := 6, wait := .farReset }
    s.rstAsserted = false ∧ s.far.link = .reset ∧ s.far.resetTimer = 0 ∧ s.command.wait ≠ .farReset ∧
    w.far.link = .reset ∧ w.far.resetTimer = 0 ∧ w.command.wait = .farReset ∧ State.reset.far.resetTimer ≠ 0 := by
  decide +kernel

theorem test_witness_tick : (inFlight readRecord 8).rstAsserted = false ∧ (inFlight readRecord 8).NothingDue ∧
    State.reset.NothingDue := by decide +kernel

/-- ExpiriesMoveTheirRecords: an expiry of each kind, and none. -/
theorem test_witness_expiries :
    (∀ r ∈ [{ readRecord with state := .backoff, timer := 1 }, { watchRecord with timer := 1 },
        { readyRecord .ok 7 with timer := 1 }],
      ((after .tick (holding r)).record 0).expiring = true ∧ ((after .tick (holding r)).record 0).state = r.state) ∧
    (base.record 0).expiring = false := by decide +kernel

/-- NoticeIsAnEnabledFlag: the premise of its second clause. -/
theorem test_witness_notice :
    (State.atReset true 0 0 []).HeldInReset ∧ (State.atReset true 0 0 []).rstAsserted = true := by
  decide +kernel

end Sys2Proof.Tests
end

