-- ==== Sys2Proof/Proofs/WatchApertureWrite.lean ====
section
/-! PROOF. A write to the watch aperture (R32): of the refusals before matching it meets the third, BADWATCH. -/

namespace Sys2Proof.Machine

/-- The third refusal (R32): a write in the watch aperture that the near check and the lanes let through. -/
theorem State.apertureAccess_of_watch_write (s : State) {a : ApertureAccess} {data : Word} {check : Bool}
    (hwatch : a.isWatch = true) (hwrite : a.direction = .write data check)
    (hcheck : passesCheck data check = true) (hlanes : a.lanes ≠ 0) :
    s.apertureAccess a = s.faultAccess a .badWatch := by
  have hpasses : nearCheckPasses a.direction = true := by simpa [hwrite, nearCheckPasses] using hcheck
  have hnotRead : isReadDirection a.direction = false := by simp [isReadDirection_eq, hwrite]
  rw [State.apertureAccess, hpasses, hwatch, hnotRead, if_neg (by decide), if_neg hlanes]
  rfl

/-- The near access behind the refusal: its row answers FAULT with the report of R33. -/
theorem exec_of_watch_write {s : State} {n : NearAccess} {st : Station} {o : WordOffset} {data : Word} {check : Bool}
    (hclaims : s.Claims n true st o) (hwrite : n.direction = .write data check)
    (hcheck : passesCheck data check = true) (hlanes : n.lanes ≠ 0) :
    exec (n.command true) s =
      .next { s.report n.requester .badWatch .watch st o with answer := n.bareAnswer .fault } := by
  have hrefused : s.apertureAccess (apertureAccessOf n true st o) =
      s.faultAccess (apertureAccessOf n true st o) .badWatch :=
    s.apertureAccess_of_watch_write rfl hwrite hcheck hlanes
  rw [exec_of_claims hclaims, hrefused, faultAccess_eq]
  rfl

/-- Settles O11: WATCH_APERTURE_WRITE carries a near write, which is claimed and meets the refusal of R32. -/
theorem watchApertureWriteIsRefused : Obligations.WatchApertureWriteIsRefused := by
  unfold Obligations.WatchApertureWriteIsRefused
  intro s q a lanes data check st o hrst hopen haddress hcheck hlanes
  have hclaims : s.Claims { requester := q, address := a, lanes := lanes, direction := .write data check } true st o :=
    ⟨hrst, hopen, haddress⟩
  exact exec_of_watch_write hclaims rfl hcheck hlanes

end Sys2Proof.Machine
end

