-- ==== Sys2Proof/Proofs/TableMoves.lean ====
section
/-! PROOF. What a step can do to the slots and the entry order, said once: a run of four kinds of move. A law of the
Request Table is kept by every step once each move keeps it. -/

namespace Sys2Proof.Machine

/-! ### The moves -/

/-- A READ or WRITE record that has begun its attempts and is not yet READY: in ATTEMPT or BACKOFF (R55). -/
def Record.underway (r : Record) : Prop := r.kind ≠ .watch ∧ (r.state = .attempt ∨ r.state = .backoff)

/-- The content `r` may follow the record of slot `i` while the entry order stands: it is live as before, its kind and
pair stay, READY is left by freeing only, and attempts begin only at the head of the pair (R4, R54). -/
structure State.Advances (s : State) (i : Slot) (r : Record) : Prop where
  live : r.live ↔ (s.record i).live
  kind : r.kind = (s.record i).kind
  requester : r.requester = (s.record i).requester
  station : r.station = (s.record i).station
  ready : (s.record i).state = .ready → r.state = .ready
  underway : r.underway → (s.record i).underway ∨ s.headOfPair i = true

/-- One move of the Request Table, from the slots and order of `s` to those of `t`. -/
inductive State.TableMove (s t : State) : Prop
  /-- Records advance, and the entry order stands. -/
  | advance (order : t.order = s.order) (records : ∀ i, s.Advances i (t.record i))
  /-- A new record enters a FREE slot at the young end of the order (R20). -/
  | enter (i : Slot) (order : t.order = s.order ++ [i]) (wasFree : (s.record i).state = .free)
      (waits : (t.record i).state = .pending ∨ (t.record i).state = .watch)
      (others : ∀ j, j ≠ i → t.record j = s.record j)
  /-- A record is removed, and leaves the order (R21). -/
  | remove (i : Slot) (order : t.order = s.order.erase i) (isFree : (t.record i).state = .free)
      (others : ∀ j, j ≠ i → t.record j = s.record j)
  /-- Chip reset clears all records (R22). -/
  | clear (order : t.order = []) (allFree : ∀ i, (t.record i).state = .free)

/-- The slots and order of `t` come from those of `s` by moves. -/
def State.TableRun : State → State → Prop := Relation.ReflTransGen State.TableMove

/-! ### Advancing one record, or none -/

/-- A content that keeps state, kind and pair advances. -/
theorem State.Advances.of_sameState {s : State} {i : Slot} {r : Record} (hstate : r.state = (s.record i).state)
    (hkind : r.kind = (s.record i).kind) (hrequester : r.requester = (s.record i).requester)
    (hstation : r.station = (s.record i).station) : s.Advances i r where
  live := by rw [Record.live, hstate]
  kind := hkind
  requester := hrequester
  station := hstation
  ready := hstate.trans
  underway := by simp only [Record.underway, hstate, hkind]; exact .inl

theorem State.Advances.refl (s : State) (i : Slot) : s.Advances i (s.record i) := .of_sameState rfl rfl rfl rfl

theorem State.TableRun.refl (s : State) : s.TableRun s := Relation.ReflTransGen.refl

theorem State.TableRun.trans {s t u : State} (hst : s.TableRun t) (htu : t.TableRun u) : s.TableRun u :=
  Relation.ReflTransGen.trans hst htu

theorem State.TableMove.run {s t : State} (h : s.TableMove t) : s.TableRun t := Relation.ReflTransGen.single h

/-- States with the same slots and order are joined by the move in which no record changes. -/
theorem State.TableRun.of_sameTable {s t : State} (hslots : t.slots = s.slots := by rfl)
    (horder : t.order = s.order := by rfl) : s.TableRun t := by
  have hrecord : ∀ i, t.record i = s.record i := fun i => by rw [State.record, hslots]; rfl
  exact (TableMove.advance horder fun i => hrecord i ▸ .refl s i).run

/-- A run goes on through a change outside the slots and the order. -/
theorem State.TableRun.quiet {s t u : State} (h : s.TableRun t) (hslots : u.slots = t.slots := by rfl)
    (horder : u.order = t.order := by rfl) : s.TableRun u :=
  h.trans (.of_sameTable hslots horder)

/-- A run to the next state that a meaning answers is a run to the state of the outcome. -/
theorem State.TableRun.of_next {s t u : State} (h : s.TableRun u)
    (hnext : (.next u : Host.Outcome State Fault Refusal) = .next t) : s.TableRun t :=
  Host.Outcome.next.inj hnext ▸ h

/-- A fold runs when each of its steps does. -/
theorem State.TableRun.foldl {f : State → Slot → State} (h : ∀ (s : State) i, s.TableRun (f s i)) (l : List Slot)
    (s : State) : s.TableRun (l.foldl f s) :=
  foldl_induct f s.TableRun (fun t i ht => ht.trans (h t i)) l s (.refl s)

theorem State.setRecord_tableRun {s : State} {i : Slot} {r : Record} (h : s.Advances i r) :
    s.TableRun (s.setRecord i r) := by
  refine TableMove.run (.advance rfl fun j => ?_)
  rw [setRecord_record]
  split
  case isTrue hji => exact hji ▸ h
  case isFalse => exact .refl s j

/-! ### A run goes on through the operations outside the table -/

section Quiet

variable {s t : State} (h : s.TableRun t)
include h

theorem State.TableRun.setFlags (n : Notices) : s.TableRun (t.setFlags n) := h.quiet

theorem State.TableRun.setRequester (q : Requester) (e : RequesterEntry) : s.TableRun (t.setRequester q e) := h.quiet

theorem State.TableRun.setPointer (st : Station) : s.TableRun (t.setPointer st) := h.quiet

theorem State.TableRun.setFar (f : FarPort) : s.TableRun (t.setFar f) := h.quiet

theorem State.TableRun.setAnswer (a : NearAnswer) : s.TableRun (t.setAnswer a) := h.quiet

theorem State.TableRun.clearSilences : s.TableRun t.clearSilences := h.quiet

theorem State.TableRun.complete (result : CommandResult) : s.TableRun (t.complete result) := h.quiet

theorem State.TableRun.startWait (wait : CommandWait) : s.TableRun (t.startWait wait) := h.quiet

theorem State.TableRun.reportAccess (a : ApertureAccess) (reason : FaultReason) : s.TableRun (t.reportAccess a reason) :=
  h.quiet

theorem State.TableRun.faultAccess (a : ApertureAccess) (reason : FaultReason) : s.TableRun (t.faultAccess a reason) :=
  h.quiet

theorem State.TableRun.retryAccess (a : ApertureAccess) : s.TableRun (t.retryAccess a) := h.quiet

end Quiet

/-! ### The shared operations -/

theorem State.freeRecord_tableRun (s : State) (i : Slot) : s.TableRun (s.freeRecord i) := by
  by_cases hlive : (s.record i).live
  · refine (TableMove.remove i (s.freeRecord_order i hlive) ?_ fun j hj => ?_).run
    · simp [freeRecord_record, hlive, Record.free]
    · simp [freeRecord_record, hj]
  · rw [s.freeRecord_of_free i (not_not.1 hlive)]
    exact .refl s

theorem State.enterRecord_tableRun {s : State} {i : Slot} {r : Record} (hfree : (s.record i).state = .free)
    (hwaits : r.state = .pending ∨ r.state = .watch) : s.TableRun (s.enterRecord i r) := by
  refine (TableMove.enter i rfl hfree ?_ fun j hj => ?_).run
  · simpa [enterRecord_eq] using hwaits
  · simp [enterRecord_eq, hj]

theorem State.toReady_tableRun {s : State} {i : Slot} (hlive : (s.record i).live) (o : RecordOutcome) (d : Word) :
    s.TableRun (s.toReady i o d) := by
  have hready : s.Advances i ((s.record i).finished s.params.collectionLimit o d) :=
    { live := by simp [Record.finished, hlive], kind := rfl, requester := rfl, station := rfl
      ready := fun _ => rfl, underway := by simp [Record.underway, Record.finished] }
  exact (setRecord_tableRun hready).setFlags _

theorem closeSlot_tableRun (st : Station) (s : State) (i : Slot) : s.TableRun (closeSlot st s i) := by
  unfold closeSlot
  split
  case isTrue h =>
    have hlive : (s.record i).live := by
      intro hfree
      simp [Record.closedWith, hfree] at h
    exact State.toReady_tableRun hlive _ _
  case isFalse => exact .refl s

theorem State.closeStation_tableRun (s : State) (st : Station) : s.TableRun (s.closeStation st) :=
  .foldl (closeSlot_tableRun st) _ s

/-- A station's entry changes and the station closes, in one event (R127). -/
theorem State.setStation_closeStation_tableRun (s : State) (st : Station) (e : StationEntry) :
    s.TableRun ((s.setStation st e).closeStation st) :=
  .trans .of_sameTable (closeStation_tableRun _ st)

/-! ### The end of an attempt -/

theorem State.countSilence_tableRun (s : State) (st : Station) : s.TableRun (s.countSilence st) := by
  unfold countSilence
  dsimp only
  split
  · exact .refl s
  · split
    · exact (s.setStation_closeStation_tableRun st _).setFlags _
    · exact .of_sameTable

theorem State.acceptReply_tableRun (s : State) (st : Station) : s.TableRun (s.acceptReply st) := by
  unfold acceptReply
  split <;> exact .of_sameTable

theorem State.stationPart_tableRun (s : State) (st : Station) (e : AttemptEnd) : s.TableRun (s.stationPart st e) := by
  cases e with
  | silent => exact s.countSilence_tableRun st
  | clean _ | tainted _ | hold | reject => exact s.acceptReply_tableRun st

/-- The result of an end leaves of a record all but the reference, the captured flag and the two counts (R91, R111). -/
theorem Record.endResult_frame (r : Record) (budget : BitVec 8) (e : AttemptEnd) :
    ∃ reference captured pollCount holdCount, (r.endResult budget e).1 =
      { r with reference := reference, captured := captured, pollCount := pollCount, holdCount := holdCount } := by
  unfold endResult
  split
  case h_1 | h_2 | h_3 => cases e <;> exact ⟨_, _, _, _, rfl⟩

/-- A record sent back to wait is in WATCH or BACKOFF as its kind asks, and keeps its kind and pair (R95, R115). -/
theorem State.returned_advances {s : State} {i : Slot} (h : (s.record i).state = .attempt) (e : StationEntry) :
    s.Advances i ((s.record i).returned e) := by
  have hbegun (hkind : (s.record i).kind ≠ .watch) : (s.record i).underway := ⟨hkind, .inl h⟩
  unfold Record.returned
  split
  case h_1 hkind =>
    exact { live := by simp [h], kind := rfl, requester := rfl, station := rfl, ready := by simp [h]
            underway := fun hu => absurd hkind hu.1 }
  case h_2 hkind | h_3 hkind =>
    exact { live := by simp [h], kind := rfl, requester := rfl, station := rfl, ready := by simp [h]
            underway := fun _ => .inl (hbegun (by simp [hkind])) }

theorem State.returnRecord_tableRun {s : State} {i : Slot} (h : (s.record i).state = .attempt) :
    s.TableRun (s.returnRecord i) := by
  unfold returnRecord
  dsimp only
  split
  · exact toReady_tableRun (by simp [h]) _ _
  · exact setRecord_tableRun (returned_advances h _)

theorem State.applyEnd_tableRun {s : State} {i : Slot} (h : (s.record i).state = .attempt) (e : AttemptEnd) :
    s.TableRun (s.applyEnd i e) := by
  unfold applyEnd
  obtain ⟨_, _, _, _, hframe⟩ := (s.record i).endResult_frame s.params.holdBudget e
  dsimp only
  generalize (s.record i).endResult s.params.holdBudget e = p at hframe ⊢
  have hrun : s.TableRun (s.setRecord i p.1) := setRecord_tableRun (by rw [hframe]; exact .of_sameState rfl rfl rfl rfl)
  have hattempt : ((s.setRecord i p.1).record i).state = .attempt := by simp [hframe, h]
  split
  · exact hrun.trans (toReady_tableRun (by rw [Record.live, hattempt]; decide) _ _)
  · exact hrun.trans (returnRecord_tableRun hattempt)

theorem State.freeMarked_tableRun (s : State) (i : Slot) : s.TableRun (s.freeMarked i) := by
  unfold freeMarked
  dsimp only
  split
  · exact (s.freeRecord_tableRun i).complete .ok
  · exact s.freeRecord_tableRun i

theorem State.endRecord_tableRun (s : State) (i : Slot) (e : AttemptEnd) : s.TableRun (s.endRecord i e) := by
  unfold endRecord
  split
  case isTrue h =>
    split
    · exact s.freeMarked_tableRun i
    · exact applyEnd_tableRun h e
  case isFalse => exact .refl s

theorem State.endTransaction_tableRun (s : State) (e : AttemptEnd) : s.TableRun (s.endTransaction e) :=
  (TableRun.trans .of_sameTable (stationPart_tableRun _ _ e)).trans (endRecord_tableRun _ _ e)

/-! ### The Command Unit -/

theorem State.withdrawRecord_tableRun (s : State) (i : Slot) : s.TableRun (s.withdrawRecord i) := by
  unfold withdrawRecord
  split
  · exact setRecord_tableRun (.of_sameState rfl rfl rfl rfl)
  · exact s.freeRecord_tableRun i

theorem State.withdrawSlot_tableRun (s : State) (i : Slot) : s.TableRun (s.withdrawSlot i) := by
  unfold withdrawSlot
  split
  case h_1 => exact .of_sameTable
  case h_2 => exact (s.withdrawRecord_tableRun i).startWait _
  case h_3 | h_4 | h_5 | h_6 => exact (s.withdrawRecord_tableRun i).complete .ok

theorem withdrawOne_tableRun (q : Option Requester) (s : State) (i : Slot) : s.TableRun (withdrawOne q s i) := by
  unfold withdrawOne
  split
  · exact s.withdrawRecord_tableRun i
  · exact .refl s

theorem State.withdrawMany_tableRun (s : State) (q : Option Requester) : s.TableRun (s.withdrawMany q) := by
  have hall := State.TableRun.foldl (withdrawOne_tableRun q) (List.finRange 24) s
  unfold withdrawMany
  dsimp only
  split
  · exact hall.complete .ok
  · exact hall.startWait _

theorem State.readmitStation_tableRun (s : State) (st : Station) : s.TableRun (s.readmitStation st) := by
  unfold readmitStation
  split <;> exact .of_sameTable

theorem State.abandonRecord_tableRun (s : State) (i : Slot) : s.TableRun (s.abandonRecord i) := by
  unfold abandonRecord
  split
  case isTrue h => exact returnRecord_tableRun h
  case isFalse => exact .refl s

theorem State.abandon_tableRun (s : State) : s.TableRun s.abandon := by
  unfold abandon
  split
  case h_1 | h_2 => exact s.abandonRecord_tableRun _
  case h_3 | h_4 => exact .refl s

theorem State.beginFarReset_tableRun (s : State) : s.TableRun s.beginFarReset :=
  s.abandon_tableRun.clearSilences.setFar _

theorem State.runCommand_tableRun (s : State) (name : CommandName) (operand : Byte) :
    s.TableRun (s.runCommand name operand) := by
  have hcomplete (result : CommandResult) : s.TableRun (s.complete result) := .of_sameTable
  cases name <;> simp only [runCommand]
  case view => split; exacts [.of_sameTable, hcomplete _]
  case withdraw => split; exacts [s.withdrawSlot_tableRun _, hcomplete _]
  case withdrawRequester => split; exacts [s.withdrawMany_tableRun _, hcomplete _]
  case clear => exact s.withdrawMany_tableRun none
  case readmit => split; exacts [s.readmitStation_tableRun _, hcomplete _]
  case farReset => exact s.beginFarReset_tableRun.startWait .farReset

theorem State.takeCommand_tableRun (s : State) (code operand : Byte) : s.TableRun (s.takeCommand code operand) := by
  unfold takeCommand
  dsimp only
  split
  · exact .trans .of_sameTable (runCommand_tableRun _ _ operand)
  · exact .of_sameTable

theorem State.writeCommand_tableRun (s : State) (code operand : Byte) : s.TableRun (s.writeCommand code operand) := by
  unfold writeCommand
  split
  · exact .of_sameTable
  · exact s.takeCommand_tableRun code operand

theorem State.ownerCommand_tableRun (s : State) (code operand : Byte) : s.TableRun (s.ownerCommand code operand) := by
  unfold ownerCommand
  split
  · exact .of_sameTable
  · exact (s.writeCommand_tableRun code operand).setAnswer _

/-! ### The control window -/

theorem State.writeMode_tableRun (s : State) (st : Station) (code : BitVec 2) : s.TableRun (s.writeMode st code) := by
  unfold writeMode
  dsimp only
  split
  case h_6 | h_7 => exact s.setStation_closeStation_tableRun st _
  all_goals exact .of_sameTable

theorem State.writeStationMode_tableRun (s : State) (st : Station) (lanes : Lanes) (data : Word) :
    s.TableRun (s.writeStationMode st lanes data) := by
  have hclass : s.TableRun (if laneOn lanes 1 then s.writeClass st (data.getLsbD 8) else s) := by
    split <;> exact .of_sameTable
  unfold writeStationMode
  dsimp only
  generalize (if laneOn lanes 1 then s.writeClass st (data.getLsbD 8) else s) = t at hclass ⊢
  split
  · exact hclass.trans (t.writeMode_tableRun st _)
  · exact hclass

theorem State.writeGlobalControl_tableRun (s : State) (lanes : Lanes) (data : Word) :
    s.TableRun (s.writeGlobalControl lanes data) := by
  have htimeBase (t : State) (n : BitVec 3) : t.TableRun (t.writeTimeBase n) := by
    unfold writeTimeBase
    split <;> exact .of_sameTable
  unfold writeGlobalControl
  dsimp only
  split <;> split
  · exact .trans .of_sameTable (htimeBase _ _)
  · exact htimeBase s _
  · exact .of_sameTable
  · exact .refl s

/-- Of the words of the control window only a station's mode and the command reach the Request Table. -/
theorem State.writeRegister_tableRun (s : State) (reg : Register) (lanes : Lanes) (data : Word) :
    s.TableRun (s.writeRegister reg lanes data) := by
  cases reg with
  | stationMode st => exact s.writeStationMode_tableRun st lanes data
  | globalControl => exact s.writeGlobalControl_tableRun lanes data
  | command =>
    simp only [writeRegister, writeCommandRegister]
    split
    · exact s.writeCommand_tableRun _ _
    · exact .refl s
  | silenceLimit =>
    simp only [writeRegister, writeSilenceLimit]
    split
    · split <;> exact .of_sameTable
    · exact .refl s
  | requesterCounts r =>
    simp only [writeRegister, writeQuota]
    split <;> exact .of_sameTable
  | faultOffset r =>
    simp only [writeRegister, writeFaultClear]
    split <;> exact .of_sameTable
  | commandStatus =>
    simp only [writeRegister, writeOverlap]
    split <;> exact .of_sameTable
  | _ => exact .of_sameTable

theorem State.windowWrite_tableRun (s : State) (o : WindowOffset) (w : WindowWrite) :
    s.TableRun (s.windowWrite o w) := by
  unfold windowWrite
  split
  · exact .of_sameTable
  · split
    · exact .of_sameTable
    · exact (s.writeRegister_tableRun _ w.lanes w.data).setAnswer _

theorem State.takeWindowWrite_tableRun (s : State) (o : WindowOffset) (w : WindowWrite) :
    s.TableRun (s.takeWindowWrite o w) := by
  unfold takeWindowWrite
  split
  · exact .of_sameTable
  · exact s.windowWrite_tableRun o w

/-! ### The near port -/

theorem State.collect_tableRun (s : State) (i : Slot) (a : ApertureAccess) : s.TableRun (s.collect i a) := by
  unfold collect
  have hfreed := s.freeRecord_tableRun i
  dsimp only
  split
  case h_1 => exact hfreed.setAnswer _
  case h_2 | h_6 => exact (hfreed.reportAccess a _).setAnswer _
  case h_3 | h_4 | h_5 => exact hfreed.faultAccess a _
  case h_7 => exact .of_sameTable

/-- A record enters in PENDING, or in WATCH for a watch (R20, R109). -/
theorem newRecord_waits (a : ApertureAccess) (setup : WatchSetup) :
    (newRecord a setup).state = .pending ∨ (newRecord a setup).state = .watch := by
  unfold newRecord
  dsimp only
  split
  · exact .inr rfl
  · exact .inl rfl

theorem State.admitOrRefuse_tableRun (s : State) (a : ApertureAccess) : s.TableRun (s.admitOrRefuse a) := by
  unfold admitOrRefuse
  dsimp only
  iterate 4
    split
    · exact .of_sameTable
  split
  case h_1 => exact .of_sameTable
  case h_2 i hslot =>
    obtain ⟨hfree, -⟩ := (s.freeSlot_eq_some i).1 hslot
    exact (enterRecord_tableRun hfree (newRecord_waits a _)).retryAccess a

theorem State.matchAccess_tableRun (s : State) (a : ApertureAccess) : s.TableRun (s.matchAccess a) := by
  unfold matchAccess
  split
  case h_1 i _ =>
    split
    · exact s.collect_tableRun i a
    · exact .of_sameTable
  case h_2 => exact s.admitOrRefuse_tableRun a

theorem State.apertureAccess_tableRun (s : State) (a : ApertureAccess) : s.TableRun (s.apertureAccess a) := by
  unfold apertureAccess
  iterate 3
    split
    · exact .of_sameTable
  exact s.matchAccess_tableRun a

theorem State.claimAperture_tableRun (s : State) (n : NearAccess) (isWatch : Bool) (st : Station) (o : WordOffset) :
    s.TableRun (s.claimAperture n isWatch st o) := by
  unfold claimAperture
  split
  · exact s.apertureAccess_tableRun _
  · exact .of_sameTable

theorem State.windowAccess_tableRun (s : State) (n : NearAccess) (o : WindowOffset) :
    s.TableRun (s.windowAccess n o) := by
  unfold windowAccess
  split
  · exact .of_sameTable
  · exact s.windowWrite_tableRun o _

theorem State.nearAccess_tableRun (s : State) (n : NearAccess) : s.TableRun (s.nearAccess n) := by
  unfold nearAccess
  split
  · exact .of_sameTable
  · split
    · exact s.claimAperture_tableRun n false _ _
    · exact s.claimAperture_tableRun n true _ _
    · exact s.windowAccess_tableRun n _
    · exact .of_sameTable

/-! ### Chip reset -/

theorem State.atReset_tableRun (s : State) (rst : Bool) (bsel : BitVec 4) (own : Requester) (pending : List Instr) :
    s.TableRun (State.atReset rst bsel own pending) :=
  (TableMove.clear rfl fun i => by simp [State.record, State.atReset, Record.free]).run

theorem State.releaseReset_tableRun (s : State) (bsel : BitVec 4) (own : Requester) :
    s.TableRun (s.releaseReset bsel own) := by
  unfold releaseReset
  split
  · exact s.atReset_tableRun _ _ _ _
  · exact .refl s

/-! ### The far link -/

/-- The choice takes an eligible record (R61). -/
theorem State.eligible_of_chosen {s : State} {i : Slot} (h : s.chosen = some i) : s.eligible i = true := by
  obtain ⟨st, -, hst⟩ := List.exists_of_findSome?_eq_some h
  have hfound := List.find?_some hst
  obtain ⟨-, heligible⟩ := Bool.and_eq_true_iff.1 hfound
  exact heligible

/-- An eligible record waits in PENDING at the head of its pair, or in WATCH (R52). -/
theorem State.waits_of_eligible {s : State} {i : Slot} (h : s.eligible i = true) :
    (s.record i).state = .pending ∧ s.headOfPair i = true ∨ (s.record i).state = .watch := by
  obtain ⟨-, hwaits⟩ := Bool.and_eq_true_iff.1 h
  unfold waitsForLink at hwaits
  split at hwaits
  case h_1 hpending => exact .inl ⟨hpending, hwaits⟩
  case h_2 hwatch => exact .inr hwatch
  case h_3 | h_4 | h_5 | h_6 => cases hwaits

/-- The one place where attempts begin: a READ or WRITE record is chosen at the head of its pair (R52, R54). -/
theorem State.choose_tableRun {s : State} (hwatch : ∀ i, (s.record i).state = .watch → (s.record i).kind = .watch) :
    s.TableRun s.choose := by
  unfold choose
  split
  case h_1 i hchosen =>
    have hbegins : s.Advances i
        { s.record i with state := .attempt, timer := 0, withdrawn := false, expiring := false } := by
      rcases waits_of_eligible (eligible_of_chosen hchosen) with ⟨hpending, hhead⟩ | hdue
      · exact { live := by simp [hpending], kind := rfl, requester := rfl, station := rfl
                ready := by simp [hpending], underway := fun _ => .inr hhead }
      · exact { live := by simp [hdue], kind := rfl, requester := rfl, station := rfl
                ready := by simp [hdue], underway := fun hu => absurd (hwatch i hdue) hu.1 }
    exact ((setRecord_tableRun hbegins).setPointer _).setFar _
  case h_2 => exact .refl s

theorem State.lastBeat_tableRun (s : State) : s.TableRun s.lastBeat := by
  unfold lastBeat
  split <;> exact .of_sameTable

theorem State.takeReply_tableRun (s : State) (st : Station) (tag : Tag) (kind : BitVec 2) (data : Word)
    (check : Bool) : s.TableRun (s.takeReply st tag kind data check) := by
  unfold takeReply
  split
  · exact s.endTransaction_tableRun _
  · split <;> exact .of_sameTable

theorem State.takeSilent_tableRun (s : State) : s.TableRun s.takeSilent := by
  unfold takeSilent
  split
  · exact s.endTransaction_tableRun _
  · exact .refl s

theorem State.takeResetEnd_tableRun (s : State) : s.TableRun s.takeResetEnd := by
  unfold takeResetEnd
  dsimp only
  split
  · split <;> exact .of_sameTable
  · exact .refl s

theorem State.TableRun.unlessReset {s t : State} (h : s.TableRun t) : s.TableRun (s.unlessReset t) := by
  unfold State.unlessReset
  split
  · exact .refl s
  · exact h

/-! ### Time -/

theorem State.takeBackoffEnd_tableRun (s : State) (i : Slot) : s.TableRun (s.takeBackoffEnd i) := by
  unfold takeBackoffEnd
  split
  case isTrue h =>
    have hbackoff : (s.record i).state = .backoff := by
      simp only [expiryDue, Bool.and_eq_true, beq_iff_eq] at h
      exact h.2
    have hover : s.Advances i (s.record i).backoffOver :=
      { live := by simp [hbackoff, Record.backoffOver], kind := rfl, requester := rfl, station := rfl
        ready := by simp [hbackoff], underway := by simp [Record.underway, Record.backoffOver] }
    exact setRecord_tableRun hover
  case isFalse => exact .refl s

theorem State.takeWatchDue_tableRun (s : State) (i : Slot) : s.TableRun (s.takeWatchDue i) := by
  unfold takeWatchDue
  split
  · exact setRecord_tableRun (.of_sameState rfl rfl rfl rfl)
  · exact .refl s

theorem State.takeDiscard_tableRun (s : State) (i : Slot) : s.TableRun (s.takeDiscard i) := by
  unfold takeDiscard
  split
  · exact ((s.freeRecord_tableRun i).setRequester _ _).setFlags _
  · exact .refl s

theorem takeExpiry_tableRun (s : State) (i : Slot) : s.TableRun (takeExpiry s i) :=
  ((s.takeBackoffEnd_tableRun i).trans (State.takeWatchDue_tableRun _ i)).trans (State.takeDiscard_tableRun _ i)

/-- A tick at a record changes its timer and its expiry mark only (R141). -/
theorem Record.countdown_frame (r : Record) :
    r.countdown = { r with timer := r.countdown.timer, expiring := r.countdown.expiring } := by
  unfold countdown
  split
  · split <;> rfl
  · rfl

theorem State.handTick_tableRun (s : State) : s.TableRun s.handTick := by
  refine TableMove.run (.advance rfl fun i => ?_)
  rw [handTick_record, Record.countdown_frame]
  exact .of_sameState rfl rfl rfl rfl

theorem State.tick_tableRun (s : State) : s.TableRun s.tick :=
  ((s.takeSilent_tableRun.trans (takeResetEnd_tableRun _)).trans (.foldl takeExpiry_tableRun _ _)).trans
    (handTick_tableRun _)

theorem State.clkPeriod_tableRun (s : State) : s.TableRun s.clkPeriod := by
  unfold clkPeriod
  dsimp only
  split
  · exact .refl s
  · split
    · exact .trans .of_sameTable (tick_tableRun _)
    · exact .of_sameTable

/-! ### The step -/

/-- Every command runs the table by moves. The premise is the law of R5 that the choice needs. -/
theorem exec_tableRun {s t : State} {c : Instr}
    (hwatch : ∀ i, (s.record i).state = .watch → (s.record i).kind = .watch) (h : exec c s = .next t) :
    s.TableRun t := by
  cases c with
  | chipReset => exact (s.atReset_tableRun _ _ _ _).of_next h
  | resetRelease bsel own => exact (s.releaseReset_tableRun bsel own).of_next h
  | farAccess _ | watchRead _ _ _ | watchApertureWrite _ _ _ _ _ => exact (s.nearAccess_tableRun _).of_next h
  | aperturesOpenWrite _ | timeBaseSelectWrite _ | silenceLimitWrite _ | stationModeWrite _ _ | clearLateCount _
  | clearMisaddressedCount _ | clearTurnedAwayCount _ _ | clearUnclaimedCount _ _ | faultClear _ _
  | watchSetupWrite _ _ _ | noticeClear _ _ | noticeEnableWrite _ _ | overlapClear _ | registerWrite _ _ =>
    exact (s.takeWindowWrite_tableRun _ _).of_next h
  | view _ | withdraw _ | withdrawRequester _ | clear _ | readmit _ | farReset _ | badCommand _ _ =>
    exact (s.ownerCommand_tableRun _ _).of_next h
  | choice => exact (State.choose_tableRun hwatch).unlessReset.of_next h
  | lastBeatDriven => exact s.lastBeat_tableRun.unlessReset.of_next h
  | farReply st tag kind data check => exact (s.takeReply_tableRun st tag kind data check).unlessReset.of_next h
  | silent => exact s.takeSilent_tableRun.unlessReset.of_next h
  | tick => exact s.tick_tableRun.unlessReset.of_next h
  | backoffEnd i => exact (s.takeBackoffEnd_tableRun i).unlessReset.of_next h
  | watchDue i => exact (s.takeWatchDue_tableRun i).unlessReset.of_next h
  | discard i => exact (s.takeDiscard_tableRun i).unlessReset.of_next h
  | farResetEnd => exact s.takeResetEnd_tableRun.unlessReset.of_next h

/-- Every step runs the table by moves. -/
theorem step_tableRun {s t : State} (hwatch : ∀ i, (s.record i).state = .watch → (s.record i).kind = .watch)
    (h : step s = .next t) : s.TableRun t := by
  cases hpending : s.pending with
  | nil =>
    cases hown : s.ownEvent with
    | none => exact s.clkPeriod_tableRun.of_next (step_of_no_ownEvent hpending hown ▸ h)
    | some c => exact exec_tableRun hwatch (step_of_ownEvent hpending hown ▸ h)
  | cons c rest =>
    have hexec : exec c { s with pending := rest } = .next t := by simpa only [step, hpending] using h
    have hpop : s.TableRun { s with pending := rest } := .of_sameTable
    exact hpop.trans (exec_tableRun hwatch hexec)

end Sys2Proof.Machine
end

