-- ==== Sys2Proof/Proofs/PairsOrdered.lean ====
section
/-! PROOF. The order of pairs (R55): each move of the Request Table keeps the entry order exact and, with it, keeps
every record underway at the head of its pair. -/

namespace Sys2Proof.Machine

/-! ### The head of a pair -/

theorem State.headOfPair_iff (s : State) (i : Slot) :
    s.headOfPair i = true ↔
      ∀ j ∈ s.older i, (s.record j).holdsPair (s.record i).requester (s.record i).station = false := by
  simp [headOfPair]

/-- A record stays the head of its pair while it keeps the pair, no slot becomes older than it, and no older one begins
to hold a pair back. -/
theorem State.headOfPair_mono {s t : State} {i : Slot} (hhead : s.headOfPair i = true)
    (hrequester : (t.record i).requester = (s.record i).requester)
    (hstation : (t.record i).station = (s.record i).station) (holder : ∀ j ∈ t.older i, j ∈ s.older i)
    (hholds : ∀ j ∈ t.older i, ∀ q st, (s.record j).holdsPair q st = false → (t.record j).holdsPair q st = false) :
    t.headOfPair i = true := by
  rw [headOfPair_iff] at hhead ⊢
  intro j hj
  rw [hrequester, hstation]
  exact hholds j hj _ _ (hhead j (holder j hj))

/-- So it stays where it and the slots older than it keep their records. -/
theorem State.headOfPair_of_unchanged {s t : State} {i : Slot} (hhead : s.headOfPair i = true)
    (hself : t.record i = s.record i) (holder : ∀ j ∈ t.older i, j ∈ s.older i)
    (hothers : ∀ j ∈ t.older i, t.record j = s.record j) : t.headOfPair i = true :=
  headOfPair_mono hhead (by rw [hself]) (by rw [hself]) holder fun j hj _ _ hfree => hothers j hj ▸ hfree

/-- A record that advances holds back no pair that it did not hold back before. -/
theorem State.Advances.holdsPair {s : State} {j : Slot} {r : Record} (h : s.Advances j r) (q : Requester)
    (st : Station) (hnot : (s.record j).holdsPair q st = false) : r.holdsPair q st = false := by
  by_cases hready : (s.record j).state = .ready
  · simp [Record.holdsPair, h.ready hready]
  · simp only [Record.holdsPair, h.kind, h.requester, h.station] at hnot ⊢
    have hpair : (s.record j).state != .ready := by simpa using hready
    rw [hpair, Bool.and_true] at hnot
    rw [hnot, Bool.false_and]

theorem Record.underway.live {r : Record} (h : r.underway) : r.live := by
  obtain ⟨-, hstate⟩ := h
  rcases hstate with hstate | hstate <;> simp [hstate]

theorem State.mem_order_of_mem_older {s : State} {i j : Slot} (h : j ∈ s.older i) : j ∈ s.order :=
  (List.takeWhile_sublist _).subset h

/-- An entry at the young end makes no slot older than one already in the order. -/
theorem takeWhile_ne_append {i : Slot} {l : List Slot} (hi : i ∈ l) (k : Slot) :
    (l ++ [k]).takeWhile (· != i) = l.takeWhile (· != i) := by
  induction l with
  | nil => cases hi
  | cons a l ih =>
    by_cases ha : a = i
    · simp [ha]
    · simp [ha, ih ((List.mem_cons.1 hi).resolve_left (Ne.symm ha))]

/-- Removing another slot makes no slot older than one in the order. -/
theorem mem_takeWhile_ne_of_erase {i j k : Slot} {l : List Slot} (hk : k ≠ i)
    (h : j ∈ (l.erase k).takeWhile (· != i)) : j ∈ l.takeWhile (· != i) := by
  induction l with
  | nil => exact h
  | cons a l ih =>
    by_cases hak : a = k
    · subst hak
      rw [List.erase_cons_head] at h
      simpa [hk] using .inr (by simpa using h)
    · rw [List.erase_cons_tail (by simpa using hak)] at h
      by_cases hai : a = i
      · simp [hai] at h
      · rw [List.takeWhile_cons_of_pos (by simpa using hai), List.mem_cons] at h ⊢
        exact h.imp_right ih

/-! ### Each move keeps the entry order -/

theorem State.TableMove.keeps_orderExact {s t : State} (h : s.TableMove t) (hs : s.OrderExact) : t.OrderExact := by
  obtain ⟨hnodup, hmem⟩ := hs
  cases h with
  | advance order records =>
    rw [State.OrderExact, order]
    exact ⟨hnodup, fun i => (hmem i).trans (records i).live.symm⟩
  | enter i order wasFree waits others =>
    rw [State.OrderExact, order]
    have hnew : i ∉ s.order := fun hi => (hmem i).1 hi wasFree
    refine ⟨by simpa [List.nodup_append] using ⟨hnodup, fun j hj hji => hnew (hji ▸ hj)⟩, fun j => ?_⟩
    by_cases hj : j = i
    · subst hj
      rcases waits with hw | hw <;> simp [hw]
    · simp [others j hj, hmem j, hj]
  | remove i order isFree others =>
    rw [State.OrderExact, order]
    refine ⟨hnodup.erase i, fun j => ?_⟩
    rw [hnodup.mem_erase_iff]
    by_cases hj : j = i
    · subst hj
      simp [isFree]
    · simp [others j hj, hmem j, hj]
  | clear order allFree => simp [State.OrderExact, order, allFree]

/-! ### Each move keeps the order of pairs -/

/-- The law of R55 in the words of the moves. -/
theorem State.pairsOrdered_iff (s : State) : s.PairsOrdered ↔ ∀ i, (s.record i).underway → s.headOfPair i = true :=
  forall_congr' fun _ => and_imp.symm

theorem State.TableMove.keeps_pairsOrdered {s t : State} (h : s.TableMove t) (ho : s.OrderExact)
    (hp : s.PairsOrdered) : t.PairsOrdered := by
  obtain ⟨hnodup, hmem⟩ := ho
  rw [State.pairsOrdered_iff] at hp ⊢
  intro i hi
  cases h with
  | advance order records =>
    have hhead : s.headOfPair i = true := ((records i).underway hi).elim (hp i) id
    have holder : t.older i = s.older i := by rw [State.older, order]; rfl
    exact State.headOfPair_mono hhead (records i).requester (records i).station (fun j hj => holder ▸ hj)
      fun j _ => (records j).holdsPair
  | enter k order wasFree waits others =>
    have hik : i ≠ k := by
      rintro rfl
      obtain ⟨-, hi⟩ := hi
      rcases waits with hw | hw <;> simp [hw] at hi
    rw [others i hik] at hi
    have holder : t.older i = s.older i := by
      rw [State.older, order]
      exact takeWhile_ne_append ((hmem i).2 hi.live) k
    have hothers : ∀ j ∈ t.older i, t.record j = s.record j := fun j hj =>
      others j fun hjk => (hmem k).1 (hjk ▸ State.mem_order_of_mem_older (holder ▸ hj)) wasFree
    exact State.headOfPair_of_unchanged (hp i hi) (others i hik) (fun j hj => holder ▸ hj) hothers
  | remove k order isFree others =>
    have hik : i ≠ k := by
      rintro rfl
      simp [Record.underway, isFree] at hi
    rw [others i hik] at hi
    have holder : ∀ j ∈ t.older i, j ∈ s.older i := fun j hj => by
      rw [State.older, order] at hj
      exact mem_takeWhile_ne_of_erase hik.symm hj
    have hothers : ∀ j ∈ t.older i, t.record j = s.record j := fun j hj =>
      others j (hnodup.mem_erase_iff.1 (order ▸ State.mem_order_of_mem_older hj)).1
    exact State.headOfPair_of_unchanged (hp i hi) (others i hik) holder hothers
  | clear order allFree => simp [Record.underway, allFree] at hi

/-! ### Every step -/

/-- A run of moves keeps both laws. -/
theorem State.TableRun.keeps_orders {s t : State} (h : s.TableRun t) (ho : s.OrderExact)
    (hp : s.PairsOrdered) : t.OrderExact ∧ t.PairsOrdered := by
  induction h with
  | refl => exact ⟨ho, hp⟩
  | tail _ hmove ih =>
    obtain ⟨horder, hpairs⟩ := ih
    exact ⟨hmove.keeps_orderExact horder, hmove.keeps_pairsOrdered horder hpairs⟩

/-- Settles O58: a step runs the Request Table by moves, and every move keeps the order of pairs. -/
theorem stepKeepsPairsOrdered : Obligations.StepKeepsPairsOrdered := by
  unfold Obligations.StepKeepsPairsOrdered
  intro s t hpairs horder hfields hstep
  obtain ⟨-, hstate, -, -⟩ := hfields
  have hwatch : ∀ i, (s.record i).state = .watch → (s.record i).kind = .watch := fun i => by
    obtain ⟨-, -, -, hkind⟩ := hstate i
    exact hkind
  exact ((step_tableRun hwatch hstep).keeps_orders horder hpairs).2

end Sys2Proof.Machine
end

