-- ==== Sys2Proof/Proofs/UnacceptedReply.lean ====
section
/-! PROOF. A reply that is not accepted (R78, R79): it is counted as misaddressed or as late, and nothing ends. -/

namespace Sys2Proof.Machine

/-- A byte counter counts up to 255 and is held there (00 section 6.6). -/
theorem satInc_byte (x : Byte) : satInc x = if x = 255 then 255 else x + 1 := by
  have hlargest : BitVec.allOnes 8 = 255 := by decide
  unfold satInc
  rw [hlargest]
  split
  case isTrue h => exact h
  case isFalse => rfl

/-- A reply of another station than the one in flight is misaddressed (R78). -/
theorem State.takeReply_of_misaddressed {s : State} {st : Station} (hflight : s.far.inFlight = true)
    (hstation : s.far.transaction.station ≠ st) (tag : Tag) (kind : BitVec 2) (data : Word) (check : Bool) :
    s.takeReply st tag kind data check = s.countMisaddressed := by
  have hnot : s.far.accepts st tag = false := by simp [FarPort.accepts, hstation]
  simp [State.takeReply, hnot, hflight, hstation]

/-- A reply with nothing in flight, or of the station in flight before AWAIT or with another tag, is late (R79). -/
theorem State.takeReply_of_late {s : State} {st : Station} {tag : Tag}
    (hlate : s.far.inFlight = false ∨
      s.far.transaction.station = st ∧ (s.far.link = .request ∨ s.far.transaction.tag ≠ tag))
    (kind : BitVec 2) (data : Word) (check : Bool) : s.takeReply st tag kind data check = s.countLate := by
  unfold State.takeReply
  rcases hlate with hidle | ⟨hstation, hrequest | htag⟩
  · have hnot : s.far.accepts st tag = false := by
      obtain ⟨-, hawait⟩ := Bool.or_eq_false_iff.1 hidle
      simp [FarPort.accepts, hawait]
    simp [hnot, hidle]
  · simp [FarPort.accepts, hrequest, hstation]
  · simp [FarPort.accepts, htag, hstation]

/-- While RST# is not asserted a far reply is taken whole. -/
theorem exec_farReply {s : State} (hrst : s.rstAsserted = false) (st : Station) (tag : Tag) (kind : BitVec 2)
    (data : Word) (check : Bool) :
    exec (.farReply st tag kind data check) s = .next (s.takeReply st tag kind data check) := by
  simp [exec, execFarReply, State.unlessReset, hrst]

/-- Settles O44: the reply meets one of the two counts, each held at the byte's largest value, 255. -/
theorem unacceptedReplyOnlyCounts : Obligations.UnacceptedReplyOnlyCounts := by
  unfold Obligations.UnacceptedReplyOnlyCounts
  intro s st tag kind data check hrst
  dsimp only
  rw [exec_farReply hrst, ← s.far.inFlight_iff, Bool.not_eq_true]
  constructor
  · intro hflight hstation
    rw [State.takeReply_of_misaddressed hflight hstation, State.countMisaddressed, satInc_byte]
    rfl
  · intro hlate
    rw [State.takeReply_of_late hlate, State.countLate, satInc_byte]
    rfl

end Sys2Proof.Machine
end

