-- ==== Sys2Proof/Proofs/OneAttempt.lean ====
section
/-! PROOF. One record in ATTEMPT exactly while a transaction is in flight (R66). The law reads of the table only which
slots are in ATTEMPT and the keys there; so each operation says what it does to these, and each event of the Far Port
says what the link does with them. -/

namespace Sys2Proof.Machine

/-! ### The attempts of the table -/

/-- What the far link sees of a record: the key of one in ATTEMPT, nothing of any other. -/
def Record.attemptKey (r : Record) : Option Key := if r.state = .attempt then some r.key else none

/-- The keys of the records in ATTEMPT, by slot. -/
def State.attempts (s : State) : Slot → Option Key := fun i => (s.record i).attemptKey

/-- No record is in ATTEMPT. -/
def noAttempts : Slot → Option Key := fun _ => none

/-- The context of a transaction of the record with a key in a slot (R68). -/
def Key.context (k : Key) (i : Slot) (tag : Tag) : Transaction :=
  { slot := i, station := k.station, tag := tag, isWrite := k.kind == .write, offset := k.offset, lanes := k.lanes,
    writeData := k.writeData }

theorem Record.attemptKey_of_not_attempt {r : Record} (h : r.state ≠ .attempt) : r.attemptKey = none := if_neg h

theorem Record.attemptKey_eq_none_iff (r : Record) : r.attemptKey = none ↔ r.state ≠ .attempt := by
  simp [attemptKey]

/-- The attempts are carried by the link: one while a transaction is in flight, whose context repeats the record, and
none otherwise, with an empty context (R66, R68, R72); and the far reset timer runs in RESET only (R85). -/
structure FarPort.Carries (f : FarPort) (attempts : Slot → Option Key) : Prop where
  one : f.inFlight = true → ∃ k, attempts = Function.update noAttempts f.transaction.slot (some k) ∧
    f.transaction = k.context f.transaction.slot f.transaction.tag
  empty : f.inFlight = false → attempts = noAttempts ∧ f.transaction = .empty ∧ f.replyTimer = 0
  timer_le : f.resetTimer ≤ Config.farResetTicks
  timer_stopped : f.link ≠ .reset → f.resetTimer = 0

/-- A single attempt is that of one slot. -/
theorem State.attempts_eq_single_iff (s : State) (i : Slot) :
    s.attempts = Function.update noAttempts i (some (s.record i).key) ↔
      ∀ j, (s.record j).state = .attempt ↔ j = i := by
  constructor
  · intro h j
    have hj : (s.record j).attemptKey = _ := congrFun h j
    by_cases hji : j = i
    · subst hji
      simpa [Record.attemptKey] using hj
    · simpa [hji, noAttempts, Record.attemptKey_eq_none_iff] using hj
  · intro h
    funext j
    by_cases hji : j = i
    · subst hji
      simp [State.attempts, Record.attemptKey, h]
    · simp [State.attempts, Record.attemptKey, noAttempts, h, hji]

theorem State.attempts_eq_none_iff (s : State) : s.attempts = noAttempts ↔ ∀ j, (s.record j).state ≠ .attempt := by
  simp [funext_iff, attempts, noAttempts, Record.attemptKey_eq_none_iff]

/-- The law of the link in the words of the attempts. -/
theorem State.linkExact_iff (s : State) : s.LinkExact ↔ s.far.Carries s.attempts := by
  constructor
  · rintro ⟨hattempt, hcontext, hempty, hle, hstopped⟩
    refine ⟨fun hflight => ?_, fun hidle => ?_, hle, hstopped⟩
    · refine ⟨_, (s.attempts_eq_single_iff _).2 fun j => ?_, hcontext hflight⟩
      simp [hattempt, hflight, eq_comm]
    · obtain ⟨htransaction, hreply⟩ := hempty (by simp [hidle])
      exact ⟨s.attempts_eq_none_iff.2 fun j => by simp [hattempt, hidle], htransaction, hreply⟩
  · rintro ⟨hone, hnone, hle, hstopped⟩
    cases hflight : s.far.inFlight with
    | true =>
      obtain ⟨k, hattempts, hcontext⟩ := hone hflight
      have hslot : s.attempts s.far.transaction.slot = some k := by simp [hattempts]
      have hkey : (s.record s.far.transaction.slot).key = k := by
        simp only [State.attempts, Record.attemptKey, Option.ite_none_right_eq_some, Option.some.injEq] at hslot
        exact hslot.2
      subst hkey
      have hsingle := (s.attempts_eq_single_iff _).1 hattempts
      refine ⟨fun j => by simp [hsingle, hflight, eq_comm], fun _ => hcontext, by simp [hflight], hle, hstopped⟩
    | false =>
      obtain ⟨hattempts, hempty⟩ := hnone hflight
      have hwaits := s.attempts_eq_none_iff.1 hattempts
      exact ⟨fun j => by simp [hwaits, hflight], by simp [hflight], fun _ => hempty, hle, hstopped⟩

/-! ### The events of the Far Port -/

section FarPort

variable {f g : FarPort} {attempts : Slot → Option Key}

/-- An idle link with an empty context carries no attempt. -/
theorem FarPort.Carries.of_empty (hidle : f.inFlight = false) (hempty : f.transaction = .empty)
    (hreply : f.replyTimer = 0) (hle : f.resetTimer ≤ Config.farResetTicks)
    (hstopped : f.link ≠ .reset → f.resetTimer = 0) : f.Carries noAttempts where
  one hflight := by simp [hidle] at hflight
  empty _ := ⟨rfl, hempty, hreply⟩
  timer_le := hle
  timer_stopped := hstopped

/-- An event that leaves the context, and whether it is in flight, carries what was carried: a timer that has run out
does not start, and the far reset timer does not rise. -/
theorem FarPort.Carries.of_sameContext (h : f.Carries attempts) (hflight : g.inFlight = f.inFlight)
    (hcontext : g.transaction = f.transaction) (hreply : f.replyTimer = 0 → g.replyTimer = 0)
    (hle : g.resetTimer ≤ f.resetTimer) (hstopped : g.link ≠ .reset → g.resetTimer = 0) : g.Carries attempts where
  one := by rw [hflight, hcontext]; exact h.one
  empty hidle := by
    obtain ⟨hattempts, hempty, hzero⟩ := h.empty (hflight ▸ hidle)
    exact ⟨hattempts, hcontext.trans hempty, hreply hzero⟩
  timer_le := hle.trans h.timer_le
  timer_stopped := hstopped

/-- Without the record of the context no attempt is left. -/
theorem FarPort.Carries.without_slot (h : f.Carries attempts) :
    Function.update attempts f.transaction.slot none = noAttempts := by
  cases hflight : f.inFlight with
  | true =>
    obtain ⟨k, hattempts, -⟩ := h.one hflight
    rw [hattempts, Function.update_idem]
    exact Function.update_eq_self _ noAttempts
  | false =>
    obtain ⟨hattempts, -⟩ := h.empty hflight
    rw [hattempts]
    exact Function.update_eq_self _ noAttempts

theorem FarPort.Carries.noAttempts_of_idle (h : f.Carries attempts) (hidle : f.inFlight = false) :
    attempts = noAttempts :=
  (h.empty hidle).1

/-- The hand-over of a record from IDLE: its key is the one attempt (R68, R70). -/
theorem FarPort.Carries.handOver (h : f.Carries attempts) (hidle : f.link = .idle) (k : Key) (i : Slot)
    (timeout : BitVec 8) :
    FarPort.Carries
      { f with link := .request, transaction := k.context i f.tagCounter, tagCounter := f.tagCounter + 1,
               replyTimer := timeout, requestClks := 0 }
      (Function.update attempts i (some k)) where
  one _ := ⟨k, by rw [h.noAttempts_of_idle (by simp [inFlight, hidle])]; rfl, rfl⟩
  empty hnot := by simp [inFlight] at hnot
  timer_le := h.timer_le
  timer_stopped _ := h.timer_stopped (by simp [hidle])

/-- The last beat: REQUEST becomes AWAIT (R71). -/
theorem FarPort.Carries.lastBeat (h : f.Carries attempts) (hrequest : f.link = .request) :
    FarPort.Carries { f with link := .await, requestClks := 0 } attempts :=
  h.of_sameContext (by simp [inFlight, hrequest]) rfl id le_rfl fun _ => h.timer_stopped (by simp [hrequest])

/-- The end of a transaction in AWAIT: IDLE with an empty context, and no attempt (R68, R72, R77). -/
theorem FarPort.Carries.over_idle (h : f.Carries attempts) (hawait : f.link = .await) :
    (f.over .idle).Carries noAttempts :=
  .of_empty rfl rfl rfl h.timer_le fun _ => h.timer_stopped (by simp [hawait])

/-- The begin of a far reset: RESET with an empty context, and no attempt (R82, R83). -/
theorem FarPort.over_reset_carries (f : FarPort) :
    FarPort.Carries { f.over .reset with resetTimer := Config.farResetTicks } noAttempts :=
  .of_empty rfl rfl rfl le_rfl fun hnot => absurd rfl hnot

/-- The end of a far reset (R85). -/
theorem FarPort.Carries.resetEnd (h : f.Carries attempts) (hdue : f.resetEndDue = true) :
    FarPort.Carries { f with link := .idle } attempts := by
  obtain ⟨hreset, hzero⟩ : f.link = .reset ∧ f.resetTimer = 0 := by simpa [resetEndDue] using hdue
  exact h.of_sameContext (by rw [inFlight, inFlight, hreset]; rfl) rfl id le_rfl fun _ => hzero

/-- A tick (R72, R85). -/
theorem FarPort.Carries.countdown (h : f.Carries attempts) : f.countdown.Carries attempts := by
  have hreply : f.replyTimer = 0 → stopDec f.replyTimer = 0 := fun hzero => by simp [stopDec, hzero]
  unfold FarPort.countdown
  split
  case h_1 | h_2 => exact h.of_sameContext rfl rfl hreply le_rfl h.timer_stopped
  case h_3 hreset => exact h.of_sameContext rfl rfl id (Nat.sub_le _ _) fun hnot => absurd hreset hnot
  case h_4 => exact h

/-- The counts of replies and of CLK periods are no part of what is carried (R80, R185). -/
theorem FarPort.Carries.counts (h : f.Carries attempts) (late misaddressed : BitVec 8) (clks : Nat) :
    FarPort.Carries { f with late := late, misaddressed := misaddressed, requestClks := clks } attempts :=
  h.of_sameContext rfl rfl id le_rfl h.timer_stopped

theorem FarPort.Carries.clk (h : f.Carries attempts) : f.clk.Carries attempts := by
  unfold FarPort.clk
  split
  · exact h.counts f.late f.misaddressed _
  · exact h

end FarPort

/-! ### What the table's operations do to the attempts -/

/-- The link sees no change from `s` to `t`. -/
structure State.SameLink (s t : State) : Prop where
  attempts : t.attempts = s.attempts
  far : t.far = s.far

/-- From `s` to `t` the record of slot `i` is out of ATTEMPT, and the link sees no other change. -/
structure State.Drops (s : State) (i : Slot) (t : State) : Prop where
  attempts : t.attempts = Function.update s.attempts i none
  far : t.far = s.far

theorem State.SameLink.refl (s : State) : s.SameLink s := ⟨rfl, rfl⟩

theorem State.SameLink.setFlags {s t : State} (h : s.SameLink t) (n : Notices) : s.SameLink (t.setFlags n) :=
  ⟨h.attempts, h.far⟩

/-- The law of the link stays where the link sees no change. -/
theorem State.SameLink.linkExact {s t : State} (h : s.SameLink t) (hs : s.LinkExact) : t.LinkExact := by
  rw [State.linkExact_iff, h.attempts, h.far]
  exact s.linkExact_iff.1 hs

/-- So it stays through a change outside the slots and the Far Port. -/
theorem State.LinkExact.quiet {s t : State} (h : s.LinkExact) (hslots : t.slots = s.slots := by rfl)
    (hfar : t.far = s.far := by rfl) : t.LinkExact := by
  have hattempts : t.attempts = s.attempts := by
    funext i
    rw [State.attempts, State.record, hslots]
    rfl
  exact State.SameLink.linkExact ⟨hattempts, hfar⟩ h

section Quiet

variable {s : State} (h : s.LinkExact)
include h

theorem State.LinkExact.setFlags (n : Notices) : (s.setFlags n).LinkExact := h.quiet

theorem State.LinkExact.setRequester (q : Requester) (e : RequesterEntry) : (s.setRequester q e).LinkExact := h.quiet

theorem State.LinkExact.setAnswer (a : NearAnswer) : (s.setAnswer a).LinkExact := h.quiet

theorem State.LinkExact.complete (result : CommandResult) : (s.complete result).LinkExact := h.quiet

theorem State.LinkExact.startWait (wait : CommandWait) : (s.startWait wait).LinkExact := h.quiet

theorem State.LinkExact.reportAccess (a : ApertureAccess) (reason : FaultReason) :
    (s.reportAccess a reason).LinkExact := h.quiet

theorem State.LinkExact.faultAccess (a : ApertureAccess) (reason : FaultReason) :
    (s.faultAccess a reason).LinkExact := h.quiet

theorem State.LinkExact.retryAccess (a : ApertureAccess) : (s.retryAccess a).LinkExact := h.quiet

end Quiet

theorem State.attempts_without {s : State} {i : Slot} (hi : (s.record i).state ≠ .attempt) :
    Function.update s.attempts i none = s.attempts := by
  have hself : s.attempts i = none := Record.attemptKey_of_not_attempt hi
  rw [← hself]
  exact Function.update_eq_self i s.attempts

/-- A record that is not in ATTEMPT is dropped without a change to the link. -/
theorem State.Drops.sameLink {s t : State} {i : Slot} (h : s.Drops i t) (hi : (s.record i).state ≠ .attempt) :
    s.SameLink t where
  attempts := h.attempts.trans (State.attempts_without hi)
  far := h.far

theorem State.Drops.of_not_attempt {s : State} {i : Slot} (hi : (s.record i).state ≠ .attempt) : s.Drops i s where
  attempts := (State.attempts_without hi).symm
  far := rfl

theorem State.setRecord_attempts (s : State) (i : Slot) (r : Record) :
    (s.setRecord i r).attempts = Function.update s.attempts i r.attemptKey := by
  funext j
  by_cases hj : j = i <;> simp [State.attempts, hj]

/-- A new content is dropped where its slot's old content is. -/
theorem State.Drops.of_setRecord {s t : State} {i : Slot} {r : Record} (h : (s.setRecord i r).Drops i t) :
    s.Drops i t where
  attempts := by rw [h.attempts, State.setRecord_attempts, Function.update_idem]
  far := h.far

theorem State.setRecord_drops (s : State) (i : Slot) {r : Record} (hr : r.state ≠ .attempt) :
    s.Drops i (s.setRecord i r) where
  attempts := by rw [State.setRecord_attempts, Record.attemptKey_of_not_attempt hr]
  far := rfl

/-- The link sees no change of a record whose place in ATTEMPT and key there stay. -/
theorem State.setRecord_sameLink {s : State} {i : Slot} {r : Record}
    (hr : r.attemptKey = (s.record i).attemptKey) : s.SameLink (s.setRecord i r) where
  attempts := by
    rw [State.setRecord_attempts, hr]
    exact Function.update_eq_self i s.attempts
  far := rfl

theorem State.freeRecord_drops (s : State) (i : Slot) : s.Drops i (s.freeRecord i) := by
  by_cases hlive : (s.record i).live
  · obtain ⟨hattempts, hfar⟩ := s.setRecord_drops i (r := .free) (by decide)
    rw [s.freeRecord_of_live i hlive]
    exact ⟨hattempts, hfar⟩
  · have hfree : (s.record i).state = .free := not_not.1 hlive
    rw [s.freeRecord_of_free i hfree]
    exact .of_not_attempt (by simp [hfree])

theorem State.enterRecord_sameLink {s : State} {i : Slot} {r : Record} (hfree : (s.record i).state = .free)
    (hwaits : r.state ≠ .attempt) : s.SameLink (s.enterRecord i r) := by
  obtain ⟨hattempts, hfar⟩ := (s.setRecord_drops i hwaits).sameLink (by simp [hfree])
  exact ⟨hattempts, hfar⟩

theorem State.toReady_drops (s : State) (i : Slot) (o : RecordOutcome) (d : Word) : s.Drops i (s.toReady i o d) := by
  obtain ⟨hattempts, hfar⟩ := s.setRecord_drops i (r := (s.record i).finished s.params.collectionLimit o d)
    (by simp [Record.finished])
  exact ⟨hattempts, hfar⟩

/-- A closure reaches no record in ATTEMPT (R127). -/
theorem State.closeStation_sameLink (s : State) (st : Station) : s.SameLink (s.closeStation st) where
  attempts := by
    funext j
    simp only [State.attempts, State.closeStation_record]
    split
    case isTrue h =>
      have hwaits : (s.record j).state ≠ .attempt := by
        intro hattempt
        simp [Record.closedWith, hattempt] at h
      rw [Record.attemptKey_of_not_attempt hwaits, Record.attemptKey_of_not_attempt (by simp [Record.finished])]
    case isFalse => rfl
  far := by rw [State.closeStation_frame]

/-- A station's entry changes and the station closes, in one event (R127). -/
theorem State.setStation_closeStation_sameLink (s : State) (st : Station) (e : StationEntry) :
    s.SameLink ((s.setStation st e).closeStation st) := by
  obtain ⟨hattempts, hfar⟩ := (s.setStation st e).closeStation_sameLink st
  exact ⟨hattempts, hfar⟩

/-! ### The end of an attempt -/

theorem State.countSilence_sameLink (s : State) (st : Station) : s.SameLink (s.countSilence st) := by
  unfold countSilence
  dsimp only
  split
  · exact .refl s
  · split
    · exact (s.setStation_closeStation_sameLink st _).setFlags _
    · exact ⟨rfl, rfl⟩

theorem State.stationPart_sameLink (s : State) (st : Station) (e : AttemptEnd) : s.SameLink (s.stationPart st e) := by
  have haccept : s.SameLink (s.acceptReply st) := by
    unfold acceptReply
    split <;> exact ⟨rfl, rfl⟩
  cases e with
  | silent => exact s.countSilence_sameLink st
  | clean _ | tainted _ | hold | reject => exact haccept

/-- A record that returns to wait is in WATCH or BACKOFF (R95, R115). -/
theorem Record.returned_not_attempt (r : Record) (e : StationEntry) : (r.returned e).state ≠ .attempt := by
  unfold Record.returned
  split <;> simp

theorem State.returnRecord_drops (s : State) (i : Slot) : s.Drops i (s.returnRecord i) := by
  unfold returnRecord
  dsimp only
  split
  · exact s.toReady_drops i _ _
  · exact s.setRecord_drops i (Record.returned_not_attempt _ _)

theorem State.applyEnd_drops (s : State) (i : Slot) (e : AttemptEnd) : s.Drops i (s.applyEnd i e) := by
  unfold applyEnd
  dsimp only
  split
  · exact .of_setRecord (State.toReady_drops _ i _ _)
  · exact .of_setRecord (State.returnRecord_drops _ i)

theorem State.freeMarked_drops (s : State) (i : Slot) : s.Drops i (s.freeMarked i) := by
  obtain ⟨hattempts, hfar⟩ := s.freeRecord_drops i
  unfold freeMarked
  dsimp only
  split <;> exact ⟨hattempts, hfar⟩

theorem State.endRecord_drops (s : State) (i : Slot) (e : AttemptEnd) : s.Drops i (s.endRecord i e) := by
  unfold endRecord
  split
  case isTrue =>
    split
    · exact s.freeMarked_drops i
    · exact s.applyEnd_drops i e
  case isFalse h => exact .of_not_attempt h

/-- The record of the context and the link leave the transaction in one event (R77, R87). -/
theorem State.endTransaction_linkExact {s : State} (h : s.LinkExact) (hawait : s.far.link = .await) (e : AttemptEnd) :
    (s.endTransaction e).LinkExact := by
  have hcarries := s.linkExact_iff.1 h
  obtain ⟨hstation, hfreed⟩ :=
    (s.setFar (s.far.over .idle)).stationPart_sameLink s.far.transaction.station e
  obtain ⟨hattempts, hfar⟩ := State.endRecord_drops
    ((s.setFar (s.far.over .idle)).stationPart s.far.transaction.station e) s.far.transaction.slot e
  have hnone : (s.endTransaction e).attempts = noAttempts := by
    rw [State.endTransaction, hattempts, hstation]
    exact hcarries.without_slot
  have hover : (s.endTransaction e).far = s.far.over .idle := hfar.trans hfreed
  rw [State.linkExact_iff, hnone, hover]
  exact hcarries.over_idle hawait

/-! ### The Command Unit -/

theorem State.freeRecord_linkExact {s : State} (h : s.LinkExact) {i : Slot} (hi : (s.record i).state ≠ .attempt) :
    (s.freeRecord i).LinkExact :=
  ((s.freeRecord_drops i).sameLink hi).linkExact h

/-- A withdraw marks a record in ATTEMPT, and frees any other (R169, R170). -/
theorem State.withdrawRecord_linkExact {s : State} (h : s.LinkExact) (i : Slot) : (s.withdrawRecord i).LinkExact := by
  unfold withdrawRecord
  split
  case isTrue => exact (setRecord_sameLink (by rfl)).linkExact h
  case isFalse hi => exact freeRecord_linkExact h hi

theorem State.withdrawSlot_linkExact {s : State} (h : s.LinkExact) (i : Slot) : (s.withdrawSlot i).LinkExact := by
  have hwithdrawn : (s.withdrawRecord i).LinkExact := withdrawRecord_linkExact h i
  unfold withdrawSlot
  split
  case h_1 => exact h.complete .noRecord
  case h_2 => exact hwithdrawn.startWait _
  case h_3 | h_4 | h_5 | h_6 => exact hwithdrawn.complete .ok

theorem withdrawOne_linkExact (q : Option Requester) (s : State) (i : Slot) (h : s.LinkExact) :
    (withdrawOne q s i).LinkExact := by
  unfold withdrawOne
  split
  · exact State.withdrawRecord_linkExact h i
  · exact h

theorem State.withdrawMany_linkExact {s : State} (h : s.LinkExact) (q : Option Requester) :
    (s.withdrawMany q).LinkExact := by
  have hall := foldl_induct (withdrawOne q) State.LinkExact (withdrawOne_linkExact q) (List.finRange 24) s h
  unfold withdrawMany
  dsimp only
  split
  · exact hall.complete .ok
  · exact hall.startWait _

theorem State.readmitStation_linkExact {s : State} (h : s.LinkExact) (st : Station) :
    (s.readmitStation st).LinkExact := by
  unfold readmitStation
  split <;> exact h.quiet

theorem State.abandonRecord_drops (s : State) (i : Slot) : s.Drops i (s.abandonRecord i) := by
  unfold abandonRecord
  split
  case isTrue => exact s.returnRecord_drops i
  case isFalse h => exact .of_not_attempt h

/-- Once the transaction in flight is abandoned no record is in ATTEMPT (R83). -/
theorem State.abandon_attempts {s : State} (h : s.LinkExact) : s.abandon.attempts = noAttempts := by
  have hcarries := s.linkExact_iff.1 h
  have hdropped := (s.abandonRecord_drops s.far.transaction.slot).attempts.trans hcarries.without_slot
  unfold abandon
  split
  case h_1 | h_2 => exact hdropped
  case h_3 hidle | h_4 hidle => exact hcarries.noAttempts_of_idle (by rw [FarPort.inFlight, hidle]; rfl)

theorem State.beginFarReset_linkExact {s : State} (h : s.LinkExact) : s.beginFarReset.LinkExact := by
  have hnone : s.beginFarReset.attempts = noAttempts := abandon_attempts h
  rw [State.linkExact_iff, hnone]
  exact FarPort.over_reset_carries _

theorem State.runCommand_linkExact {s : State} (h : s.LinkExact) (name : CommandName) (operand : Byte) :
    (s.runCommand name operand).LinkExact := by
  cases name <;> simp only [runCommand]
  case view => split <;> exact h.quiet
  case withdraw => split; exacts [withdrawSlot_linkExact h _, h.complete _]
  case withdrawRequester => split; exacts [withdrawMany_linkExact h _, h.complete _]
  case clear => exact withdrawMany_linkExact h none
  case readmit => split; exacts [readmitStation_linkExact h _, h.complete _]
  case farReset => exact (beginFarReset_linkExact h).startWait .farReset

theorem State.writeCommand_linkExact {s : State} (h : s.LinkExact) (code operand : Byte) :
    (s.writeCommand code operand).LinkExact := by
  have htaken : (s.takeCommand code operand).LinkExact := by
    unfold takeCommand
    dsimp only
    split
    · exact runCommand_linkExact h.quiet _ operand
    · exact h.quiet
  unfold writeCommand
  split
  · exact h.quiet
  · exact htaken

theorem State.ownerCommand_linkExact {s : State} (h : s.LinkExact) (code operand : Byte) :
    (s.ownerCommand code operand).LinkExact := by
  unfold ownerCommand
  split
  · exact h.setAnswer _
  · exact (writeCommand_linkExact h code operand).setAnswer _

/-! ### The control window -/

theorem State.writeMode_sameLink (s : State) (st : Station) (code : BitVec 2) : s.SameLink (s.writeMode st code) := by
  unfold writeMode
  dsimp only
  split
  case h_6 | h_7 => exact s.setStation_closeStation_sameLink st _
  all_goals exact ⟨rfl, rfl⟩

theorem State.writeStationMode_linkExact {s : State} (h : s.LinkExact) (st : Station) (lanes : Lanes) (data : Word) :
    (s.writeStationMode st lanes data).LinkExact := by
  have hclass : (if laneOn lanes 1 then s.writeClass st (data.getLsbD 8) else s).LinkExact := by
    split <;> exact h.quiet
  unfold writeStationMode
  dsimp only
  split
  · exact (State.writeMode_sameLink _ st _).linkExact hclass
  · exact hclass

theorem State.writeGlobalControl_linkExact {s : State} (h : s.LinkExact) (lanes : Lanes) (data : Word) :
    (s.writeGlobalControl lanes data).LinkExact := by
  have htimeBase {t : State} (ht : t.LinkExact) (n : BitVec 3) : (t.writeTimeBase n).LinkExact := by
    unfold writeTimeBase
    split <;> exact ht.quiet
  have hopen : (if laneOn lanes 0 then s.setParams { s.params with aperturesOpen := data.getLsbD 0 }
      else s).LinkExact := by
    split <;> exact h.quiet
  unfold writeGlobalControl
  dsimp only
  split
  · exact htimeBase hopen _
  · exact hopen

/-- Of the words of the control window only a station's mode, the clears of the far link counts and the command reach
what the link sees, and of these only the command can end a transaction. -/
theorem State.writeRegister_linkExact {s : State} (h : s.LinkExact) (reg : Register) (lanes : Lanes) (data : Word) :
    (s.writeRegister reg lanes data).LinkExact := by
  cases reg with
  | stationMode st => exact writeStationMode_linkExact h st lanes data
  | command =>
    simp only [writeRegister, writeCommandRegister]
    split
    · exact writeCommand_linkExact h _ _
    · exact h
  | farLinkClear =>
    rw [State.linkExact_iff]
    exact (s.linkExact_iff.1 h).counts _ _ s.far.requestClks
  | globalControl => exact writeGlobalControl_linkExact h lanes data
  | silenceLimit =>
    simp only [writeRegister, writeSilenceLimit]
    split
    · split <;> exact h.quiet
    · exact h
  | requesterCounts r =>
    simp only [writeRegister, writeQuota]
    split <;> exact h.quiet
  | faultOffset r =>
    simp only [writeRegister, writeFaultClear]
    split <;> exact h.quiet
  | commandStatus =>
    simp only [writeRegister, writeOverlap]
    split <;> exact h.quiet
  | _ => exact h.quiet

theorem State.windowWrite_linkExact {s : State} (h : s.LinkExact) (o : WindowOffset) (w : WindowWrite) :
    (s.windowWrite o w).LinkExact := by
  unfold windowWrite
  split
  · exact h.quiet
  · split
    · exact h.quiet
    · exact (writeRegister_linkExact h _ w.lanes w.data).setAnswer _

theorem State.takeWindowWrite_linkExact {s : State} (h : s.LinkExact) (o : WindowOffset) (w : WindowWrite) :
    (s.takeWindowWrite o w).LinkExact := by
  unfold takeWindowWrite
  split
  · exact h.setAnswer _
  · exact windowWrite_linkExact h o w

/-! ### The near port -/

/-- Only a READY record is collected, which is in no transaction (R37). -/
theorem State.collect_linkExact {s : State} (h : s.LinkExact) {i : Slot} (hready : (s.record i).state = .ready)
    (a : ApertureAccess) : (s.collect i a).LinkExact := by
  have hfreed : (s.freeRecord i).LinkExact := freeRecord_linkExact h (by simp [hready])
  unfold collect
  dsimp only
  split
  case h_1 => exact hfreed.setAnswer _
  case h_2 | h_6 => exact (hfreed.reportAccess a _).setAnswer _
  case h_3 | h_4 | h_5 => exact hfreed.faultAccess a _
  case h_7 => exact h.retryAccess a

theorem State.admitOrRefuse_linkExact {s : State} (h : s.LinkExact) (a : ApertureAccess) :
    (s.admitOrRefuse a).LinkExact := by
  unfold admitOrRefuse
  dsimp only
  iterate 4
    split
    · exact h.quiet
  split
  case h_1 => exact h.quiet
  case h_2 i hslot =>
    obtain ⟨hfree, -⟩ := (s.freeSlot_eq_some i).1 hslot
    have hwaits : (newRecord a (s.requesterEntry a.requester).setup).state ≠ .attempt := by
      rcases newRecord_waits a (s.requesterEntry a.requester).setup with hw | hw <;> simp [hw]
    exact ((enterRecord_sameLink hfree hwaits).linkExact h).retryAccess a

theorem State.apertureAccess_linkExact {s : State} (h : s.LinkExact) (a : ApertureAccess) :
    (s.apertureAccess a).LinkExact := by
  have hmatched : (s.matchAccess a).LinkExact := by
    unfold matchAccess
    split
    case h_1 i _ =>
      split
      case isTrue hready => exact collect_linkExact h hready a
      case isFalse => exact h.retryAccess a
    case h_2 => exact admitOrRefuse_linkExact h a
  unfold apertureAccess
  iterate 3
    split
    · exact h.faultAccess a _
  exact hmatched

theorem State.claimAperture_linkExact {s : State} (h : s.LinkExact) (n : NearAccess) (isWatch : Bool) (st : Station)
    (o : WordOffset) : (s.claimAperture n isWatch st o).LinkExact := by
  unfold claimAperture
  split
  · exact apertureAccess_linkExact h _
  · exact h.setAnswer _

theorem State.windowAccess_linkExact {s : State} (h : s.LinkExact) (n : NearAccess) (o : WindowOffset) :
    (s.windowAccess n o).LinkExact := by
  unfold windowAccess
  split
  · exact h.setAnswer _
  · exact windowWrite_linkExact h o _

theorem State.nearAccess_linkExact {s : State} (h : s.LinkExact) (n : NearAccess) : (s.nearAccess n).LinkExact := by
  unfold nearAccess
  split
  · exact h.setAnswer _
  · split
    · exact claimAperture_linkExact h n false _ _
    · exact claimAperture_linkExact h n true _ _
    · exact windowAccess_linkExact h n _
    · exact h.setAnswer _

/-! ### Chip reset -/

/-- After reset no record is in ATTEMPT, and the link is in RESET with an empty context (R22, R67). -/
theorem State.atReset_linkExact (rst : Bool) (bsel : BitVec 4) (own : Requester) (pending : List Instr) :
    (State.atReset rst bsel own pending).LinkExact := by
  have hnone : (State.atReset rst bsel own pending).attempts = noAttempts :=
    (State.attempts_eq_none_iff _).2 fun i => by simp [State.record, State.atReset, Record.free]
  rw [State.linkExact_iff, hnone]
  exact .of_empty rfl rfl rfl le_rfl fun hnot => absurd rfl hnot

theorem State.releaseReset_linkExact {s : State} (h : s.LinkExact) (bsel : BitVec 4) (own : Requester) :
    (s.releaseReset bsel own).LinkExact := by
  unfold releaseReset
  split
  · exact atReset_linkExact _ _ _ _
  · exact h

/-! ### The far link -/

/-- A choice is taken in IDLE only (R52, R57). -/
theorem State.idle_of_chosen {s : State} {i : Slot} (h : s.chosen = some i) : s.far.link = .idle := by
  have heligible := eligible_of_chosen h
  simp only [eligible, Bool.and_eq_true, beq_iff_eq] at heligible
  obtain ⟨⟨hidle, -⟩, -⟩ := heligible
  exact hidle

/-- The one place where a transaction begins (R62, R66). -/
theorem State.choose_linkExact {s : State} (h : s.LinkExact) : s.choose.LinkExact := by
  unfold choose
  split
  case h_1 i hchosen =>
    have hattempts : (s.handOver i).attempts = Function.update s.attempts i (some (s.record i).key) :=
      s.setRecord_attempts i _
    rw [State.linkExact_iff, hattempts]
    exact (s.linkExact_iff.1 h).handOver (idle_of_chosen hchosen) (s.record i).key i _
  case h_2 => exact h

theorem State.lastBeat_linkExact {s : State} (h : s.LinkExact) : s.lastBeat.LinkExact := by
  unfold lastBeat
  split
  case isTrue hrequest => exact (State.linkExact_iff _).2 ((s.linkExact_iff.1 h).lastBeat hrequest)
  case isFalse => exact h

theorem State.takeReply_linkExact {s : State} (h : s.LinkExact) (st : Station) (tag : Tag) (kind : BitVec 2)
    (data : Word) (check : Bool) : (s.takeReply st tag kind data check).LinkExact := by
  have hcounts (late misaddressed : BitVec 8) :=
    (s.linkExact_iff.1 h).counts late misaddressed s.far.requestClks
  unfold takeReply
  split
  case isTrue haccepts =>
    simp only [FarPort.accepts, Bool.and_eq_true, beq_iff_eq] at haccepts
    obtain ⟨⟨hawait, -⟩, -⟩ := haccepts
    exact endTransaction_linkExact h hawait _
  case isFalse =>
    split
    · exact (State.linkExact_iff _).2 (hcounts s.far.late _)
    · exact (State.linkExact_iff _).2 (hcounts _ s.far.misaddressed)

theorem State.takeSilent_linkExact {s : State} (h : s.LinkExact) : s.takeSilent.LinkExact := by
  unfold takeSilent
  split
  case isTrue hdue =>
    obtain ⟨hawait, -⟩ := (silentDue_iff s).1 hdue
    exact endTransaction_linkExact h hawait .silent
  case isFalse => exact h

theorem State.takeResetEnd_linkExact {s : State} (h : s.LinkExact) : s.takeResetEnd.LinkExact := by
  unfold takeResetEnd
  dsimp only
  split
  case isTrue hdue =>
    have hended : (s.setFar { s.far with link := .idle }).LinkExact :=
      (State.linkExact_iff _).2 ((s.linkExact_iff.1 h).resetEnd hdue)
    split
    · exact hended.complete .ok
    · exact hended
  case isFalse => exact h

theorem State.unlessReset_linkExact {s t : State} (h : s.LinkExact) (ht : t.LinkExact) :
    (s.unlessReset t).LinkExact := by
  unfold unlessReset
  split
  · exact h
  · exact ht

/-! ### Time -/

theorem State.expiryDue_iff (s : State) (i : Slot) (st : RecordState) :
    s.expiryDue i st = true ↔ (s.record i).expiring = true ∧ (s.record i).state = st := by
  simp [expiryDue]

theorem State.takeBackoffEnd_linkExact {s : State} (h : s.LinkExact) (i : Slot) : (s.takeBackoffEnd i).LinkExact := by
  unfold takeBackoffEnd
  split
  case isTrue hdue =>
    obtain ⟨-, hbackoff⟩ := (s.expiryDue_iff i _).1 hdue
    have hpending : (s.record i).backoffOver.state ≠ .attempt := by simp [Record.backoffOver]
    exact ((s.setRecord_drops i hpending).sameLink (by simp [hbackoff])).linkExact h
  case isFalse => exact h

theorem State.takeWatchDue_linkExact {s : State} (h : s.LinkExact) (i : Slot) : (s.takeWatchDue i).LinkExact := by
  unfold takeWatchDue
  split
  · exact (setRecord_sameLink (by rfl)).linkExact h
  · exact h

theorem State.takeDiscard_linkExact {s : State} (h : s.LinkExact) (i : Slot) : (s.takeDiscard i).LinkExact := by
  unfold takeDiscard
  split
  case isTrue hdue =>
    obtain ⟨-, hready⟩ := (s.expiryDue_iff i _).1 hdue
    exact ((freeRecord_linkExact h (by simp [hready])).setRequester _ _).setFlags _
  case isFalse => exact h

theorem takeExpiry_linkExact (s : State) (i : Slot) (h : s.LinkExact) : (takeExpiry s i).LinkExact :=
  State.takeDiscard_linkExact (State.takeWatchDue_linkExact (State.takeBackoffEnd_linkExact h i) i) i

/-- A tick at a record reaches its timer and its expiry mark only (R141). -/
theorem State.handTick_attempts (s : State) : s.handTick.attempts = s.attempts := by
  funext i
  simp only [State.attempts, State.handTick_record]
  rw [Record.countdown_frame]
  rfl

theorem State.handTick_linkExact {s : State} (h : s.LinkExact) : s.handTick.LinkExact := by
  rw [State.linkExact_iff, State.handTick_attempts]
  exact (s.linkExact_iff.1 h).countdown

theorem State.tick_linkExact {s : State} (h : s.LinkExact) : s.tick.LinkExact := by
  have hdue : s.takeDue.LinkExact := by
    unfold takeDue
    exact foldl_induct takeExpiry State.LinkExact takeExpiry_linkExact (List.finRange 24) _
      (takeResetEnd_linkExact (takeSilent_linkExact h))
  rw [State.tick]
  exact handTick_linkExact hdue

theorem State.clkPeriod_linkExact {s : State} (h : s.LinkExact) : s.clkPeriod.LinkExact := by
  have hclk : (s.setFar s.far.clk).LinkExact := (State.linkExact_iff _).2 (s.linkExact_iff.1 h).clk
  unfold clkPeriod
  dsimp only
  split
  · exact h
  · split
    · exact tick_linkExact hclk
    · exact hclk.quiet

/-! ### The step -/

/-- The law holds of the next state that a meaning answers when it holds of the state of the outcome. -/
theorem State.LinkExact.of_next {t u : State} (h : u.LinkExact)
    (hnext : (.next u : Host.Outcome State Fault Refusal) = .next t) : t.LinkExact :=
  Host.Outcome.next.inj hnext ▸ h

theorem exec_linkExact {s t : State} {c : Instr} (hs : s.LinkExact) (h : exec c s = .next t) : t.LinkExact := by
  have hown {u : State} (hu : u.LinkExact) : (s.unlessReset u).LinkExact := State.unlessReset_linkExact hs hu
  cases c with
  | chipReset => exact (State.atReset_linkExact _ _ _ _).of_next h
  | resetRelease bsel own => exact (State.releaseReset_linkExact hs bsel own).of_next h
  | farAccess _ | watchRead _ _ _ | watchApertureWrite _ _ _ _ _ => exact (State.nearAccess_linkExact hs _).of_next h
  | aperturesOpenWrite _ | timeBaseSelectWrite _ | silenceLimitWrite _ | stationModeWrite _ _ | clearLateCount _
  | clearMisaddressedCount _ | clearTurnedAwayCount _ _ | clearUnclaimedCount _ _ | faultClear _ _
  | watchSetupWrite _ _ _ | noticeClear _ _ | noticeEnableWrite _ _ | overlapClear _ | registerWrite _ _ =>
    exact (State.takeWindowWrite_linkExact hs _ _).of_next h
  | view _ | withdraw _ | withdrawRequester _ | clear _ | readmit _ | farReset _ | badCommand _ _ =>
    exact (State.ownerCommand_linkExact hs _ _).of_next h
  | choice => exact (hown (State.choose_linkExact hs)).of_next h
  | lastBeatDriven => exact (hown (State.lastBeat_linkExact hs)).of_next h
  | farReply st tag kind data check => exact (hown (State.takeReply_linkExact hs st tag kind data check)).of_next h
  | silent => exact (hown (State.takeSilent_linkExact hs)).of_next h
  | tick => exact (hown (State.tick_linkExact hs)).of_next h
  | backoffEnd i => exact (hown (State.takeBackoffEnd_linkExact hs i)).of_next h
  | watchDue i => exact (hown (State.takeWatchDue_linkExact hs i)).of_next h
  | discard i => exact (hown (State.takeDiscard_linkExact hs i)).of_next h
  | farResetEnd => exact (hown (State.takeResetEnd_linkExact hs)).of_next h

theorem step_linkExact {s t : State} (hs : s.LinkExact) (h : step s = .next t) : t.LinkExact := by
  cases hpending : s.pending with
  | nil =>
    cases hown : s.ownEvent with
    | none => exact (State.clkPeriod_linkExact hs).of_next (step_of_no_ownEvent hpending hown ▸ h)
    | some c => exact exec_linkExact hs (step_of_ownEvent hpending hown ▸ h)
  | cons c rest =>
    have hexec : exec c { s with pending := rest } = .next t := by simpa only [step, hpending] using h
    have hpop : State.LinkExact { s with pending := rest } := hs.quiet
    exact exec_linkExact hpop hexec

/-! ### What the law says of the records in ATTEMPT -/

section Consequences

variable {s : State} (h : s.LinkExact)
include h

/-- At most one record is in ATTEMPT: that of the context (R66). -/
theorem State.LinkExact.attempt_unique {i j : Slot} (hi : (s.record i).state = .attempt)
    (hj : (s.record j).state = .attempt) : i = j := by
  obtain ⟨hattempt, -⟩ := h
  obtain ⟨-, hslot⟩ := (hattempt i).1 hi
  obtain ⟨-, hslot'⟩ := (hattempt j).1 hj
  exact hslot.symm.trans hslot'

/-- A record is in ATTEMPT exactly in REQUEST and AWAIT (R66). -/
theorem State.LinkExact.exists_attempt_iff :
    (∃ i, (s.record i).state = .attempt) ↔ s.far.link = .request ∨ s.far.link = .await := by
  obtain ⟨hattempt, -⟩ := h
  simp only [hattempt, ← s.far.inFlight_iff, exists_and_left, exists_eq', and_true]

/-- One slot is in ATTEMPT in REQUEST and AWAIT, and none in IDLE and RESET (R66). -/
theorem State.LinkExact.slotsIn_attempt :
    s.slotsIn .attempt = if s.far.link = .request ∨ s.far.link = .await then 1 else 0 := by
  obtain ⟨hattempt, -⟩ := h
  simp only [State.slotsIn, ← s.far.inFlight_iff]
  split
  case isTrue hflight =>
    have hcontext : ∀ i ∈ List.finRange 24,
        ((s.record i).state == .attempt) = true ↔ (i == s.far.transaction.slot) = true := fun i _ => by
      rw [beq_iff_eq, beq_iff_eq, hattempt, and_iff_right hflight, eq_comm]
    rw [List.countP_congr hcontext]
    exact List.count_eq_one_of_mem (List.nodup_finRange 24) (List.mem_finRange _)
  case isFalse hidle =>
    rw [List.countP_eq_zero]
    intro i _
    simp [hattempt, hidle]

end Consequences

/-- Settles O56: every event of the link carries the attempts that the table's operations leave, and the law gives the
ATTEMPT count of the summary (R19). -/
theorem stepKeepsOneAttempt : Obligations.StepKeepsOneAttempt := by
  unfold Obligations.StepKeepsOneAttempt
  refine ⟨fun s t => step_linkExact, fun s h => ⟨fun i j => h.attempt_unique, h.exists_attempt_iff, ?_⟩⟩
  intro hsummary
  rw [hsummary]
  exact h.slotsIn_attempt

end Sys2Proof.Machine
end

