-- ==== Sys2Proof/Proofs/ClosedQuiet.lean ====
section
/-! PROOF. The records of a closed station (R128). Of a slot the law reads the record's state and its station's mode, so
each operation is asked what it does to these. The one event within which the law fails for a while is the silence that
loses a station: there it holds of all slots but that of the attempt, whose end then restores it (R127). -/

namespace Sys2Proof.Machine

/-! ### The states that a mode permits -/

/-- The states a mode leaves to a slot whose record is of the station (R124, the last column); FREE is no record. -/
def StationMode.permits : StationMode → RecordState → Bool
  | .active, _ => true
  | .suspended, _ => true
  | .off, x => x == .free || x == .ready || x == .attempt
  | .unreachable, x => x == .free || x == .ready

@[simp] theorem StationMode.permits_free (m : StationMode) : m.permits .free = true := by
  cases m <;> simp [permits]

@[simp] theorem StationMode.permits_ready (m : StationMode) : m.permits .ready = true := by
  cases m <;> simp [permits]

/-- A station in service holds records in any state. -/
theorem StationMode.permits_of_not_closed {m : StationMode} (h : ¬ m.closed = true) (x : RecordState) :
    m.permits x = true := by
  rcases m.closed_eq_false.1 (Bool.not_eq_true _ ▸ h) with rfl | rfl <;> rfl

/-- Only a station in service holds a record in BACKOFF. -/
theorem StationMode.not_closed_of_permits_backoff {m : StationMode} (h : m.permits .backoff = true) :
    ¬ m.closed = true := by
  cases m <;> simp_all [permits, closed]

/-- The law of R128 at one slot. -/
def State.QuietAt (s : State) (i : Slot) : Prop :=
  (s.stationEntry (s.record i).station).mode.permits (s.record i).state = true

/-- The law of R128 at every slot but one. -/
def State.QuietBut (s : State) (i : Slot) : Prop := ∀ j, j ≠ i → s.QuietAt j

theorem State.closedQuiet_iff (s : State) : s.ClosedQuiet ↔ ∀ i, s.QuietAt i := by
  refine forall_congr' fun i => ?_
  unfold State.QuietAt
  cases (s.stationEntry (s.record i).station).mode <;> simp [StationMode.permits, or_iff_not_imp_left]

theorem State.ClosedQuiet.quietAt {s : State} (h : s.ClosedQuiet) (i : Slot) : s.QuietAt i := s.closedQuiet_iff.1 h i

theorem State.ClosedQuiet.but {s : State} (h : s.ClosedQuiet) (i : Slot) : s.QuietBut i := fun j _ => h.quietAt j

theorem State.QuietBut.closedQuiet {s : State} {i : Slot} (h : s.QuietBut i) (hi : s.QuietAt i) : s.ClosedQuiet :=
  s.closedQuiet_iff.2 fun j => (eq_or_ne j i).elim (fun hji => hji ▸ hi) (h j)

/-! ### Changes that the law does not see -/

/-- A slot stays quiet while its record keeps state and station, and the stations keep their modes. -/
theorem State.QuietAt.of_same {s t : State} {i : Slot} (h : s.QuietAt i)
    (hstate : (t.record i).state = (s.record i).state) (hstation : (t.record i).station = (s.record i).station)
    (hmode : ∀ st, (t.stationEntry st).mode = (s.stationEntry st).mode) : t.QuietAt i := by
  rw [QuietAt, hstate, hstation, hmode]
  exact h

theorem State.QuietAt.quiet {s t : State} {i : Slot} (h : s.QuietAt i) (hslots : t.slots = s.slots)
    (hstations : t.stations = s.stations) : t.QuietAt i := by
  have hrecord : t.record i = s.record i := by rw [State.record, hslots]; rfl
  refine h.of_same (by rw [hrecord]) (by rw [hrecord]) fun st => ?_
  rw [State.stationEntry, hstations]
  rfl

/-- The law stays through a change outside the slots and the Station Table. -/
theorem State.ClosedQuiet.quiet {s t : State} (h : s.ClosedQuiet) (hslots : t.slots = s.slots)
    (hstations : t.stations = s.stations) : t.ClosedQuiet :=
  t.closedQuiet_iff.2 fun i => (h.quietAt i).quiet hslots hstations

theorem State.QuietAt.setFlags {s : State} {i : Slot} (h : s.QuietAt i) (n : Notices) : (s.setFlags n).QuietAt i :=
  h.quiet rfl rfl

section Quiet

variable {s : State} (h : s.ClosedQuiet)
include h

theorem State.ClosedQuiet.setFlags (n : Notices) : (s.setFlags n).ClosedQuiet := h.quiet rfl rfl

theorem State.ClosedQuiet.setRequester (q : Requester) (e : RequesterEntry) : (s.setRequester q e).ClosedQuiet :=
  h.quiet rfl rfl

theorem State.ClosedQuiet.setOrder (l : List Slot) : (s.setOrder l).ClosedQuiet := h.quiet rfl rfl

theorem State.ClosedQuiet.setPointer (st : Station) : (s.setPointer st).ClosedQuiet := h.quiet rfl rfl

theorem State.ClosedQuiet.setFar (f : FarPort) : (s.setFar f).ClosedQuiet := h.quiet rfl rfl

theorem State.ClosedQuiet.setParams (p : Params) : (s.setParams p).ClosedQuiet := h.quiet rfl rfl

theorem State.ClosedQuiet.setDivider (n : Nat) : (s.setDivider n).ClosedQuiet := h.quiet rfl rfl

theorem State.ClosedQuiet.setAnswer (a : NearAnswer) : (s.setAnswer a).ClosedQuiet := h.quiet rfl rfl

theorem State.ClosedQuiet.setCommand (c : CommandUnit) : (s.setCommand c).ClosedQuiet := h.quiet rfl rfl

theorem State.ClosedQuiet.complete (result : CommandResult) : (s.complete result).ClosedQuiet := h.quiet rfl rfl

theorem State.ClosedQuiet.startWait (wait : CommandWait) : (s.startWait wait).ClosedQuiet := h.quiet rfl rfl

theorem State.ClosedQuiet.refuse (q : Requester) (isRead : Bool) (reason : FaultReason) (region : FaultRegion)
    (st : Station) (offset : WordOffset) : (s.refuse q isRead reason region st offset).ClosedQuiet := h.quiet rfl rfl

theorem State.ClosedQuiet.reportAccess (a : ApertureAccess) (reason : FaultReason) :
    (s.reportAccess a reason).ClosedQuiet := h.quiet rfl rfl

theorem State.ClosedQuiet.faultAccess (a : ApertureAccess) (reason : FaultReason) :
    (s.faultAccess a reason).ClosedQuiet := h.quiet rfl rfl

theorem State.ClosedQuiet.retryAccess (a : ApertureAccess) : (s.retryAccess a).ClosedQuiet := h.quiet rfl rfl

end Quiet

/-! ### A station's entry -/

/-- A new mode that permits what the old one did keeps the law. -/
theorem State.ClosedQuiet.setStation {s : State} (h : s.ClosedQuiet) {st : Station} {e : StationEntry}
    (he : ∀ x, (s.stationEntry st).mode.permits x = true → e.mode.permits x = true) :
    (s.setStation st e).ClosedQuiet := by
  refine (State.closedQuiet_iff _).2 fun i => ?_
  have hi := h.quietAt i
  simp only [State.QuietAt, setStation_record, setStation_stationEntry] at hi ⊢
  split
  case isTrue hst => exact he _ (hst ▸ hi)
  case isFalse => exact hi

theorem State.ClosedQuiet.setSilences {s : State} (h : s.ClosedQuiet) (st : Station) (n : BitVec 4) :
    (s.setStation st { s.stationEntry st with silences := n }).ClosedQuiet :=
  h.setStation fun _ => id

theorem State.ClosedQuiet.clearSilences {s : State} (h : s.ClosedQuiet) : s.clearSilences.ClosedQuiet := by
  refine (State.closedQuiet_iff _).2 fun i => (h.quietAt i).of_same rfl rfl fun st => ?_
  rw [clearSilences_stationEntry]
  split <;> rfl

theorem State.closeStation_stationEntry (s : State) (st k : Station) :
    (s.closeStation st).stationEntry k = s.stationEntry k := by
  have hstations : (s.closeStation st).stations = s.stations := by rw [closeStation_frame]
  rw [stationEntry, hstations]
  rfl

/-- What a closure leaves waits no more: a record of the station that is not closed is FREE, READY or in ATTEMPT
(R127). -/
theorem Record.state_of_not_closedWith {r : Record} (h : ¬ r.closedWith r.station = true) :
    r.state = .free ∨ r.state = .ready ∨ r.state = .attempt := by
  cases hstate : r.state <;> simp_all [closedWith]

/-- A station enters a mode and closes, in one event (R127): its slots are quiet, where one in ATTEMPT is permitted. -/
theorem State.QuietAt.setStation_closeStation {s : State} {j : Slot} (h : s.QuietAt j) {st : Station}
    {e : StationEntry} (hattempt : (s.record j).state = .attempt → e.mode.permits .attempt = true) :
    ((s.setStation st e).closeStation st).QuietAt j := by
  rw [QuietAt, closeStation_stationEntry, closeStation_record, setStation_record, setStation_stationEntry]
  split
  case isTrue => exact StationMode.permits_ready _
  case isFalse hstays =>
    split
    case isTrue hst =>
      rcases Record.state_of_not_closedWith (hst ▸ hstays) with hstate | hstate | hstate
      · simp [hstate]
      · simp [hstate]
      · exact hstate ▸ hattempt hstate
    case isFalse => exact h

theorem State.ClosedQuiet.setStation_closeStation {s : State} (h : s.ClosedQuiet) {st : Station} {e : StationEntry}
    (he : e.mode.permits .attempt = true) : ((s.setStation st e).closeStation st).ClosedQuiet :=
  (State.closedQuiet_iff _).2 fun j => (h.quietAt j).setStation_closeStation fun _ => he

/-! ### One record -/

/-- The content of a slot settles the law at that slot. -/
theorem State.QuietBut.setRecord {s : State} {i : Slot} (h : s.QuietBut i) {r : Record}
    (hr : (s.stationEntry r.station).mode.permits r.state = true) : (s.setRecord i r).ClosedQuiet := by
  refine (State.closedQuiet_iff _).2 fun j => ?_
  rw [QuietAt, setRecord_record, setRecord_stationEntry]
  split
  case isTrue => exact hr
  case isFalse hji => exact h j hji

theorem State.QuietBut.setRecord_but {s : State} {i : Slot} (h : s.QuietBut i) (r : Record) :
    (s.setRecord i r).QuietBut i := fun j hji =>
  (h j hji).of_same (by simp [hji]) (by simp [hji]) fun _ => rfl

theorem State.ClosedQuiet.setRecord_sameState {s : State} (h : s.ClosedQuiet) {i : Slot} {r : Record}
    (hstate : r.state = (s.record i).state) (hstation : r.station = (s.record i).station) :
    (s.setRecord i r).ClosedQuiet :=
  (h.but i).setRecord (by rw [hstate, hstation]; exact h.quietAt i)

theorem State.QuietBut.freeRecord {s : State} {i : Slot} (h : s.QuietBut i) : (s.freeRecord i).ClosedQuiet := by
  by_cases hlive : (s.record i).live
  · rw [s.freeRecord_of_live i hlive]
    exact ((h.setRecord (StationMode.permits_free _)).setOrder _).setRequester _ _
  · have hfree : (s.record i).state = .free := not_not.1 hlive
    rw [s.freeRecord_of_free i hfree]
    exact h.closedQuiet (by rw [QuietAt, hfree]; exact StationMode.permits_free _)

theorem State.QuietBut.toReady {s : State} {i : Slot} (h : s.QuietBut i) (o : RecordOutcome) (d : Word) :
    (s.toReady i o d).ClosedQuiet :=
  (h.setRecord (r := (s.record i).finished s.params.collectionLimit o d) (StationMode.permits_ready _)).setFlags _

/-! ### The end of an attempt -/

/-- A record returns to wait only at a station in service (R97). -/
theorem State.QuietBut.returnRecord {s : State} {i : Slot} (h : s.QuietBut i) : (s.returnRecord i).ClosedQuiet := by
  have hstation (e : StationEntry) : ((s.record i).returned e).station = (s.record i).station := by
    unfold Record.returned
    split <;> rfl
  unfold State.returnRecord
  dsimp only
  split
  case isTrue => exact h.toReady .noStation 0
  case isFalse hopen => exact h.setRecord (StationMode.permits_of_not_closed (by rwa [hstation]) _)

theorem State.QuietBut.applyEnd {s : State} {i : Slot} (h : s.QuietBut i) (e : AttemptEnd) :
    (s.applyEnd i e).ClosedQuiet := by
  unfold State.applyEnd
  dsimp only
  split
  · exact (h.setRecord_but _).toReady _ _
  · exact (h.setRecord_but _).returnRecord

/-- The end of an attempt leaves its slot quiet, whatever its station became meanwhile (R87, R97, R99). -/
theorem State.QuietBut.endRecord {s : State} {i : Slot} (h : s.QuietBut i) (hi : (s.record i).state = .attempt)
    (e : AttemptEnd) : (s.endRecord i e).ClosedQuiet := by
  have hmarked : (s.freeMarked i).ClosedQuiet := by
    unfold freeMarked
    dsimp only
    split
    · exact h.freeRecord.complete .ok
    · exact h.freeRecord
  rw [State.endRecord, if_pos hi]
  split
  · exact hmarked
  · exact h.applyEnd e

theorem State.ClosedQuiet.acceptReply {s : State} (h : s.ClosedQuiet) (st : Station) :
    (s.acceptReply st).ClosedQuiet := by
  unfold State.acceptReply
  split
  · exact h
  · exact h.setSilences st 0

/-- A silence can leave one record in ATTEMPT at an UNREACHABLE station: that of the attempt it ends (R127, R130). -/
theorem State.ClosedQuiet.countSilence {s : State} (h : s.ClosedQuiet) {i : Slot}
    (hone : ∀ j, (s.record j).state = .attempt → j = i) (st : Station) : (s.countSilence st).QuietBut i := by
  unfold State.countSilence
  dsimp only
  split
  · exact h.but i
  · split
    · intro j hji
      exact ((h.quietAt j).setStation_closeStation fun hj => absurd (hone j hj) hji).setFlags _
    · exact (h.setSilences st _).but i

theorem State.ClosedQuiet.stationPart {s : State} (h : s.ClosedQuiet) {i : Slot}
    (hone : ∀ j, (s.record j).state = .attempt → j = i) (st : Station) (e : AttemptEnd) :
    (s.stationPart st e).QuietBut i := by
  cases e with
  | silent => exact h.countSilence hone st
  | clean _ | tainted _ | hold | reject => exact (h.acceptReply st).but i

theorem State.SameLink.attempt_iff {s t : State} (h : s.SameLink t) (i : Slot) :
    (t.record i).state = .attempt ↔ (s.record i).state = .attempt := by
  have hkey : (t.record i).attemptKey = (s.record i).attemptKey := congrFun h.attempts i
  rw [← not_iff_not, ← ne_eq, ← ne_eq, ← Record.attemptKey_eq_none_iff, ← Record.attemptKey_eq_none_iff, hkey]

/-- In AWAIT the one record in ATTEMPT is that of the context, so the end reaches the slot the silence leaves (R66). -/
theorem State.ClosedQuiet.endTransaction {s : State} (h : s.ClosedQuiet) (hlink : s.LinkExact)
    (hawait : s.far.link = .await) (e : AttemptEnd) : (s.endTransaction e).ClosedQuiet := by
  obtain ⟨hattempt, -⟩ := hlink
  have hone (j : Slot) (hj : (s.record j).state = .attempt) : j = s.far.transaction.slot := by
    obtain ⟨-, hslot⟩ := (hattempt j).1 hj
    exact hslot.symm
  have hcontext : (s.record s.far.transaction.slot).state = .attempt :=
    (hattempt _).2 ⟨s.far.inFlight_iff.2 (.inr hawait), rfl⟩
  have hfreed : (s.setFar (s.far.over .idle)).ClosedQuiet := h.setFar _
  have hsame := (s.setFar (s.far.over .idle)).stationPart_sameLink s.far.transaction.station e
  exact (hfreed.stationPart hone _ e).endRecord ((hsame.attempt_iff _).2 hcontext) e

/-! ### The Command Unit -/

theorem State.ClosedQuiet.withdrawRecord {s : State} (h : s.ClosedQuiet) (i : Slot) :
    (s.withdrawRecord i).ClosedQuiet := by
  unfold State.withdrawRecord
  split
  · exact h.setRecord_sameState rfl rfl
  · exact (h.but i).freeRecord

theorem State.ClosedQuiet.withdrawSlot {s : State} (h : s.ClosedQuiet) (i : Slot) :
    (s.withdrawSlot i).ClosedQuiet := by
  unfold State.withdrawSlot
  split
  case h_1 => exact h.complete .noRecord
  case h_2 => exact (h.withdrawRecord i).startWait _
  case h_3 | h_4 | h_5 | h_6 => exact (h.withdrawRecord i).complete .ok

theorem State.ClosedQuiet.withdrawMany {s : State} (h : s.ClosedQuiet) (q : Option Requester) :
    (s.withdrawMany q).ClosedQuiet := by
  have hone (t : State) (i : Slot) (ht : t.ClosedQuiet) : (withdrawOne q t i).ClosedQuiet := by
    unfold withdrawOne
    split
    · exact ht.withdrawRecord i
    · exact ht
  have hall := foldl_induct (withdrawOne q) State.ClosedQuiet hone (List.finRange 24) s h
  unfold State.withdrawMany
  dsimp only
  split
  · exact hall.complete .ok
  · exact hall.startWait _

theorem State.ClosedQuiet.readmitStation {s : State} (h : s.ClosedQuiet) (st : Station) :
    (s.readmitStation st).ClosedQuiet := by
  unfold State.readmitStation
  split
  · exact (h.setStation fun _ _ => rfl).complete .ok
  · exact h.complete .notUnreachable

theorem State.ClosedQuiet.abandon {s : State} (h : s.ClosedQuiet) : s.abandon.ClosedQuiet := by
  have hrecord (i : Slot) : (s.abandonRecord i).ClosedQuiet := by
    unfold abandonRecord
    split
    · exact (h.but i).returnRecord
    · exact h
  unfold State.abandon
  split
  case h_1 | h_2 => exact hrecord _
  case h_3 | h_4 => exact h

theorem State.ClosedQuiet.runCommand {s : State} (h : s.ClosedQuiet) (name : CommandName) (operand : Byte) :
    (s.runCommand name operand).ClosedQuiet := by
  cases name <;> simp only [State.runCommand]
  case view => split; exacts [(h.setCommand _).complete .ok, h.complete _]
  case withdraw => split; exacts [h.withdrawSlot _, h.complete _]
  case withdrawRequester => split; exacts [h.withdrawMany _, h.complete _]
  case clear => exact h.withdrawMany none
  case readmit => split; exacts [h.readmitStation _, h.complete _]
  case farReset => exact (h.abandon.clearSilences.setFar _).startWait .farReset

theorem State.ClosedQuiet.writeCommand {s : State} (h : s.ClosedQuiet) (code operand : Byte) :
    (s.writeCommand code operand).ClosedQuiet := by
  unfold State.writeCommand State.takeCommand
  dsimp only
  split
  · exact h.setCommand _
  · split
    · exact (h.setCommand _).runCommand _ operand
    · exact (h.setCommand _).complete .badCommand

theorem State.ClosedQuiet.ownerCommand {s : State} (h : s.ClosedQuiet) (code operand : Byte) :
    (s.ownerCommand code operand).ClosedQuiet := by
  unfold State.ownerCommand
  split
  · exact h.setAnswer _
  · exact (h.writeCommand code operand).setAnswer _

/-! ### The control window -/

/-- A mode write closes the station it takes out of service, and no other write narrows what a mode permits
(R125, R126). -/
theorem State.ClosedQuiet.writeMode {s : State} (h : s.ClosedQuiet) (st : Station) (code : BitVec 2) :
    (s.writeMode st code).ClosedQuiet := by
  unfold State.writeMode
  dsimp only
  split
  case h_1 | h_3 | h_4 | h_5 | h_9 | h_13 => exact h
  case h_2 hmode _ =>
    refine h.setStation fun x hx => ?_
    rw [hmode] at hx
    exact Bool.or_eq_true_iff.2 (.inl hx)
  case h_6 | h_7 =>
    exact h.setStation_closeStation rfl
  case h_8 | h_10 | h_11 | h_12 => exact h.setStation fun _ _ => rfl

theorem State.ClosedQuiet.writeStationMode {s : State} (h : s.ClosedQuiet) (st : Station) (lanes : Lanes)
    (data : Word) : (s.writeStationMode st lanes data).ClosedQuiet := by
  have hclass : (if laneOn lanes 1 then s.writeClass st (data.getLsbD 8) else s).ClosedQuiet := by
    split
    · exact h.setStation fun _ => id
    · exact h
  unfold State.writeStationMode
  dsimp only
  split
  · exact hclass.writeMode st _
  · exact hclass

theorem State.ClosedQuiet.writeGlobalControl {s : State} (h : s.ClosedQuiet) (lanes : Lanes) (data : Word) :
    (s.writeGlobalControl lanes data).ClosedQuiet := by
  have htimeBase {t : State} (ht : t.ClosedQuiet) (n : BitVec 3) : (t.writeTimeBase n).ClosedQuiet := by
    unfold writeTimeBase
    split
    · exact ht
    · exact (ht.setParams _).setDivider _
  have hopen : (if laneOn lanes 0 then s.setParams { s.params with aperturesOpen := data.getLsbD 0 }
      else s).ClosedQuiet := by
    split
    · exact h.setParams _
    · exact h
  unfold State.writeGlobalControl
  dsimp only
  split
  · exact htimeBase hopen _
  · exact hopen

theorem State.ClosedQuiet.writeSilenceLimit {s : State} (h : s.ClosedQuiet) (n : BitVec 4) :
    (s.writeSilenceLimit n).ClosedQuiet := by
  unfold State.writeSilenceLimit
  split
  · exact h
  · exact (h.setParams _).clearSilences

/-- Of the words of the control window the station entries and the silence limit reach the Station Table, and the
command both tables. -/
theorem State.ClosedQuiet.writeRegister {s : State} (h : s.ClosedQuiet) (reg : Register) (lanes : Lanes)
    (data : Word) : (s.writeRegister reg lanes data).ClosedQuiet := by
  cases reg with
  | stationMode st => exact h.writeStationMode st lanes data
  | stationTiming st | stationPoll st => exact h.setStation fun _ => id
  | silenceLimit =>
    simp only [State.writeRegister]
    split
    · exact h.writeSilenceLimit _
    · exact h
  | command =>
    simp only [State.writeRegister, writeCommandRegister]
    split
    · exact h.writeCommand _ _
    · exact h
  | globalControl => exact h.writeGlobalControl lanes data
  | requesterCounts r =>
    simp only [State.writeRegister, writeQuota]
    split <;> exact h.quiet rfl rfl
  | faultOffset r =>
    simp only [State.writeRegister, writeFaultClear]
    split <;> exact h.quiet rfl rfl
  | commandStatus =>
    simp only [State.writeRegister, writeOverlap]
    split <;> exact h.quiet rfl rfl
  | _ => exact h.quiet rfl rfl

theorem State.ClosedQuiet.windowWrite {s : State} (h : s.ClosedQuiet) (o : WindowOffset) (w : WindowWrite) :
    (s.windowWrite o w).ClosedQuiet := by
  unfold State.windowWrite
  split
  · exact h.refuse _ _ _ _ _ _
  · split
    · exact h.refuse _ _ _ _ _ _
    · exact (h.writeRegister _ w.lanes w.data).setAnswer _

theorem State.ClosedQuiet.takeWindowWrite {s : State} (h : s.ClosedQuiet) (o : WindowOffset) (w : WindowWrite) :
    (s.takeWindowWrite o w).ClosedQuiet := by
  unfold State.takeWindowWrite
  split
  · exact h.setAnswer _
  · exact h.windowWrite o w

/-! ### The near port -/

theorem State.ClosedQuiet.collect {s : State} (h : s.ClosedQuiet) (i : Slot) (a : ApertureAccess) :
    (s.collect i a).ClosedQuiet := by
  have hfreed : (s.freeRecord i).ClosedQuiet := (h.but i).freeRecord
  unfold State.collect
  dsimp only
  split
  case h_1 => exact hfreed.setAnswer _
  case h_2 | h_6 => exact (hfreed.reportAccess a _).setAnswer _
  case h_3 | h_4 | h_5 => exact hfreed.faultAccess a _
  case h_7 => exact h.retryAccess a

theorem newRecord_station (a : ApertureAccess) (setup : WatchSetup) : (newRecord a setup).station = a.station := by
  unfold newRecord
  dsimp only
  split <;> rfl

/-- Admission enters no record for a closed station (R44). -/
theorem State.ClosedQuiet.admitOrRefuse {s : State} (h : s.ClosedQuiet) (a : ApertureAccess) :
    (s.admitOrRefuse a).ClosedQuiet := by
  unfold State.admitOrRefuse
  dsimp only
  split
  · exact h.faultAccess a _
  · split
    · exact h.faultAccess a _
    case isFalse hopen =>
      have hentered (i : Slot) :
          (s.enterRecord i (newRecord a (s.requesterEntry a.requester).setup)).ClosedQuiet :=
        (((h.but i).setRecord (StationMode.permits_of_not_closed (by rwa [newRecord_station]) _)).setOrder
          _).setRequester _ _
      iterate 2
        split
        · exact h.quiet rfl rfl
      split
      case h_1 => exact h.quiet rfl rfl
      case h_2 i _ => exact (hentered i).retryAccess a

theorem State.ClosedQuiet.apertureAccess {s : State} (h : s.ClosedQuiet) (a : ApertureAccess) :
    (s.apertureAccess a).ClosedQuiet := by
  have hmatched : (s.matchAccess a).ClosedQuiet := by
    unfold matchAccess
    split
    case h_1 i _ =>
      split
      · exact h.collect i a
      · exact h.retryAccess a
    case h_2 => exact h.admitOrRefuse a
  unfold State.apertureAccess
  iterate 3
    split
    · exact h.faultAccess a _
  exact hmatched

theorem State.ClosedQuiet.claimAperture {s : State} (h : s.ClosedQuiet) (n : NearAccess) (isWatch : Bool)
    (st : Station) (o : WordOffset) : (s.claimAperture n isWatch st o).ClosedQuiet := by
  unfold State.claimAperture
  split
  · exact h.apertureAccess _
  · exact h.setAnswer _

theorem State.ClosedQuiet.windowAccess {s : State} (h : s.ClosedQuiet) (n : NearAccess) (o : WindowOffset) :
    (s.windowAccess n o).ClosedQuiet := by
  unfold State.windowAccess
  split
  · exact h.setAnswer _
  · exact h.windowWrite o _

theorem State.ClosedQuiet.nearAccess {s : State} (h : s.ClosedQuiet) (n : NearAccess) :
    (s.nearAccess n).ClosedQuiet := by
  unfold State.nearAccess
  split
  · exact h.setAnswer _
  · split
    · exact h.claimAperture n false _ _
    · exact h.claimAperture n true _ _
    · exact h.windowAccess n _
    · exact h.setAnswer _

/-! ### Chip reset -/

theorem State.atReset_closedQuiet (rst : Bool) (bsel : BitVec 4) (own : Requester) (pending : List Instr) :
    (State.atReset rst bsel own pending).ClosedQuiet :=
  fun i hlive => absurd (by simp [State.record, State.atReset, Record.free]) hlive

theorem State.ClosedQuiet.releaseReset {s : State} (h : s.ClosedQuiet) (bsel : BitVec 4) (own : Requester) :
    (s.releaseReset bsel own).ClosedQuiet := by
  unfold State.releaseReset
  split
  · exact atReset_closedQuiet _ _ _ _
  · exact h

/-! ### The far link -/

/-- A choice takes a record of an ACTIVE station (R52). -/
theorem State.active_of_chosen {s : State} {i : Slot} (h : s.chosen = some i) :
    (s.stationEntry (s.record i).station).mode = .active := by
  have heligible := eligible_of_chosen h
  simp only [eligible, Bool.and_eq_true, beq_iff_eq] at heligible
  obtain ⟨⟨-, hactive⟩, -⟩ := heligible
  exact hactive

theorem State.ClosedQuiet.choose {s : State} (h : s.ClosedQuiet) : s.choose.ClosedQuiet := by
  unfold State.choose
  split
  case h_1 i hchosen =>
    have hattempt : (s.stationEntry (s.record i).station).mode.permits .attempt = true := by
      rw [active_of_chosen hchosen]
      rfl
    exact (((h.but i).setRecord hattempt).setPointer _).setFar _
  case h_2 => exact h

theorem State.ClosedQuiet.lastBeat {s : State} (h : s.ClosedQuiet) : s.lastBeat.ClosedQuiet := by
  unfold State.lastBeat
  split
  · exact h.setFar _
  · exact h

theorem State.ClosedQuiet.takeReply {s : State} (h : s.ClosedQuiet) (hlink : s.LinkExact) (st : Station) (tag : Tag)
    (kind : BitVec 2) (data : Word) (check : Bool) : (s.takeReply st tag kind data check).ClosedQuiet := by
  unfold State.takeReply
  split
  case isTrue haccepts =>
    simp only [FarPort.accepts, Bool.and_eq_true, beq_iff_eq] at haccepts
    obtain ⟨⟨hawait, -⟩, -⟩ := haccepts
    exact h.endTransaction hlink hawait _
  case isFalse =>
    split
    · exact (h.setFar _).setFlags _
    · exact (h.setFar _).setFlags _

theorem State.ClosedQuiet.takeSilent {s : State} (h : s.ClosedQuiet) (hlink : s.LinkExact) :
    s.takeSilent.ClosedQuiet := by
  unfold State.takeSilent
  split
  case isTrue hdue =>
    obtain ⟨hawait, -⟩ := (silentDue_iff s).1 hdue
    exact h.endTransaction hlink hawait .silent
  case isFalse => exact h

theorem State.ClosedQuiet.takeResetEnd {s : State} (h : s.ClosedQuiet) : s.takeResetEnd.ClosedQuiet := by
  unfold State.takeResetEnd
  dsimp only
  split
  · split
    · exact (h.setFar _).complete .ok
    · exact h.setFar _
  · exact h

theorem State.ClosedQuiet.unlessReset {s t : State} (h : s.ClosedQuiet) (ht : t.ClosedQuiet) :
    (s.unlessReset t).ClosedQuiet := by
  unfold State.unlessReset
  split
  · exact h
  · exact ht

/-! ### Time -/

/-- A backoff ends at a station in service only, for no other has one (R128). -/
theorem State.ClosedQuiet.takeBackoffEnd {s : State} (h : s.ClosedQuiet) (i : Slot) :
    (s.takeBackoffEnd i).ClosedQuiet := by
  unfold State.takeBackoffEnd
  split
  case isTrue hdue =>
    obtain ⟨-, hbackoff⟩ := (s.expiryDue_iff i _).1 hdue
    have hpermits : (s.stationEntry (s.record i).station).mode.permits .backoff = true := hbackoff ▸ h.quietAt i
    have hopen := StationMode.not_closed_of_permits_backoff hpermits
    exact (h.but i).setRecord (StationMode.permits_of_not_closed hopen _)
  case isFalse => exact h

theorem State.ClosedQuiet.takeWatchDue {s : State} (h : s.ClosedQuiet) (i : Slot) :
    (s.takeWatchDue i).ClosedQuiet := by
  unfold State.takeWatchDue
  split
  · exact h.setRecord_sameState rfl rfl
  · exact h

theorem State.ClosedQuiet.takeDiscard {s : State} (h : s.ClosedQuiet) (i : Slot) : (s.takeDiscard i).ClosedQuiet := by
  unfold State.takeDiscard
  split
  · exact ((h.but i).freeRecord.setRequester _ _).setFlags _
  · exact h

theorem takeExpiry_closedQuiet (s : State) (i : Slot) (h : s.ClosedQuiet) : (takeExpiry s i).ClosedQuiet :=
  ((h.takeBackoffEnd i).takeWatchDue i).takeDiscard i

theorem State.ClosedQuiet.handTick {s : State} (h : s.ClosedQuiet) : s.handTick.ClosedQuiet := by
  refine (State.closedQuiet_iff _).2 fun i => (h.quietAt i).of_same ?_ ?_ fun _ => rfl
  · rw [handTick_record, Record.countdown_frame]
  · rw [handTick_record, Record.countdown_frame]

theorem State.ClosedQuiet.tick {s : State} (h : s.ClosedQuiet) (hlink : s.LinkExact) : s.tick.ClosedQuiet := by
  have hdue : s.takeDue.ClosedQuiet := by
    unfold takeDue
    exact foldl_induct takeExpiry State.ClosedQuiet takeExpiry_closedQuiet (List.finRange 24) _
      (h.takeSilent hlink).takeResetEnd
  rw [State.tick]
  exact hdue.handTick

theorem State.ClosedQuiet.clkPeriod {s : State} (h : s.ClosedQuiet) (hlink : s.LinkExact) :
    s.clkPeriod.ClosedQuiet := by
  have hclk : (s.setFar s.far.clk).LinkExact := (State.linkExact_iff _).2 (s.linkExact_iff.1 hlink).clk
  unfold State.clkPeriod
  dsimp only
  split
  · exact h
  · split
    · exact (h.setFar _).tick hclk
    · exact (h.setFar _).setDivider _

/-! ### The step -/

theorem State.ClosedQuiet.of_next {t u : State} (h : u.ClosedQuiet)
    (hnext : (.next u : Host.Outcome State Fault Refusal) = .next t) : t.ClosedQuiet :=
  Host.Outcome.next.inj hnext ▸ h

theorem exec_closedQuiet {s t : State} {c : Instr} (hs : s.ClosedQuiet) (hlink : s.LinkExact)
    (h : exec c s = .next t) : t.ClosedQuiet := by
  cases c with
  | chipReset => exact (State.atReset_closedQuiet _ _ _ _).of_next h
  | resetRelease bsel own => exact (hs.releaseReset bsel own).of_next h
  | farAccess _ | watchRead _ _ _ | watchApertureWrite _ _ _ _ _ => exact (hs.nearAccess _).of_next h
  | aperturesOpenWrite _ | timeBaseSelectWrite _ | silenceLimitWrite _ | stationModeWrite _ _ | clearLateCount _
  | clearMisaddressedCount _ | clearTurnedAwayCount _ _ | clearUnclaimedCount _ _ | faultClear _ _
  | watchSetupWrite _ _ _ | noticeClear _ _ | noticeEnableWrite _ _ | overlapClear _ | registerWrite _ _ =>
    exact (hs.takeWindowWrite _ _).of_next h
  | view _ | withdraw _ | withdrawRequester _ | clear _ | readmit _ | farReset _ | badCommand _ _ =>
    exact (hs.ownerCommand _ _).of_next h
  | choice => exact (hs.unlessReset hs.choose).of_next h
  | lastBeatDriven => exact (hs.unlessReset hs.lastBeat).of_next h
  | farReply st tag kind data check => exact (hs.unlessReset (hs.takeReply hlink st tag kind data check)).of_next h
  | silent => exact (hs.unlessReset (hs.takeSilent hlink)).of_next h
  | tick => exact (hs.unlessReset (hs.tick hlink)).of_next h
  | backoffEnd i => exact (hs.unlessReset (hs.takeBackoffEnd i)).of_next h
  | watchDue i => exact (hs.unlessReset (hs.takeWatchDue i)).of_next h
  | discard i => exact (hs.unlessReset (hs.takeDiscard i)).of_next h
  | farResetEnd => exact (hs.unlessReset hs.takeResetEnd).of_next h

/-- Settles O57: each event keeps the law; the end of an attempt does by the law of the link, which gives it the one
record in ATTEMPT. -/
theorem stepKeepsClosedStationsQuiet : Obligations.StepKeepsClosedStationsQuiet := by
  unfold Obligations.StepKeepsClosedStationsQuiet
  intro s t hs hlink h
  cases hpending : s.pending with
  | nil =>
    cases hown : s.ownEvent with
    | none => exact (hs.clkPeriod hlink).of_next (step_of_no_ownEvent hpending hown ▸ h)
    | some c => exact exec_closedQuiet hs hlink (step_of_ownEvent hpending hown ▸ h)
  | cons c rest =>
    have hexec : exec c { s with pending := rest } = .next t := by simpa only [step, hpending] using h
    have hquiet : State.ClosedQuiet { s with pending := rest } := hs.quiet rfl rfl
    exact exec_closedQuiet hquiet (hlink.quiet rfl rfl) hexec

end Sys2Proof.Machine
end

