-- ==== Sys2Proof/Proofs/NoticeSignal.lean ====
section
/-! PROOF. NOTICE# (R159). The signal is computed from the six groups of flags and enables, and the statement speaks of
the two words of R177; so each bit of a word is first traced to its group. -/

namespace Sys2Proof.Machine

/-! ### Where a flag stands in its word -/

theorem fieldAt_bit {n : Nat} (x : BitVec n) (position k : Nat) :
    (fieldAt x.toNat position).getLsbD k = (decide (k < 32) && decide (position ≤ k) && x.getLsbD (k - position)) := by
  rw [fieldAt, BitVec.getLsbD_shiftLeft, BitVec.getLsbD_ofNat, BitVec.testBit_toNat]
  by_cases hk : k < 32 <;> by_cases hp : position ≤ k
  · simp [hk, hp, show k - position < 32 by omega]
  · simp [hp, Nat.lt_of_not_le hp]
  · simp [hk]
  · simp [hk]

theorem bitAt_bit (b : Bool) {position : Nat} (hposition : position < 32) (k : Nat) :
    (bitAt b position).getLsbD k = (decide (k = position) && b) := by
  rw [bitAt, ← BitVec.toNat_ofBool, fieldAt_bit]
  by_cases hk : k = position
  · simp [hk, hposition]
  · by_cases hp : position ≤ k
    · simp [hk, show k - position ≠ 0 by omega]
    · simp [hk, hp]

/-- Word A holds READY, FAULT and UNCLAIMED in a byte each, then CMDDONE and LINKERR (R177). -/
theorem Notices.toWord_a_bit (n : Notices) (k : Nat) :
    (n.toWord .a).getLsbD k =
      if k < 8 then n.ready.getLsbD k else if k < 16 then n.fault.getLsbD (k - 8)
      else if k < 24 then n.unclaimed.getLsbD (k - 16) else (k == 24 && n.cmdDone) || (k == 25 && n.linkErr) := by
  have hcmdDone := bitAt_bit n.cmdDone (position := 24) (by decide) k
  have hlinkErr := bitAt_bit n.linkErr (position := 25) (by decide) k
  simp only [Notices.toWord, BitVec.getLsbD_or, fieldAt_bit, hcmdDone, hlinkErr, Nat.sub_zero]
  split_ifs with h8 h16 h24
  · have hbelow : ¬ 8 ≤ k ∧ ¬ 16 ≤ k ∧ k ≠ 24 ∧ k ≠ 25 ∧ k < 32 := by omega
    simp [hbelow]
  · have hbyte : 8 ≤ k ∧ ¬ 16 ≤ k ∧ k ≠ 24 ∧ k ≠ 25 ∧ k < 32 := by omega
    simp [hbyte]
  · have hbyte : 8 ≤ k ∧ 8 ≤ k - 8 ∧ 16 ≤ k ∧ k ≠ 24 ∧ k ≠ 25 ∧ k < 32 := by omega
    simp [hbyte]
  · have habove : 8 ≤ k ∧ 8 ≤ k - 8 ∧ 8 ≤ k - 16 := by omega
    simp [habove, beq_eq_decide]

/-- Word B holds LOST (R177). -/
theorem Notices.toWord_b_bit (n : Notices) (k : Nat) : (n.toWord .b).getLsbD k = n.lost.getLsbD k := by
  rw [Notices.toWord, fieldAt_bit]
  by_cases hk : k < 32
  · simp [hk]
  · simp [hk, BitVec.getLsbD_of_ge n.lost k (by omega)]

/-! ### The signal -/

theorem and_bne_zero_iff {n : Nat} (x y : BitVec n) :
    (x &&& y != 0) = true ↔ ∃ k < n, x.getLsbD k = true ∧ y.getLsbD k = true := by
  simp [BitVec.eq_of_getLsbD_eq_iff]

/-- The signal in terms of the groups, as the words of R177 hold them. -/
theorem State.noticeAsserted_iff (s : State) :
    s.noticeAsserted = true ↔
      (∃ k < 8, s.flags.ready.getLsbD k = true ∧ s.enables.ready.getLsbD k = true) ∨
      (∃ k < 8, s.flags.fault.getLsbD k = true ∧ s.enables.fault.getLsbD k = true) ∨
      (∃ k < 8, s.flags.unclaimed.getLsbD k = true ∧ s.enables.unclaimed.getLsbD k = true) ∨
      (∃ k < 16, s.flags.lost.getLsbD k = true ∧ s.enables.lost.getLsbD k = true) ∨
      (s.flags.cmdDone = true ∧ s.enables.cmdDone = true) ∨
      (s.flags.linkErr = true ∧ s.enables.linkErr = true) := by
  simp only [State.noticeAsserted, Bool.or_eq_true, Bool.and_eq_true, and_bne_zero_iff, or_assoc]

theorem State.noticeAsserted_iff_word_bit (s : State) :
    s.noticeAsserted = true ↔
      ∃ word k, (s.flags.toWord word).getLsbD k = true ∧ (s.enables.toWord word).getLsbD k = true := by
  rw [s.noticeAsserted_iff]
  constructor
  · rintro (⟨k, hk, hset⟩ | ⟨k, hk, hset⟩ | ⟨k, hk, hset⟩ | ⟨k, -, hset⟩ | hset | hset)
    · exact ⟨.a, k, by simpa only [Notices.toWord_a_bit, if_pos hk] using hset⟩
    · exact ⟨.a, k + 8, by simpa [Notices.toWord_a_bit, show k + 8 < 16 by omega] using hset⟩
    · exact ⟨.a, k + 16, by simpa [Notices.toWord_a_bit, show k + 16 < 24 by omega] using hset⟩
    · exact ⟨.b, k, by simpa only [Notices.toWord_b_bit] using hset⟩
    · exact ⟨.a, 24, by rw [Notices.toWord_a_bit, Notices.toWord_a_bit]; simpa using hset⟩
    · exact ⟨.a, 25, by rw [Notices.toWord_a_bit, Notices.toWord_a_bit]; simpa using hset⟩
  · rintro ⟨word, k, hflag, henable⟩
    cases word with
    | b =>
      rw [Notices.toWord_b_bit] at hflag henable
      exact .inr (.inr (.inr (.inl ⟨k, BitVec.lt_of_getLsbD hflag, hflag, henable⟩)))
    | a =>
      rw [Notices.toWord_a_bit] at hflag henable
      split_ifs at hflag henable
      · exact .inl ⟨k, BitVec.lt_of_getLsbD hflag, hflag, henable⟩
      · exact .inr (.inl ⟨k - 8, BitVec.lt_of_getLsbD hflag, hflag, henable⟩)
      · exact .inr (.inr (.inl ⟨k - 16, BitVec.lt_of_getLsbD hflag, hflag, henable⟩))
      · simp only [Bool.or_eq_true, Bool.and_eq_true, beq_iff_eq] at hflag henable
        rcases hflag with ⟨rfl, hflag⟩ | ⟨rfl, hflag⟩
        · exact .inr (.inr (.inr (.inr (.inl ⟨hflag, by simpa using henable⟩))))
        · exact .inr (.inr (.inr (.inr (.inr ⟨hflag, by simpa using henable⟩))))

/-- With no enable set NOTICE# is negated, whatever the flags. -/
theorem State.noticeAsserted_of_enables_none {s : State} (h : s.enables = .none) : s.noticeAsserted = false := by
  simp [State.noticeAsserted, h, Notices.none]

/-- Settles O32: a flag meets its enable in its group exactly when they meet at its place in the words, and reset
leaves no enable set. -/
theorem noticeIsAnEnabledFlag : Obligations.NoticeIsAnEnabledFlag := by
  unfold Obligations.NoticeIsAnEnabledFlag
  intro s
  refine ⟨s.noticeAsserted_iff_word_bit, fun hheld hrst => ?_⟩
  have henables : s.enables = .none := congrArg State.enables (hheld hrst)
  exact State.noticeAsserted_of_enables_none henables

end Sys2Proof.Machine
end

