-- ==== Sys2Proof/Proofs/Readmit.lean ====
section
/-! PROOF. READMIT (R133, R175). In IDLE the command is taken, and each branch of its rule completes at once; what
differs is the result, and that only the first writes the station's entry. -/

namespace Sys2Proof.Machine

/-- A code that names a command runs that command's rule, once the last command holds its two bytes (R162). -/
theorem State.takeCommand_of_commandOf (s : State) {code : Byte} {name : CommandName} (operand : Byte)
    (hname : commandOf code = some name) :
    s.takeCommand code operand =
      (s.setCommand { s.command with lastCode := code, lastOperand := operand }).runCommand name operand := by
  simp only [State.takeCommand, hname]

theorem State.complete_setAnswer_ackWrite (s : State) (code operand : Byte) (result : CommandResult) :
    ((s.setCommand { s.command with lastCode := code, lastOperand := operand }).complete result).setAnswer ackWrite =
      s.doneAtOnce code operand result := rfl

theorem State.readmitStation_of_unreachable {s : State} {st : Station} (h : (s.stationEntry st).mode = .unreachable) :
    s.readmitStation st =
      (s.setStation st { s.stationEntry st with mode := .active, silences := 0 }).complete .ok := if_pos h

theorem State.readmitStation_of_not_unreachable {s : State} {st : Station}
    (h : (s.stationEntry st).mode ≠ .unreachable) : s.readmitStation st = s.complete .notUnreachable := if_neg h

/-- READMIT of a station in IDLE comes to its rule on that station, with the last command written before it. -/
theorem exec_readmit_of_commandIdle {s : State} {operand : Byte} {st : Station} (hidle : s.CommandIdle)
    (hst : operand.toNat = st.val) :
    exec (.readmit operand) s =
      .next (((s.setCommand { s.command with lastCode := 5, lastOperand := operand }).readmitStation st).setAnswer
        ackWrite) := by
  have htaken := exec_of_commandIdle (c := .readmit operand) rfl hidle
  rw [htaken, s.takeCommand_of_commandOf (name := .readmit) operand rfl]
  simp only [State.runCommand, stationOperand_eq operand st hst]

/-- Settles O40, by the two branches of the rule: the last command does not touch the station's mode, so the mode
before the command decides. -/
theorem readmitReturnsALostStation : Obligations.ReadmitReturnsALostStation := by
  unfold Obligations.ReadmitReturnsALostStation
  intro s operand st hidle hst
  rw [exec_readmit_of_commandIdle hidle hst]
  constructor
  · intro hlost
    have hreturned := State.readmitStation_of_unreachable
      (s := s.setCommand { s.command with lastCode := 5, lastOperand := operand }) hlost
    rw [hreturned]
    exact congrArg _ (State.complete_setAnswer_ackWrite (s.setStation st
      { s.stationEntry st with mode := .active, silences := 0 }) 5 operand .ok)
  · intro hother
    have hrefused := State.readmitStation_of_not_unreachable
      (s := s.setCommand { s.command with lastCode := 5, lastOperand := operand }) hother
    rw [hrefused, s.complete_setAnswer_ackWrite]

end Sys2Proof.Machine
end

