-- ==== Sys2Proof/Proofs/RecordFields.lean ====
section
/-! PROOF. The laws of one entry (R11 to R14, R131): when the fields of a record fit its kind and state, and that each
content an event gives a record fits where the old content did. -/

-- The whole text compiles in one process: in order, these files need few of its threads.
set_option Elab.async false

namespace Sys2Proof.Machine

/-! ### What fits -/

/-- The fields of a record fit its kind and state (R5 to R14). -/
structure Record.Fits (r : Record) : Prop where
  kind : r.KindFields
  state : r.StateFields
  timer : r.TimerFields
  outcome : r.OutcomeFits

theorem State.fieldsExact_iff (s : State) : s.FieldsExact ↔ ∀ i, (s.record i).Fits := by
  constructor
  · rintro ⟨hkind, hstate, htimer, houtcome⟩ i
    exact ⟨hkind i, hstate i, htimer i, houtcome i⟩
  · intro h
    exact ⟨fun i => (h i).kind, fun i => (h i).state, fun i => (h i).timer, fun i => (h i).outcome⟩

/-- The timings of a station entry are loaded values (R123). -/
def StationEntry.InRange (e : StationEntry) : Prop := e.replyTimeout ≠ 0 ∧ e.backoff ≠ 0 ∧ e.pollInterval ≠ 0

/-- The silence count of a station entry is below a limit outside UNREACHABLE, and 0 in OFF (R131). -/
def StationEntry.Below (e : StationEntry) (limit : BitVec 4) : Prop :=
  (e.mode ≠ .unreachable → e.silences < limit) ∧ (e.mode = .off → e.silences = 0)

/-- The outcome and the result data are such as a record of the kind can end with (R11, R12). -/
def Kind.CanEnd (k : Kind) (o : RecordOutcome) (d : Word) : Prop :=
  (o = .tainted → k ≠ .write) ∧ (o = .exhausted → k ≠ .watch) ∧ (o = .expired → k = .watch) ∧
    (d ≠ 0 → k ≠ .write ∧ (o = .ok ∨ o = .tainted ∨ o = .expired))

theorem Kind.canEnd_noStation (k : Kind) : k.CanEnd .noStation 0 := by simp [CanEnd]

/-- The record carries the withdrawn mark of an attempt (R13, R170). -/
def Record.Marked (r : Record) : Prop := r.state = .attempt ∧ r.withdrawn = true

theorem Record.not_marked_of_state {r : Record} (h : r.state ≠ .attempt) : ¬ r.Marked := fun hm => h hm.1

theorem Record.not_marked_of_withdrawn {r : Record} (h : ¬ r.withdrawn = true) : ¬ r.Marked := fun hm => h hm.2

theorem Record.Fits.marked_iff {r : Record} (h : r.Fits) : r.Marked ↔ r.withdrawn = true := by
  obtain ⟨-, -, hmark, -, -⟩ := h.timer
  exact ⟨And.right, fun hw => ⟨hmark hw, hw⟩⟩

/-! ### The contents that the events give -/

theorem Record.free_fits : Record.free.Fits where
  kind := by simp [Record.KindFields, free]
  state := by simp [Record.StateFields, free]
  timer := by simp [Record.TimerFields, free]
  outcome := by simp [Record.OutcomeFits, free]

/-- A live record that is not READY has no outcome and no result data (R12, R13). -/
theorem Record.Fits.unfinished {r : Record} (h : r.Fits) (hready : r.state ≠ .ready) :
    r.outcome = none ∧ r.resultData = 0 := by
  obtain ⟨-, -, -, houtcome, -⟩ := h.timer
  obtain ⟨-, -, -, hdata⟩ := h.outcome
  have hnone : r.outcome = none := by
    rw [← Option.not_isSome_iff_eq_none, houtcome]
    exact hready
  refine ⟨hnone, by_contra fun hd => ?_⟩
  simpa [hnone] using (hdata hd).2

/-- A record enters READY with the collection limit loaded (R50). -/
theorem Record.Fits.finished {r : Record} (h : r.Fits) (hlive : r.live) {limit : BitVec 16} (hlimit : limit ≠ 0)
    {o : RecordOutcome} {d : Word} (hend : r.kind.CanEnd o d) : (r.finished limit o d).Fits where
  kind := h.kind
  state := by
    obtain ⟨-, hlanes, -, -⟩ := h.state
    simpa [Record.StateFields, Record.finished] using hlanes hlive
  timer := by simpa [Record.TimerFields, Record.finished] using hlimit
  outcome := by simpa [Record.OutcomeFits, Record.finished, Kind.CanEnd] using hend

/-- A record returns to wait with its station's delay loaded (R95, R115). -/
theorem Record.Fits.returned {r : Record} (h : r.Fits) (hattempt : r.state = .attempt) {e : StationEntry}
    (he : e.InRange) : (r.returned e).Fits := by
  obtain ⟨-, hlanes, -, -⟩ := h.state
  have hlanes : r.lanes ≠ 0 := hlanes (by simp [hattempt])
  obtain ⟨hnone, hdata⟩ := h.unfinished (by simp [hattempt])
  obtain ⟨-, hbackoff, -⟩ := he
  have hwide : e.backoff.setWidth 16 ≠ 0 := by
    intro hzero
    exact hbackoff (by bv_omega)
  have hkind := h.kind
  unfold Record.returned
  split
  case h_1 hk =>
    exact ⟨hkind, by simpa [Record.StateFields, hk] using hlanes, by simp [Record.TimerFields, hnone],
      by simp [Record.OutcomeFits, hnone, hdata]⟩
  case h_2 hk | h_3 hk =>
    exact ⟨hkind, by simpa [Record.StateFields, hk] using hlanes, by simpa [Record.TimerFields, hnone] using hwide,
      by simp [Record.OutcomeFits, hnone, hdata]⟩

/-- A record is handed to the Far Port (R62). -/
theorem Record.Fits.handed {r : Record} (h : r.Fits) (hlive : r.live) (hready : r.state ≠ .ready) :
    Record.Fits { r with state := .attempt, timer := 0, withdrawn := false, expiring := false } := by
  obtain ⟨-, hlanes, -, -⟩ := h.state
  obtain ⟨hnone, hdata⟩ := h.unfinished hready
  exact ⟨h.kind, by simpa [Record.StateFields] using hlanes hlive, by simp [Record.TimerFields, hnone],
    by simp [Record.OutcomeFits, hnone, hdata]⟩

/-- A record in ATTEMPT is marked (R170). -/
theorem Record.Fits.withdrawn {r : Record} (h : r.Fits) (hattempt : r.state = .attempt) :
    Record.Fits { r with withdrawn := true } := by
  obtain ⟨htimer, -, -, houtcome, hexpiring⟩ := h.timer
  exact ⟨h.kind, by simpa [Record.StateFields, hattempt] using h.state,
    ⟨htimer, by simp [hattempt], fun _ => hattempt, houtcome, hexpiring⟩, h.outcome⟩

/-- A backoff ends (R142). -/
theorem Record.Fits.backoffOver {r : Record} (h : r.Fits) (hbackoff : r.state = .backoff) : r.backoffOver.Fits := by
  obtain ⟨-, hlanes, hkind, -⟩ := h.state
  obtain ⟨-, -, hmark, -, -⟩ := h.timer
  obtain ⟨hnone, hdata⟩ := h.unfinished (by simp [hbackoff])
  have hunmarked : r.withdrawn = false := by simpa [hbackoff] using hmark
  exact ⟨h.kind,
    by simpa [Record.StateFields, Record.backoffOver] using ⟨hlanes (by simp [hbackoff]), hkind (.inr hbackoff)⟩,
    by simp [Record.TimerFields, Record.backoffOver, hnone, hunmarked],
    by simp [Record.OutcomeFits, Record.backoffOver, hnone, hdata]⟩

/-- A watch becomes due (R143). -/
theorem Record.Fits.nowDue {r : Record} (h : r.Fits) (hwatch : r.state = .watch) : r.nowDue.Fits := by
  obtain ⟨-, -, hmark, houtcome, -⟩ := h.timer
  exact ⟨h.kind, by simpa [Record.StateFields, Record.nowDue, hwatch] using h.state,
    ⟨fun _ => rfl, by simp [Record.nowDue, hwatch], hmark, houtcome, by simp [Record.nowDue]⟩, h.outcome⟩

/-- A tick at a record: the mark is set at a timer of 1, and no timer counts to 0 (R141). -/
theorem Record.Fits.countdown {r : Record} (h : r.Fits) : r.countdown.Fits := by
  obtain ⟨htimer, hloaded, hmark, houtcome, hexpiring⟩ := h.timer
  unfold Record.countdown
  split
  case isFalse => exact h
  case isTrue hrunning =>
    obtain ⟨-, hstate⟩ : r.timer ≠ 0 ∧ (r.state = .backoff ∨ r.state = .watch ∨ r.state = .ready) := by
      simpa [Record.running, or_assoc] using hrunning
    have hfree : r.state ≠ .free := by rcases hstate with hs | hs | hs <;> simp [hs]
    split
    case isTrue hone =>
      exact ⟨h.kind, by simpa [Record.StateFields, hfree] using h.state,
        ⟨htimer, hloaded, hmark, houtcome, fun _ => ⟨hone, hstate⟩⟩, h.outcome⟩
    case isFalse hone =>
      have hleft : r.timer - 1 ≠ 0 := by
        intro hzero
        exact hone (by bv_omega)
      refine ⟨h.kind, by simpa [Record.StateFields, hfree] using h.state,
        ⟨fun hwaits => ?_, fun _ => hleft, hmark, houtcome, fun he => absurd (hexpiring he).1 hone⟩, h.outcome⟩
      rcases hstate with hs | hs | hs <;> simp [hs] at hwaits

/-- The record that an access enters (R20, R109): a watch is a read, and an entered access has a lane. -/
theorem newRecord_fits {a : ApertureAccess} (hlanes : a.lanes ≠ 0) (setup : WatchSetup) : (newRecord a setup).Fits := by
  unfold newRecord
  dsimp only
  split
  case isTrue hwatch =>
    refine ⟨?_, by simpa [Record.StateFields, accessKind, hwatch] using hlanes,
      by simp [Record.TimerFields, Record.free],
      by simp [Record.OutcomeFits, Record.free]⟩
    simp only [Record.KindFields, accessKind, hwatch, if_true, Record.free]
    simp +contextual
  case isFalse hwatch =>
    refine ⟨?_, ?_, by simp [Record.TimerFields, Record.free], by simp [Record.OutcomeFits, Record.free]⟩
    · cases a.direction <;> simp [Record.KindFields, accessKind, hwatch, Record.free, isReadDirection, keyData]
    · cases a.direction <;> simpa [Record.StateFields, accessKind, hwatch, isReadDirection] using hlanes

theorem newRecord_key {a : ApertureAccess} (hread : a.isWatch = true → isReadDirection a.direction = true)
    (setup : WatchSetup) : (newRecord a setup).key = a.key := by
  obtain ⟨q, isWatch, st, o, lanes, d⟩ := a
  cases isWatch with
  | false => rfl
  | true =>
    cases d with
    | read => rfl
    | write _ _ => simp [isReadDirection] at hread

/-! ### The result of an end (R87) -/

theorem Record.endResult_state (r : Record) (budget : BitVec 8) (e : AttemptEnd) :
    (r.endResult budget e).1.state = r.state := by
  obtain ⟨_, _, _, _, hframe⟩ := r.endResult_frame budget e
  rw [hframe]

theorem Record.endResult_key (r : Record) (budget : BitVec 8) (e : AttemptEnd) :
    (r.endResult budget e).1.key = r.key := by
  obtain ⟨_, _, _, _, hframe⟩ := r.endResult_frame budget e
  rw [hframe]
  rfl

theorem Record.endResult_withdrawn (r : Record) (budget : BitVec 8) (e : AttemptEnd) :
    (r.endResult budget e).1.withdrawn = r.withdrawn := by
  obtain ⟨_, _, _, _, hframe⟩ := r.endResult_frame budget e
  rw [hframe]

theorem Record.comparator_canEnd {r : Record} (hwatch : r.kind = .watch) {value d : Word} {o : RecordOutcome}
    (h : (r.comparator value).2 = .final o d) : r.kind.CanEnd o d := by
  unfold comparator at h
  dsimp only at h
  split at h
  · cases h
    simp [Kind.CanEnd, hwatch]
  · split at h
    · cases h
      simp [Kind.CanEnd, hwatch]
    · cases h

/-- A final result is one that the record's kind can end with (R88 to R93, R111, R116, R118). -/
theorem Record.endResult_canEnd {r : Record} {budget : BitVec 8} {e : AttemptEnd} {o : RecordOutcome} {d : Word}
    (h : (r.endResult budget e).2 = .final o d) : r.kind.CanEnd o d := by
  have hreadWrite (hkind : r.kind ≠ .watch) (h : (r.endReadWrite budget e).2 = .final o d) : r.kind.CanEnd o d := by
    cases e with
    | clean value =>
      cases h
      by_cases hread : r.kind = .read <;> simp [Kind.CanEnd, hkind, hread]
    | tainted value =>
      cases hk : r.kind <;> simp [endReadWrite, hk] at h hkind <;> simp [Kind.CanEnd, ← h]
    | hold =>
      dsimp only [endReadWrite] at h
      split at h
      · cases h
        simp [Kind.CanEnd, hkind]
      · cases h
    | reject =>
      cases h
      simp [Kind.CanEnd]
    | silent => cases h
  unfold endResult at h
  split at h
  case h_1 hwatch =>
    cases e with
    | clean value => exact comparator_canEnd hwatch h
    | tainted _ | reject =>
      cases h
      simp [Kind.CanEnd, hwatch]
    | hold | silent => cases h
  case h_2 hkind | h_3 hkind => exact hreadWrite (by simp [hkind]) h

/-- The counts and the capture of a live record are fields of its kind only. -/
theorem Record.Fits.withCounts {r : Record} (h : r.Fits) (hlive : r.live) {reference : Word} {captured : Bool}
    {pollCount : BitVec 16} {holdCount : BitVec 8}
    (hkind : Record.KindFields { r with reference := reference, captured := captured, pollCount := pollCount,
                                        holdCount := holdCount }) :
    Record.Fits { r with reference := reference, captured := captured, pollCount := pollCount,
                         holdCount := holdCount } := by
  obtain ⟨-, hlanes, hwaits, hwatch⟩ := h.state
  exact ⟨hkind, ⟨fun hfree => absurd hfree hlive, hlanes, hwaits, hwatch⟩, h.timer, h.outcome⟩

/-- The record as an end leaves it: a READ or WRITE record counts a HOLD, a watch captures and counts (R91, R111). -/
theorem Record.Fits.endResult {r : Record} (h : r.Fits) (hlive : r.live) (budget : BitVec 8) (e : AttemptEnd) :
    (r.endResult budget e).1.Fits := by
  obtain ⟨hwrite, hplain, hwatchHold, hcaptured⟩ := h.kind
  have hreadWrite (hkind : r.kind ≠ .watch) : (r.endReadWrite budget e).1.Fits := by
    cases e with
    | hold => exact h.withCounts hlive ⟨hwrite, hplain, fun hwatch => absurd hwatch hkind, hcaptured⟩
    | clean _ | tainted _ | reject | silent => exact h
  unfold Record.endResult
  split
  case h_1 hkind =>
    cases e with
    | clean value =>
      exact h.withCounts hlive ⟨hwrite, fun hnot => absurd hkind hnot, hwatchHold, fun hnot => by cases hnot⟩
    | tainted _ | hold | reject | silent => exact h
  case h_2 hkind | h_3 hkind => exact hreadWrite (by simp [hkind])

end Sys2Proof.Machine
end

