-- ==== Sys2Proof/Proofs/Updates.lean ====
section
/-! PROOF. What an operation can do to the whole state, said once, as a run of updates of a few kinds; entry, reports,
the fault clear and chip reset stand apart, for the laws ask more of them. A law is kept by every step once each kind
keeps it. -/

set_option Elab.async false

namespace Sys2Proof.Machine

/-! ### The kinds of update -/

/-- The content `r` may replace the live record of slot `i`: it is live with the same key, and it fits where the old
content did. -/
structure State.Rewrites (s : State) (i : Slot) (r : Record) : Prop where
  wasLive : (s.record i).live
  live : r.live
  key : r.key = (s.record i).key
  fits : s.ParamsInRange → (s.record i).Fits → r.Fits

/-- One update of the state in which no slot becomes live and no fault record changes. -/
inductive State.Update (s : State) : State → Prop
  /-- A change outside the tables and the parameters. -/
  | quiet {t : State} (h : t = { s with
      answer := t.answer, pointer := t.pointer, far := t.far, divider := t.divider, flags := t.flags,
      enables := t.enables, command := t.command, pending := t.pending }) : Update s t
  /-- A live record takes a new content (R4). -/
  | record (i : Slot) (r : Record) (h : s.Rewrites i r) : Update s (s.setRecord i r)
  /-- A record is removed (R21). -/
  | free (i : Slot) : Update s (s.freeRecord i)
  /-- A tick is handed to the timers (R139). -/
  | tick : Update s s.handTick
  /-- A station's entry changes. -/
  | station (st : Station) (e : StationEntry) (ranges : (s.stationEntry st).InRange → e.InRange)
      (below : s.params.silenceLimit ≠ 0 → (s.stationEntry st).Below s.params.silenceLimit →
        e.Below s.params.silenceLimit) : Update s (s.setStation st e)
  /-- The silence counts are cleared (R84). -/
  | clearSilences : Update s s.clearSilences
  /-- The silence limit is written, and the counts are cleared with it (R131). -/
  | silenceLimit (n : BitVec 4) (h : n ≠ 0) :
      Update s (s.setParams { s.params with silenceLimit := n }).clearSilences
  /-- A parameter other than the silence limit is written. -/
  | params (p : Params) (limit : p.silenceLimit = s.params.silenceLimit)
      (ranges : s.params.holdBudget ≠ 0 ∧ s.params.collectionLimit ≠ 0 → p.holdBudget ≠ 0 ∧ p.collectionLimit ≠ 0) :
      Update s (s.setParams p)
  /-- A requester's entry changes outside its live count and its fault record. -/
  | requester (q : Requester) (e : RequesterEntry) (live : e.live = (s.requesterEntry q).live)
      (fault : e.fault = (s.requesterEntry q).fault)
      (quota : (s.requesterEntry q).quota.toNat ≤ 24 → e.quota.toNat ≤ 24) : Update s (s.setRequester q e)

/-- The state `t` comes from `s` by updates. -/
def State.Run : State → State → Prop := Relation.ReflTransGen State.Update

theorem State.Run.refl (s : State) : s.Run s := Relation.ReflTransGen.refl

theorem State.Run.trans {s t u : State} (h : s.Run t) (h' : t.Run u) : s.Run u := Relation.ReflTransGen.trans h h'

theorem State.Update.run {s t : State} (h : s.Update t) : s.Run t := Relation.ReflTransGen.single h

/-- A property that every update keeps holds after a run. -/
theorem State.Run.keeps {P : State → Prop} (hP : ∀ {s t : State}, s.Update t → P s → P t) {s t : State}
    (h : s.Run t) (hs : P s) : P t := by
  induction h with
  | refl => exact hs
  | tail _ hupdate ih => exact hP hupdate ih

/-- A run goes on through a change outside the tables and the parameters. -/
theorem State.Run.quiet {s t u : State} (h : s.Run t) (hu : u = { t with
    answer := u.answer, pointer := u.pointer, far := u.far, divider := u.divider, flags := u.flags,
    enables := u.enables, command := u.command, pending := u.pending } := by rfl) : s.Run u :=
  h.trans (State.Update.quiet hu).run

/-! ### What the Command Unit sees -/

/-- What the Command Unit waits for (R161) is the same in `s` and `t`: its own state stays but for the last command, the
view and the overlap flag, the link does not enter or leave RESET, and the marked records are the same. -/
structure State.SameUnit (s t : State) : Prop where
  busy : t.command.busy = s.command.busy
  wait : t.command.wait = s.command.wait
  result : t.command.lastResult = s.command.lastResult
  reset : t.far.link = .reset ↔ s.far.link = .reset
  marked : ∀ i, (t.record i).Marked ↔ (s.record i).Marked

/-- The state `t` comes from `s` by updates that the Command Unit does not see. -/
structure State.Calm (s t : State) : Prop where
  run : s.Run t
  unit : s.SameUnit t

theorem State.SameUnit.refl (s : State) : s.SameUnit s := ⟨rfl, rfl, rfl, Iff.rfl, fun _ => Iff.rfl⟩

theorem State.SameUnit.trans {s t u : State} (h : s.SameUnit t) (h' : t.SameUnit u) : s.SameUnit u where
  busy := h'.busy.trans h.busy
  wait := h'.wait.trans h.wait
  result := h'.result.trans h.result
  reset := h'.reset.trans h.reset
  marked i := (h'.marked i).trans (h.marked i)

/-- A change outside the slots is seen only in the command state and the link. -/
theorem State.SameUnit.of_slots {s t : State} (hcommand : t.command = s.command) (hslots : t.slots = s.slots)
    (hreset : t.far.link = .reset ↔ s.far.link = .reset) : s.SameUnit t := by
  refine ⟨by rw [hcommand], by rw [hcommand], by rw [hcommand], hreset, fun i => ?_⟩
  rw [State.record, hslots]
  exact Iff.rfl

theorem State.Calm.refl (s : State) : s.Calm s := ⟨.refl s, .refl s⟩

theorem State.Calm.trans {s t u : State} (h : s.Calm t) (h' : t.Calm u) : s.Calm u :=
  ⟨h.run.trans h'.run, h.unit.trans h'.unit⟩

theorem State.Calm.quiet {s t u : State} (h : s.Calm t) (hu : u = { t with
    answer := u.answer, pointer := u.pointer, far := u.far, divider := u.divider, flags := u.flags,
    enables := u.enables, pending := u.pending } := by rfl)
    (hreset : u.far.link = .reset ↔ t.far.link = .reset := by rfl) : s.Calm u := by
  refine h.trans ⟨(Update.quiet ?_).run, .of_slots ?_ ?_ hreset⟩ <;> rw [hu]

theorem State.Calm.setFlags {s t : State} (h : s.Calm t) (n : Notices) : s.Calm (t.setFlags n) := h.quiet

theorem State.Calm.setAnswer {s t : State} (h : s.Calm t) (a : NearAnswer) : s.Calm (t.setAnswer a) := h.quiet

theorem State.Calm.foldl {f : State → Slot → State} (h : ∀ (s : State) i, s.Calm (f s i)) (l : List Slot)
    (s : State) : s.Calm (l.foldl f s) :=
  foldl_induct f s.Calm (fun t i ht => ht.trans (h t i)) l s (.refl s)

theorem State.Run.foldl {f : State → Slot → State} (h : ∀ (s : State) i, s.Run (f s i)) (l : List Slot)
    (s : State) : s.Run (l.foldl f s) :=
  foldl_induct f s.Run (fun t i ht => ht.trans (h t i)) l s (.refl s)

/-! ### Changes of one entry -/

theorem State.setStation_calm {s : State} {st : Station} {e : StationEntry}
    (ranges : (s.stationEntry st).InRange → e.InRange)
    (below : s.params.silenceLimit ≠ 0 → (s.stationEntry st).Below s.params.silenceLimit →
      e.Below s.params.silenceLimit) : s.Calm (s.setStation st e) :=
  ⟨(Update.station st e ranges below).run, .of_slots rfl rfl Iff.rfl⟩

/-- The silence count 0 is below every limit (R131). -/
theorem StationEntry.below_of_zero {e : StationEntry} {limit : BitVec 4} (hlimit : limit ≠ 0) (h : e.silences = 0) :
    e.Below limit :=
  ⟨fun _ => h ▸ (BitVec.pos_iff_ne_zero _).2 hlimit, fun _ => h⟩

/-- A mode taken with the silence count cleared (R126, R129, R133). -/
theorem State.setMode_calm (s : State) (st : Station) (mode : StationMode) :
    s.Calm (s.setStation st { s.stationEntry st with mode := mode, silences := 0 }) :=
  setStation_calm id fun hlimit _ => StationEntry.below_of_zero hlimit rfl

theorem State.setParams_calm {s : State} {p : Params} (limit : p.silenceLimit = s.params.silenceLimit)
    (ranges : s.params.holdBudget ≠ 0 ∧ s.params.collectionLimit ≠ 0 → p.holdBudget ≠ 0 ∧ p.collectionLimit ≠ 0) :
    s.Calm (s.setParams p) :=
  ⟨(Update.params p limit ranges).run, .of_slots rfl rfl Iff.rfl⟩

theorem State.setRequester_calm {s : State} {q : Requester} {e : RequesterEntry}
    (live : e.live = (s.requesterEntry q).live) (fault : e.fault = (s.requesterEntry q).fault)
    (quota : (s.requesterEntry q).quota.toNat ≤ 24 → e.quota.toNat ≤ 24) : s.Calm (s.setRequester q e) :=
  ⟨(Update.requester q e live fault quota).run, .of_slots rfl rfl Iff.rfl⟩

theorem State.writeSilenceLimit_calm (s : State) (n : BitVec 4) : s.Calm (s.writeSilenceLimit n) := by
  unfold writeSilenceLimit
  split
  · exact .refl s
  case isFalse hn => exact ⟨(Update.silenceLimit n hn).run, .of_slots rfl rfl Iff.rfl⟩

theorem State.writeOverlap_calm (s : State) (lanes : Lanes) (data : Word) : s.Calm (s.writeOverlap lanes data) := by
  unfold writeOverlap
  split
  · exact ⟨(State.Run.refl s).quiet, rfl, rfl, rfl, Iff.rfl, fun _ => Iff.rfl⟩
  · exact .refl s

/-! ### The shared operations -/

theorem State.setRecord_sameUnit {s : State} {i : Slot} {r : Record} (h : r.Marked ↔ (s.record i).Marked) :
    s.SameUnit (s.setRecord i r) := by
  refine ⟨rfl, rfl, rfl, Iff.rfl, fun j => ?_⟩
  rw [setRecord_record]
  split
  case isTrue hji => exact hji ▸ h
  case isFalse => exact Iff.rfl

theorem State.setRecord_calm {s : State} {i : Slot} {r : Record} (h : s.Rewrites i r)
    (hmarked : r.Marked ↔ (s.record i).Marked) : s.Calm (s.setRecord i r) :=
  ⟨(Update.record i r h).run, setRecord_sameUnit hmarked⟩

theorem State.freeRecord_calm {s : State} {i : Slot} (h : ¬ (s.record i).Marked) : s.Calm (s.freeRecord i) := by
  refine ⟨(Update.free i).run, by rw [freeRecord_frame], by rw [freeRecord_frame], by rw [freeRecord_frame],
    by rw [freeRecord_frame], fun j => ?_⟩
  rw [freeRecord_record]
  split
  case isTrue hji => simp [hji.1, h, Record.not_marked_of_state, Record.free]
  case isFalse => exact Iff.rfl

theorem State.toReady_run {s : State} {i : Slot} (hlive : (s.record i).live) {o : RecordOutcome} {d : Word}
    (hend : (s.record i).kind.CanEnd o d) : s.Run (s.toReady i o d) := by
  have hready : s.Rewrites i ((s.record i).finished s.params.collectionLimit o d) :=
    { wasLive := hlive, live := by simp [Record.finished], key := rfl
      fits := fun ⟨_, _, hlimit, _⟩ hfits => hfits.finished hlive hlimit hend }
  exact (Update.record i _ hready).run.quiet

theorem State.toReady_sameUnit {s : State} {i : Slot} (hmarked : ¬ (s.record i).Marked) (o : RecordOutcome)
    (d : Word) : s.SameUnit (s.toReady i o d) := by
  have hready : ¬ ((s.record i).finished s.params.collectionLimit o d).Marked :=
    Record.not_marked_of_state (by simp [Record.finished])
  exact (setRecord_sameUnit (iff_of_false hready hmarked)).trans (.of_slots rfl rfl Iff.rfl)

theorem Record.closedWith_state {r : Record} {st : Station} (h : r.closedWith st = true) :
    r.live ∧ r.state ≠ .attempt := by
  cases hstate : r.state <;> simp_all [closedWith]

theorem closeSlot_calm (st : Station) (s : State) (i : Slot) : s.Calm (closeSlot st s i) := by
  unfold closeSlot
  split
  case isTrue h =>
    obtain ⟨hlive, hattempt⟩ := Record.closedWith_state h
    exact ⟨State.toReady_run hlive (Kind.canEnd_noStation _),
      State.toReady_sameUnit (Record.not_marked_of_state hattempt) _ _⟩
  case isFalse => exact .refl s

theorem State.closeStation_calm (s : State) (st : Station) : s.Calm (s.closeStation st) :=
  .foldl (closeSlot_calm st) _ s

/-! ### The end of an attempt -/

theorem State.countSilence_calm (s : State) (st : Station) : s.Calm (s.countSilence st) := by
  unfold countSilence
  dsimp only
  split
  · exact .refl s
  case isFalse hopen =>
    split
    · have hlost : s.Calm (s.setStation st
          { s.stationEntry st with mode := .unreachable, silences := satInc (s.stationEntry st).silences }) :=
        setStation_calm id fun _ _ => ⟨fun h => absurd rfl h, fun h => by cases h⟩
      exact (hlost.trans (closeStation_calm _ st)).setFlags _
    case isFalse hbelow =>
      have hoff : (s.stationEntry st).mode ≠ .off := fun hoff => hopen (by rw [hoff]; rfl)
      exact setStation_calm id fun _ _ => ⟨fun _ => BitVec.not_le.1 hbelow, fun h => absurd h hoff⟩

theorem State.stationPart_calm (s : State) (st : Station) (e : AttemptEnd) : s.Calm (s.stationPart st e) := by
  have haccept : s.Calm (s.acceptReply st) := by
    unfold acceptReply
    split
    · exact .refl s
    · exact s.setMode_calm st _
  cases e with
  | silent => exact s.countSilence_calm st
  | clean _ | tainted _ | hold | reject => exact haccept

theorem Record.returned_state (r : Record) (e : StationEntry) :
    (r.returned e).state = if r.kind = .watch then .watch else .backoff := by
  unfold returned
  split <;> rename_i hkind <;> simp [hkind]

theorem Record.returned_key (r : Record) (e : StationEntry) : (r.returned e).key = r.key := by
  unfold returned
  split <;> rfl

theorem State.returnRecord_run {s : State} {i : Slot} (h : (s.record i).state = .attempt) :
    s.Run (s.returnRecord i) := by
  have hlive : (s.record i).live := by simp [h]
  unfold returnRecord
  dsimp only
  split
  · exact toReady_run hlive (Kind.canEnd_noStation _)
  · refine (Update.record i _ ⟨hlive, ?_, Record.returned_key _ _, fun hparams hfits => ?_⟩).run
    · rw [Record.live, Record.returned_state]
      split <;> decide
    · obtain ⟨-, -, -, hstations, -⟩ := hparams
      exact hfits.returned h (hstations _)

theorem State.returnRecord_sameUnit {s : State} {i : Slot} (hmarked : ¬ (s.record i).Marked) :
    s.SameUnit (s.returnRecord i) := by
  unfold returnRecord
  dsimp only
  split
  · exact toReady_sameUnit hmarked _ _
  · exact setRecord_sameUnit (iff_of_false (Record.not_marked_of_state (Record.returned_not_attempt _ _)) hmarked)

theorem State.applyEnd_calm {s : State} {i : Slot} (h : (s.record i).state = .attempt)
    (hmarked : ¬ (s.record i).Marked) (e : AttemptEnd) : s.Calm (s.applyEnd i e) := by
  unfold applyEnd
  dsimp only
  have hend (o : RecordOutcome) (d : Word) := (s.record i).endResult_canEnd (budget := s.params.holdBudget) (e := e)
    (o := o) (d := d)
  have hstate := (s.record i).endResult_state s.params.holdBudget e
  have hkey := (s.record i).endResult_key s.params.holdBudget e
  have hwithdrawn := (s.record i).endResult_withdrawn s.params.holdBudget e
  have hlive : (s.record i).live := by simp [h]
  have hfits (hfits : (s.record i).Fits) := hfits.endResult hlive s.params.holdBudget e
  generalize (s.record i).endResult s.params.holdBudget e = p at *
  have hcounted : s.Calm (s.setRecord i p.1) :=
    setRecord_calm ⟨hlive, by rwa [Record.live, hstate], hkey, fun _ => hfits⟩
      (by rw [Record.Marked, Record.Marked, hstate, hwithdrawn])
  have hattempt : ((s.setRecord i p.1).record i).state = .attempt := by simp [hstate, h]
  have hunmarked : ¬ ((s.setRecord i p.1).record i).Marked := by rwa [hcounted.unit.marked]
  split
  case h_1 o d hfinal =>
    have hkind : ((s.setRecord i p.1).record i).kind = (s.record i).kind := by
      rw [setRecord_record, if_pos rfl]
      exact congrArg Key.kind hkey
    have hlive' : ((s.setRecord i p.1).record i).live := by rw [Record.live, hattempt]; decide
    exact hcounted.trans ⟨toReady_run hlive' (hkind ▸ hend o d hfinal), toReady_sameUnit hunmarked _ _⟩
  case h_2 => exact hcounted.trans ⟨returnRecord_run hattempt, returnRecord_sameUnit hunmarked⟩

theorem State.freeMarked_run (s : State) (i : Slot) : s.Run (s.freeMarked i) := by
  unfold freeMarked
  dsimp only
  split
  · exact (Update.free i).run.quiet
  · exact (Update.free i).run

theorem State.endRecord_run (s : State) (i : Slot) (e : AttemptEnd) : s.Run (s.endRecord i e) := by
  unfold endRecord
  split
  case isTrue h =>
    split
    · exact s.freeMarked_run i
    case isFalse hunmarked => exact (applyEnd_calm h (Record.not_marked_of_withdrawn hunmarked) e).run
  case isFalse => exact .refl s

theorem State.endTransaction_run (s : State) (e : AttemptEnd) : s.Run (s.endTransaction e) :=
  ((State.Run.refl s).quiet.trans (stationPart_calm _ _ e).run).trans (endRecord_run _ _ e)

/-! ### The Command Unit -/

theorem State.withdrawRecord_run (s : State) (i : Slot) : s.Run (s.withdrawRecord i) := by
  unfold withdrawRecord
  split
  case isTrue h =>
    have hmark : s.Rewrites i { s.record i with withdrawn := true } :=
      ⟨by simp [h], by simp [h], rfl, fun _ hfits => hfits.withdrawn h⟩
    exact (Update.record i _ hmark).run
  case isFalse => exact (Update.free i).run

theorem State.withdrawSlot_run (s : State) (i : Slot) : s.Run (s.withdrawSlot i) := by
  unfold withdrawSlot
  split
  case h_1 => exact (State.Run.refl s).quiet
  case h_2 | h_3 | h_4 | h_5 | h_6 => exact (s.withdrawRecord_run i).quiet

theorem State.withdrawMany_run (s : State) (q : Option Requester) : s.Run (s.withdrawMany q) := by
  have hone (t : State) (i : Slot) : t.Run (withdrawOne q t i) := by
    unfold withdrawOne
    split
    · exact t.withdrawRecord_run i
    · exact .refl t
  have hall := State.Run.foldl hone (List.finRange 24) s
  unfold withdrawMany
  dsimp only
  split <;> exact hall.quiet

theorem State.readmitStation_run (s : State) (st : Station) : s.Run (s.readmitStation st) := by
  unfold readmitStation
  split
  · exact (s.setMode_calm st .active).run.quiet
  · exact (State.Run.refl s).quiet

theorem State.beginFarReset_run (s : State) : s.Run s.beginFarReset := by
  have hrecord (i : Slot) : s.Run (s.abandonRecord i) := by
    unfold abandonRecord
    split
    case isTrue h => exact returnRecord_run h
    case isFalse => exact .refl s
  have habandon : s.Run s.abandon := by
    unfold abandon
    split
    case h_1 | h_2 => exact hrecord _
    case h_3 | h_4 => exact .refl s
  exact (habandon.trans Update.clearSilences.run).quiet

theorem State.runCommand_run (s : State) (name : CommandName) (operand : Byte) :
    s.Run (s.runCommand name operand) := by
  have hcomplete (result : CommandResult) : s.Run (s.complete result) := (State.Run.refl s).quiet
  cases name <;> simp only [runCommand]
  case view => split; exacts [(State.Run.refl s).quiet, hcomplete _]
  case withdraw => split; exacts [s.withdrawSlot_run _, hcomplete _]
  case withdrawRequester => split; exacts [s.withdrawMany_run _, hcomplete _]
  case clear => exact s.withdrawMany_run none
  case readmit => split; exacts [s.readmitStation_run _, hcomplete _]
  case farReset => exact s.beginFarReset_run.quiet

theorem State.writeCommand_run (s : State) (code operand : Byte) : s.Run (s.writeCommand code operand) := by
  have hlast : s.Run (s.setCommand { s.command with lastCode := code, lastOperand := operand }) :=
    (State.Run.refl s).quiet
  unfold writeCommand takeCommand
  dsimp only
  split
  · exact (State.Run.refl s).quiet
  · split
    · exact hlast.trans (runCommand_run _ _ operand)
    · exact hlast.quiet

/-! ### The control window -/

theorem State.writeMode_calm (s : State) (st : Station) (code : BitVec 2) : s.Calm (s.writeMode st code) := by
  have hoff := s.setMode_calm st .off
  have hserve {mode : StationMode} (hold : (s.stationEntry st).mode ≠ .unreachable) (hnew : mode ≠ .off) :
      s.Calm (s.setStation st { s.stationEntry st with mode := mode }) :=
    setStation_calm id fun _ hbelow => ⟨fun _ => hbelow.1 hold, fun h => absurd h hnew⟩
  unfold writeMode
  dsimp only
  split
  case h_1 | h_3 | h_4 | h_5 | h_9 | h_13 => exact .refl s
  case h_2 => exact hoff
  case h_6 | h_7 => exact hoff.trans (closeStation_calm _ st)
  case h_8 hmode _ | h_10 hmode _ | h_11 hmode _ | h_12 hmode _ => exact hserve (by simp [hmode]) (by decide)

theorem State.writeStationMode_calm (s : State) (st : Station) (lanes : Lanes) (data : Word) :
    s.Calm (s.writeStationMode st lanes data) := by
  have hclass : s.Calm (if laneOn lanes 1 then s.writeClass st (data.getLsbD 8) else s) := by
    split
    · exact setStation_calm id fun _ => id
    · exact .refl s
  unfold writeStationMode
  dsimp only
  split
  · exact hclass.trans (writeMode_calm _ st _)
  · exact hclass

theorem State.writeGlobalControl_calm (s : State) (lanes : Lanes) (data : Word) :
    s.Calm (s.writeGlobalControl lanes data) := by
  have hopen :
      s.Calm (if laneOn lanes 0 then s.setParams { s.params with aperturesOpen := data.getLsbD 0 } else s) := by
    split
    · exact setParams_calm rfl id
    · exact .refl s
  have htimeBase (t : State) (n : BitVec 3) : t.Calm (t.writeTimeBase n) := by
    unfold writeTimeBase
    split
    · exact .refl t
    · have hselect : t.Calm (t.setParams { t.params with timeBaseSelect := n }) := setParams_calm rfl id
      exact hselect.quiet
  unfold writeGlobalControl
  dsimp only
  split
  · exact hopen.trans (htimeBase _ _)
  · exact hopen

theorem nonZeroByte_ne_zero {old : Byte} (h : old ≠ 0) (lanes : Lanes) (lane : Nat) (data : Word) :
    nonZeroByte old lanes lane data ≠ 0 := by
  unfold nonZeroByte
  split
  case isTrue hnew =>
    obtain ⟨-, hnew⟩ := Bool.and_eq_true_iff.1 hnew
    simpa using hnew
  case isFalse => exact h

theorem nonZeroHalf_ne_zero {old : BitVec 16} (h : old ≠ 0) (lanes : Lanes) (data : Word) :
    nonZeroHalf old lanes data ≠ 0 := by
  unfold nonZeroHalf
  split
  case isTrue => exact h
  case isFalse hnew => exact hnew

/-- A taken write of a word other than the command and the fault clear is calm. -/
theorem State.writeRegister_calm (s : State) {reg : Register} (hcommand : reg ≠ .command)
    (hfault : ∀ q, reg ≠ .faultOffset q) (lanes : Lanes) (data : Word) : s.Calm (s.writeRegister reg lanes data) := by
  cases reg with
  | command => exact absurd rfl hcommand
  | faultOffset q => exact absurd rfl (hfault q)
  | globalControl => exact s.writeGlobalControl_calm lanes data
  | holdBudget => exact setParams_calm rfl fun ⟨hb, hc⟩ => ⟨nonZeroByte_ne_zero hb _ _ _, hc⟩
  | collectionLimit => exact setParams_calm rfl fun ⟨hb, hc⟩ => ⟨hb, nonZeroHalf_ne_zero hc _ _⟩
  | silenceLimit =>
    simp only [writeRegister]
    split
    · exact s.writeSilenceLimit_calm _
    · exact .refl s
  | stationMode st => exact s.writeStationMode_calm st lanes data
  | stationTiming st =>
    exact setStation_calm
      (fun ⟨hr, hb, hp⟩ => ⟨nonZeroByte_ne_zero hr _ _ _, nonZeroByte_ne_zero hb _ _ _, hp⟩) fun _ => id
  | stationPoll st => exact setStation_calm (fun ⟨hr, hb, hp⟩ => ⟨hr, hb, nonZeroHalf_ne_zero hp _ _⟩) fun _ => id
  | requesterCounts q =>
    simp only [writeRegister, writeQuota]
    split
    case isTrue h => exact setRequester_calm rfl rfl fun _ => h.2
    case isFalse => exact .refl s
  | counterClear q | setupMode q | setupReference q | setupMask q | setupPollLimit q =>
    exact setRequester_calm rfl rfl id
  | commandStatus => exact s.writeOverlap_calm lanes data
  | farLinkClear | flagsA | flagsB | enablesA | enablesB => exact (State.Calm.refl s).quiet
  | tableSummary | farLinkStatus | view _ | stationSilences _ | faultStatus _ | absent => exact .refl s

/-! ### The near port -/

/-- Admission enters a record for the access in slot `i`: the access has a lane, a watch is a read, no live record has
its key, and its requester is below its quota (R31, R32, R34, R46). -/
structure State.Admits (s : State) (a : ApertureAccess) (i : Slot) : Prop where
  lanes : a.lanes ≠ 0
  read : a.isWatch = true → isReadDirection a.direction = true
  noMatch : s.NoMatch a.key
  quota : (s.requesterEntry a.requester).live < (s.requesterEntry a.requester).quota.toNat
  slot : s.freeSlot = some i

/-- What a near access can come to: updates that the Command Unit does not see, a command, an entry, a report after such
updates, or the clear of one of the fault records that it `clears`. -/
inductive State.NearResult (s : State) (clears : Requester → Prop) (t : State) : Prop
  | calm (h : s.Calm t)
  | command (code operand : Byte) (h : t = (s.writeCommand code operand).setAnswer ackWrite)
  | enter (a : ApertureAccess) (i : Slot) (admits : s.Admits a i)
      (h : t = (s.enterRecord i (newRecord a (s.requesterEntry a.requester).setup)).retryAccess a)
  | report (u : State) (calm : s.Calm u) (q : Requester) (reason : FaultReason) (region : FaultRegion) (st : Station)
      (o : WordOffset) (answer : NearAnswer) (h : t = (u.report q reason region st o).setAnswer answer)
  | clear (q : Requester) (hq : clears q)
      (h : t = (s.setRequester q { s.requesterEntry q with fault := .clear }).setAnswer ackWrite)

theorem State.NearResult.mono {s t : State} {clears clears' : Requester → Prop} (h : s.NearResult clears t)
    (hclears : ∀ q, clears q → clears' q) : s.NearResult clears' t := by
  cases h with
  | calm h => exact .calm h
  | command code operand h => exact .command code operand h
  | enter a i admits h => exact .enter a i admits h
  | report u calm q reason region st o answer h => exact .report u calm q reason region st o answer h
  | clear q hq h => exact .clear q (hclears q hq) h

section NearPort

variable {s : State} {clears : Requester → Prop}

theorem State.faultAccess_result (s : State) (a : ApertureAccess) (reason : FaultReason) :
    s.NearResult clears (s.faultAccess a reason) :=
  .report s (.refl s) _ _ _ _ _ _ rfl

theorem State.retryAccess_calm (s : State) (a : ApertureAccess) : s.Calm (s.retryAccess a) := (Calm.refl s).setAnswer _

/-- Only a READY record is collected, which no attempt has marked (R37). -/
theorem State.collect_result {i : Slot} (hready : (s.record i).state = .ready) (a : ApertureAccess) :
    s.NearResult clears (s.collect i a) := by
  have hfreed : s.Calm (s.freeRecord i) := freeRecord_calm (Record.not_marked_of_state (by simp [hready]))
  unfold collect
  dsimp only
  split
  case h_1 => exact .calm (hfreed.setAnswer _)
  case h_2 | h_3 | h_4 | h_5 | h_6 => exact .report _ hfreed _ _ _ _ _ _ rfl
  case h_7 => exact .calm (s.retryAccess_calm a)

theorem State.turnAway_calm (s : State) (a : ApertureAccess) : s.Calm (s.turnAway a) :=
  have hcounted : s.Calm (s.setRequester a.requester { s.requesterEntry a.requester with
      turnedAway := satInc (s.requesterEntry a.requester).turnedAway }) := setRequester_calm rfl rfl id
  hcounted.setAnswer _

theorem State.admitOrRefuse_result {a : ApertureAccess} (hlanes : a.lanes ≠ 0)
    (hread : a.isWatch = true → isReadDirection a.direction = true) (hmatch : s.findMatch a.key = none) :
    s.NearResult clears (s.admitOrRefuse a) := by
  unfold admitOrRefuse
  dsimp only
  iterate 3
    split
    · exact s.faultAccess_result a _
  split
  · exact .calm (s.turnAway_calm a)
  case isFalse hquota =>
    split
    case h_1 => exact .calm (s.turnAway_calm a)
    case h_2 i hslot =>
      exact .enter a i ⟨hlanes, hread, (s.findMatch_eq_none _).1 hmatch, not_le.1 hquota, hslot⟩ rfl

theorem State.apertureAccess_result (s : State) (a : ApertureAccess) :
    s.NearResult clears (s.apertureAccess a) := by
  unfold apertureAccess
  split
  · exact s.faultAccess_result a _
  split
  · exact s.faultAccess_result a _
  split
  · exact s.faultAccess_result a _
  rename_i hlanes hwatch
  unfold matchAccess
  split
  case h_1 i _ =>
    split
    case isTrue hready => exact collect_result hready a
    case isFalse => exact .calm (s.retryAccess_calm a)
  case h_2 hmatch => exact admitOrRefuse_result hlanes (by simpa using hwatch) hmatch

theorem State.claimAperture_result (s : State) (n : NearAccess) (isWatch : Bool) (st : Station) (o : WordOffset) :
    s.NearResult clears (s.claimAperture n isWatch st o) := by
  unfold claimAperture
  split
  · exact s.apertureAccess_result _
  · exact .calm ((Calm.refl s).setAnswer _)

end NearPort

/-- The taken write clears the fault record of the requester (R154). -/
def State.FaultClearedBy (s : State) (o : WindowOffset) (w : WindowWrite) (q : Requester) : Prop :=
  registerOf o = .faultOffset q ∧ s.Takes (.faultOffset q) w ∧ w.lanes.getLsbD 3 = true ∧ w.data.getLsbD 31 = true

/-- A write of the control window is refused or taken (R180); a taken one is a command, a fault clear, or calm. -/
theorem State.windowWrite_result {s : State} (hrst : s.rstAsserted = false) (o : WindowOffset) (w : WindowWrite) :
    s.NearResult (s.FaultClearedBy o w) (s.windowWrite o w) := by
  unfold windowWrite
  split
  · exact .report s (.refl s) _ _ _ _ _ _ rfl
  case isFalse hcheck =>
    split
    · exact .report s (.refl s) _ _ _ _ _ _ rfl
    case isFalse hright =>
      have htakes : s.Takes (registerOf o) w := by
        refine ⟨hrst, by simpa using hcheck, ?_⟩
        simpa [mayWrite, or_iff_not_imp_left] using hright
      cases hreg : registerOf o with
      | command =>
        simp only [writeRegister, writeCommandRegister]
        split
        · exact .command _ _ rfl
        · exact .calm ((Calm.refl s).setAnswer _)
      | faultOffset q =>
        simp only [writeRegister, writeFaultClear]
        split
        case isTrue hone =>
          obtain ⟨hlane, hbit⟩ := Bool.and_eq_true_iff.1 hone
          exact .clear q ⟨hreg, hreg ▸ htakes, hlane, hbit⟩ rfl
        case isFalse => exact .calm ((Calm.refl s).setAnswer _)
      | _ => exact .calm ((s.writeRegister_calm (by simp) (by simp) w.lanes w.data).setAnswer _)

theorem State.takeWindowWrite_result (s : State) (o : WindowOffset) (w : WindowWrite) :
    s.NearResult (s.FaultClearedBy o w) (s.takeWindowWrite o w) := by
  unfold takeWindowWrite
  split
  · exact .calm ((Calm.refl s).setAnswer _)
  case isFalse hrst => exact windowWrite_result (Bool.not_eq_true _ ▸ hrst) o w

theorem State.nearAccess_result (s : State) (n : NearAccess) :
    s.NearResult (fun q => ∃ o w, n.windowWrite s.bsel = some (o, w) ∧ s.FaultClearedBy o w q) (s.nearAccess n) := by
  unfold nearAccess
  split
  · exact .calm ((Calm.refl s).setAnswer _)
  case isFalse hrst =>
    split
    · exact s.claimAperture_result n false _ _
    · exact s.claimAperture_result n true _ _
    case h_3 o haddress =>
      unfold windowAccess
      split
      · exact .calm ((Calm.refl s).setAnswer _)
      case h_2 data check hwrite =>
        have hspelt : n.windowWrite s.bsel = some (o, { requester := n.requester, lanes := n.lanes, data := data,
                                                        check := check }) := by
          simp only [NearAccess.windowWrite, hwrite, haddress]
        exact (windowWrite_result (Bool.not_eq_true _ ▸ hrst) o _).mono fun q hq => ⟨_, _, hspelt, hq⟩
    · exact .calm ((Calm.refl s).setAnswer _)

theorem State.ownerCommand_result (s : State) (code operand : Byte) {clears : Requester → Prop} :
    s.NearResult clears (s.ownerCommand code operand) := by
  unfold ownerCommand
  split
  · exact .calm ((Calm.refl s).setAnswer _)
  · exact .command code operand rfl

/-! ### The far link -/

theorem State.choose_calm (s : State) : s.Calm s.choose := by
  unfold choose
  split
  case h_1 i hchosen =>
    have hwaits : (s.record i).state = .pending ∨ (s.record i).state = .watch :=
      (waits_of_eligible (eligible_of_chosen hchosen)).imp_left And.left
    have hlive : (s.record i).live := by rcases hwaits with h | h <;> simp [h]
    have hready : (s.record i).state ≠ .ready := by rcases hwaits with h | h <;> simp [h]
    have hattempt : (s.record i).state ≠ .attempt := by rcases hwaits with h | h <;> simp [h]
    have hbegins : s.Rewrites i
        { s.record i with state := .attempt, timer := 0, withdrawn := false, expiring := false } :=
      ⟨hlive, by simp, rfl, fun _ hfits => hfits.handed hlive hready⟩
    have hunmarked := Record.not_marked_of_state hattempt
    have hbegun := setRecord_calm hbegins (iff_of_false (Record.not_marked_of_withdrawn (by simp)) hunmarked)
    have hidle := idle_of_chosen hchosen
    exact hbegun.quiet rfl (by simp [handOver, hidle])
  case h_2 => exact .refl s

theorem State.lastBeat_calm (s : State) : s.Calm s.lastBeat := by
  unfold lastBeat
  split
  case isTrue hrequest => exact (Calm.refl s).quiet rfl (by simp [hrequest])
  case isFalse => exact .refl s

theorem State.takeSilent_run (s : State) : s.Run s.takeSilent := by
  unfold takeSilent
  split
  · exact s.endTransaction_run _
  · exact .refl s

theorem State.takeResetEnd_run (s : State) : s.Run s.takeResetEnd := by
  unfold takeResetEnd
  dsimp only
  split
  · split <;> exact (Run.refl s).quiet
  · exact .refl s

theorem State.takeReply_run (s : State) (st : Station) (tag : Tag) (kind : BitVec 2) (data : Word) (check : Bool) :
    s.Run (s.takeReply st tag kind data check) := by
  unfold takeReply
  split
  · exact s.endTransaction_run _
  · split <;> exact (Run.refl s).quiet

/-! ### Time -/

theorem State.takeBackoffEnd_calm (s : State) (i : Slot) : s.Calm (s.takeBackoffEnd i) := by
  unfold takeBackoffEnd
  split
  case isTrue hdue =>
    obtain ⟨-, hbackoff⟩ := (s.expiryDue_iff i _).1 hdue
    exact setRecord_calm
      ⟨by simp [hbackoff], by simp [Record.backoffOver], rfl, fun _ hfits => hfits.backoffOver hbackoff⟩
      (iff_of_false (Record.not_marked_of_state (by simp [Record.backoffOver]))
        (Record.not_marked_of_state (by simp [hbackoff])))
  case isFalse => exact .refl s

theorem State.takeWatchDue_calm (s : State) (i : Slot) : s.Calm (s.takeWatchDue i) := by
  unfold takeWatchDue
  split
  case isTrue hdue =>
    obtain ⟨-, hwatch⟩ := (s.expiryDue_iff i _).1 hdue
    exact setRecord_calm ⟨by simp [hwatch], by simp [Record.nowDue, hwatch], rfl, fun _ hfits => hfits.nowDue hwatch⟩
      Iff.rfl
  case isFalse => exact .refl s

theorem State.takeDiscard_calm (s : State) (i : Slot) : s.Calm (s.takeDiscard i) := by
  unfold takeDiscard
  split
  case isTrue hdue =>
    obtain ⟨-, hready⟩ := (s.expiryDue_iff i _).1 hdue
    have hfreed : s.Calm (s.freeRecord i) := freeRecord_calm (Record.not_marked_of_state (by simp [hready]))
    have hcounted : s.Calm ((s.freeRecord i).setRequester (s.record i).requester
        { (s.freeRecord i).requesterEntry (s.record i).requester with
          unclaimed := satInc ((s.freeRecord i).requesterEntry (s.record i).requester).unclaimed }) :=
      hfreed.trans (setRequester_calm rfl rfl id)
    exact hcounted.setFlags _
  case isFalse => exact .refl s

theorem takeExpiry_calm (s : State) (i : Slot) : s.Calm (takeExpiry s i) :=
  ((s.takeBackoffEnd_calm i).trans (State.takeWatchDue_calm _ i)).trans (State.takeDiscard_calm _ i)

theorem State.handTick_calm (s : State) : s.Calm s.handTick := by
  refine ⟨Update.tick.run, rfl, rfl, rfl, ?_, fun i => ?_⟩
  · change s.far.countdown.link = .reset ↔ _
    unfold FarPort.countdown
    split <;> exact Iff.rfl
  · rw [handTick_record, Record.countdown_frame]
    exact Iff.rfl

theorem State.tick_run (s : State) : s.Run s.tick :=
  ((s.takeSilent_run.trans (takeResetEnd_run _)).trans (State.Calm.foldl takeExpiry_calm _ _).run).trans
    (handTick_calm _).run

theorem State.clkPeriod_run (s : State) : s.Run s.clkPeriod := by
  unfold clkPeriod
  dsimp only
  split
  · exact .refl s
  · split
    · exact (Run.refl s).quiet.trans (tick_run _)
    · exact (Run.refl s).quiet

theorem State.unlessReset_run {s t : State} (h : s.Run t) : s.Run (s.unlessReset t) := by
  unfold unlessReset
  split
  · exact .refl s
  · exact h

/-! ### The entries after chip reset -/

@[simp] theorem State.atReset_record (rst : Bool) (bsel : BitVec 4) (own : Requester) (pending : List Instr)
    (i : Slot) :
    (State.atReset rst bsel own pending).record i = .free := by
  simp [record, atReset]

@[simp] theorem State.atReset_stationEntry (rst : Bool) (bsel : BitVec 4) (own : Requester) (pending : List Instr)
    (st : Station) : (State.atReset rst bsel own pending).stationEntry st = .afterReset := by
  simp [stationEntry, atReset]

@[simp] theorem State.atReset_requesterEntry (rst : Bool) (bsel : BitVec 4) (own : Requester) (pending : List Instr)
    (q : Requester) : (State.atReset rst bsel own pending).requesterEntry q = .afterReset := by
  simp [requesterEntry, atReset]

/-! ### The step -/

/-- What a command can come to: chip reset, a near access, or an event of the part's own. -/
inductive State.ExecResult (s : State) (c : Instr) (t : State) : Prop
  | reset (rst : Bool) (bsel : BitVec 4) (own : Requester) (hc : c = .chipReset ∨ c = .resetRelease bsel own)
      (h : t = .atReset rst bsel own s.pending)
  | near (hc : c.nearBus = true) (h : s.NearResult (s.ClearsFault c) t)
  | event (hc : c.nearBus = false) (h : s.Run t)

theorem State.ExecResult.of_event {s t u : State} {c : Instr} (hc : c.nearBus = false) (h : s.Run u)
    (hnext : (.next (s.unlessReset u) : Host.Outcome State Fault Refusal) = .next t) : s.ExecResult c t :=
  .event hc (Host.Outcome.next.inj hnext ▸ unlessReset_run h)

theorem State.ExecResult.of_near {s t u : State} {c : Instr} (hc : c.nearBus = true)
    (h : s.NearResult (s.ClearsFault c) u) (hnext : (.next u : Host.Outcome State Fault Refusal) = .next t) :
    s.ExecResult c t :=
  .near hc (Host.Outcome.next.inj hnext ▸ h)

theorem State.takeWindowWrite_clearsFault {s : State} {c : Instr} {o : WindowOffset} {w : WindowWrite}
    (h : c.windowWriteAt s.bsel = some (o, w)) : s.NearResult (s.ClearsFault c) (s.takeWindowWrite o w) :=
  (s.takeWindowWrite_result o w).mono fun _ hq => ⟨o, w, h, hq⟩

theorem State.nearAccess_clearsFault {s : State} {c : Instr} {n : NearAccess}
    (h : c.windowWriteAt s.bsel = n.windowWrite s.bsel) : s.NearResult (s.ClearsFault c) (s.nearAccess n) :=
  (s.nearAccess_result n).mono fun _ ⟨o, w, hn, hq⟩ => ⟨o, w, h.trans hn, hq⟩

theorem exec_result {s t : State} {c : Instr} (h : exec c s = .next t) : s.ExecResult c t := by
  cases c with
  | chipReset => exact .reset true s.bsel s.own (.inl rfl) (Host.Outcome.next.inj h).symm
  | resetRelease bsel own =>
    have ht : s.releaseReset bsel own = t := Host.Outcome.next.inj h
    unfold State.releaseReset at ht
    split at ht
    · exact .reset false bsel own (.inr rfl) ht.symm
    · exact .event rfl (ht ▸ .refl s)
  | farAccess _ | watchApertureWrite _ _ _ _ _ => exact .of_near rfl (State.nearAccess_clearsFault rfl) h
  | watchRead _ _ _ => exact .of_near rfl ((s.nearAccess_result _).mono fun _ ⟨_, _, hn, _⟩ => by cases hn) h
  | aperturesOpenWrite _ | timeBaseSelectWrite _ | silenceLimitWrite _ | stationModeWrite _ _ | clearLateCount _
  | clearMisaddressedCount _ | clearTurnedAwayCount _ _ | clearUnclaimedCount _ _ | faultClear _ _
  | watchSetupWrite _ _ _ | noticeClear _ _ | noticeEnableWrite _ _ | overlapClear _ | registerWrite _ _ =>
    exact .of_near rfl (State.takeWindowWrite_clearsFault rfl) h
  | view _ | withdraw _ | withdrawRequester _ | clear _ | readmit _ | farReset _ | badCommand _ _ =>
    exact .of_near rfl (s.ownerCommand_result _ _) h
  | choice => exact .of_event rfl s.choose_calm.run h
  | lastBeatDriven => exact .of_event rfl s.lastBeat_calm.run h
  | farReply st tag kind data check => exact .of_event rfl (s.takeReply_run st tag kind data check) h
  | silent => exact .of_event rfl s.takeSilent_run h
  | tick => exact .of_event rfl s.tick_run h
  | backoffEnd i => exact .of_event rfl (s.takeBackoffEnd_calm i).run h
  | watchDue i => exact .of_event rfl (s.takeWatchDue_calm i).run h
  | discard i => exact .of_event rfl (s.takeDiscard_calm i).run h
  | farResetEnd => exact .of_event rfl s.takeResetEnd_run h

/-! ### Laws -/

/-- Each kind of change keeps the property: an update, an entry, a new fault record, and chip reset. -/
structure KeptByChanges (P : State → Prop) : Prop where
  update {s t : State} : s.Update t → P s → P t
  enter {s : State} {a : ApertureAccess} {i : Slot} : s.Admits a i → P s →
    P (s.enterRecord i (newRecord a (s.requesterEntry a.requester).setup))
  fault {s : State} (q : Requester) {f : FaultRecord} : (f.valid = false → f = .clear) → P s →
    P (s.setRequester q { s.requesterEntry q with fault := f })
  reset (rst : Bool) (bsel : BitVec 4) (own : Requester) (pending : List Instr) : P (.atReset rst bsel own pending)

section Laws

variable {P : State → Prop} (hP : KeptByChanges P)
include hP

theorem KeptByChanges.run {s t : State} (h : s.Run t) (hs : P s) : P t := h.keeps hP.update hs

theorem KeptByChanges.near {s t : State} {clears : Requester → Prop} (h : s.NearResult clears t) (hs : P s) : P t := by
  cases h with
  | calm h => exact hP.run h.run hs
  | command code operand h => exact hP.run (h ▸ (s.writeCommand_run code operand).quiet) hs
  | enter a i admits h => exact hP.run (h ▸ (State.Run.refl _).quiet) (hP.enter admits hs)
  | report u calm q reason region st o answer h =>
    have hvalid : ((u.requesterEntry q).fault.take reason region st o).valid = true := by
      unfold FaultRecord.take
      split
      · assumption
      · rfl
    have hfault := hP.fault q (f := (u.requesterEntry q).fault.take reason region st o) (by simp [hvalid])
      (hP.run calm.run hs)
    exact hP.run (h ▸ (State.Run.refl _).quiet) hfault
  | clear q _ h => exact hP.run (h ▸ (State.Run.refl _).quiet) (hP.fault q (f := .clear) (fun _ => rfl) hs)

theorem KeptByChanges.exec {s t : State} {c : Instr} (h : exec c s = .next t) (hs : P s) : P t := by
  cases exec_result h with
  | reset rst bsel own _ h => exact h ▸ hP.reset rst bsel own _
  | near _ h => exact hP.near h hs
  | event _ h => exact hP.run h hs

/-- A property that every kind of change keeps is kept by every step. -/
theorem KeptByChanges.step {s t : State} (h : step s = .next t) (hs : P s) : P t := by
  cases hpending : s.pending with
  | nil =>
    cases hown : s.ownEvent with
    | none =>
      have hperiod : (.next s.clkPeriod : Host.Outcome State Fault Refusal) = .next t :=
        step_of_no_ownEvent hpending hown ▸ h
      exact hP.run (Host.Outcome.next.inj hperiod ▸ s.clkPeriod_run) hs
    | some c => exact hP.exec (step_of_ownEvent hpending hown ▸ h) hs
  | cons c rest =>
    have hexec : Machine.exec c { s with pending := rest } = .next t := by simpa only [Machine.step, hpending] using h
    have hpop : s.Run { s with pending := rest } := (State.Run.refl s).quiet
    exact hP.exec hexec (hP.run hpop hs)

end Laws

end Sys2Proof.Machine
end

