-- ==== Sys2Proof/Proofs/Counts.lean ====
section
/-! PROOF. The summary counts and the live counts (R19, R148): a count over the slots changes with the content of one
slot by what that slot counts before and after. -/

set_option Elab.async false

namespace Sys2Proof.Machine

/-! ### Counts over the slots -/

/-- Two predicates that differ at most at one listed slot count it in exchange. -/
theorem countP_exchange {p p' : Slot → Bool} {i : Slot} (h : ∀ j, j ≠ i → p' j = p j) {l : List Slot} (hl : l.Nodup)
    (hi : i ∈ l) : l.countP p' + (p i).toNat = l.countP p + (p' i).toNat := by
  induction l with
  | nil => cases hi
  | cons j l ih =>
    obtain ⟨hj, hl⟩ := List.nodup_cons.1 hl
    have hcount (f : Slot → Bool) : (j :: l).countP f = l.countP f + (f j).toNat := by
      rw [List.countP_cons]
      cases f j <;> rfl
    rw [hcount, hcount]
    rcases List.mem_cons.1 hi with rfl | hi
    · have hrest : l.countP p' = l.countP p := List.countP_congr fun k hk => by rw [h k fun hki => hj (hki ▸ hk)]
      omega
    · rw [h j fun hji => hj (hji ▸ hi)]
      have := ih hl hi
      omega

theorem slots_countP_exchange {p p' : Slot → Bool} (i : Slot) (h : ∀ j, j ≠ i → p' j = p j) :
    (List.finRange 24).countP p' + (p i).toNat = (List.finRange 24).countP p + (p' i).toNat :=
  countP_exchange h (List.nodup_finRange 24) (List.mem_finRange i)

/-- A count of the records for which `f` holds, after one of them takes a new content. -/
theorem State.setRecord_countP (s : State) (i : Slot) (r : Record) (f : Record → Bool) :
    ((List.finRange 24).countP fun j => f ((s.setRecord i r).record j)) + (f (s.record i)).toNat =
      ((List.finRange 24).countP fun j => f (s.record j)) + (f r).toNat := by
  have h := slots_countP_exchange (p := fun j => f (s.record j)) (p' := fun j => f ((s.setRecord i r).record j)) i
    fun j hj => by simp [hj]
  simpa using h

/-! ### The summary counts -/

/-- The summary counts as the slots give them (R19). -/
def State.counted (s : State) : Summary :=
  { live := s.liveSlots, pending := s.slotsIn .pending, attempt := s.slotsIn .attempt, backoff := s.slotsIn .backoff,
    watch := s.slotsIn .watch, ready := s.slotsIn .ready }

theorem Summary.add_eq (c : Summary) (x : RecordState) :
    c.add x = { live := c.live + (x != .free).toNat, pending := c.pending + (x == .pending).toNat,
                attempt := c.attempt + (x == .attempt).toNat, backoff := c.backoff + (x == .backoff).toNat,
                watch := c.watch + (x == .watch).toNat, ready := c.ready + (x == .ready).toNat } := by
  cases x <;> rfl

theorem Summary.add_sub_cancel (c : Summary) (x : RecordState) : (c.add x).sub x = c := by
  cases x <;> rfl

theorem State.setRecord_counted (s : State) (i : Slot) (r : Record) :
    (s.setRecord i r).counted = (s.counted.add r.state).sub (s.record i).state := by
  have hexchange : (s.setRecord i r).counted.add (s.record i).state = s.counted.add r.state := by
    have hstate (x : RecordState) := s.setRecord_countP i r fun r => r.state == x
    have hlive := s.setRecord_countP i r fun r => r.state != .free
    rw [Summary.add_eq, Summary.add_eq]
    exact Summary.mk.injEq .. ▸ ⟨hlive, hstate _, hstate _, hstate _, hstate _, hstate _⟩
  rw [← hexchange, Summary.add_sub_cancel]

/-- The counts read of a state only the states of its slots. -/
theorem State.counted_congr {s t : State} (h : ∀ i, (t.record i).state = (s.record i).state) :
    t.counted = s.counted := by
  simp only [counted, liveSlots, slotsIn, h]

theorem State.SummaryExact.setRecord {s : State} (h : s.SummaryExact) (i : Slot) (r : Record) :
    (s.setRecord i r).SummaryExact := by
  change (s.setRecord i r).summary = (s.setRecord i r).counted
  rw [setRecord_counted, setRecord_summary, show s.summary = s.counted from h]

theorem State.SummaryExact.handTick {s : State} (h : s.SummaryExact) : s.handTick.SummaryExact := by
  have hstate (i : Slot) : (s.handTick.record i).state = (s.record i).state := by
    rw [handTick_record, Record.countdown_frame]
  change s.summary = s.handTick.counted
  rw [counted_congr hstate]
  exact h

theorem summaryExact_kept : KeptByChanges State.SummaryExact where
  update {s t} hupdate hs := by
    cases hupdate with
    | quiet h => exact h ▸ hs
    | record i r _ => exact hs.setRecord i r
    | free i =>
      by_cases hlive : (s.record i).live
      · rw [s.freeRecord_of_live i hlive]
        exact hs.setRecord i .free
      · rwa [s.freeRecord_of_free i (not_not.1 hlive)]
    | tick => exact hs.handTick
    | station _ _ _ _ | clearSilences | silenceLimit _ _ | params _ _ _ | requester _ _ _ _ _ => exact hs
  enter _ hs := hs.setRecord _ _
  fault _ _ _ hs := hs
  reset rst bsel own pending := by
    change Summary.zero = _
    simp only [State.liveSlots, State.slotsIn, State.atReset_record]
    decide

/-! ### The live counts -/

theorem State.setRecord_liveSlotsOf (s : State) (i : Slot) (r : Record) (q : Requester) :
    (s.setRecord i r).liveSlotsOf q + ((s.record i).state != .free && (s.record i).requester == q).toNat =
      s.liveSlotsOf q + (r.state != .free && r.requester == q).toNat :=
  s.setRecord_countP i r fun r => r.state != .free && r.requester == q

/-- A requester's live records are counted by the slots that are live, and by their requesters. -/
theorem State.liveSlotsOf_congr {s t : State} (hlive : ∀ i, (t.record i).live ↔ (s.record i).live)
    (hrequester : ∀ i, (t.record i).requester = (s.record i).requester) (q : Requester) :
    t.liveSlotsOf q = s.liveSlotsOf q := by
  refine List.countP_congr fun i _ => ?_
  simp only [Bool.and_eq_true, bne_iff_ne, hrequester i]
  exact and_congr_left' (hlive i)

/-- The law of R148 under a new content of a live slot with the same requester. -/
theorem State.LiveExact.setRecord {s : State} (h : s.LiveExact) {i : Slot} {r : Record} (hr : s.Rewrites i r) :
    (s.setRecord i r).LiveExact := by
  intro q
  have hrequester : r.requester = (s.record i).requester := congrArg Key.requester hr.key
  have hcount := s.setRecord_liveSlotsOf i r q
  simp only [hrequester, bne_iff_ne.2 hr.live, bne_iff_ne.2 hr.wasLive] at hcount
  rw [setRecord_requesterEntry, h q]
  omega

theorem State.LiveExact.freeRecord {s : State} (h : s.LiveExact) (i : Slot) : (s.freeRecord i).LiveExact := by
  by_cases hlive : (s.record i).live
  · intro q
    have hcount := s.setRecord_liveSlotsOf i .free q
    have hleft : (s.freeRecord i).liveSlotsOf q = (s.setRecord i .free).liveSlotsOf q := by
      rw [s.freeRecord_of_live i hlive]
      rfl
    simp only [bne_iff_ne.2 hlive, Bool.true_and, show Record.free.state = .free from rfl, bne_self_eq_false,
      Bool.false_and, Bool.toNat_false, Nat.add_zero] at hcount
    rw [freeRecord_requesterEntry, hleft]
    by_cases hq : q = (s.record i).requester
    · subst hq
      simp only [beq_self_eq_true, Bool.toNat_true] at hcount
      simp only [hlive, ne_eq, not_false_eq_true, and_self, if_true, h]
      omega
    · simp only [beq_false_of_ne (Ne.symm hq), Bool.toNat_false, Nat.add_zero] at hcount
      simp only [hq, and_false, if_false, h, hcount]
  · rwa [s.freeRecord_of_free i (not_not.1 hlive)]

theorem newRecord_live (a : ApertureAccess) (setup : WatchSetup) : (newRecord a setup).live := by
  rcases newRecord_waits a setup with h | h <;> simp [h]

theorem State.Admits.record_free {s : State} {a : ApertureAccess} {i : Slot} (h : s.Admits a i) :
    (s.record i).state = .free :=
  ((s.freeSlot_eq_some i).1 h.slot).1

theorem newRecord_requester (a : ApertureAccess) (setup : WatchSetup) :
    (newRecord a setup).requester = a.requester := by
  unfold newRecord
  dsimp only
  split <;> rfl

theorem State.LiveExact.enterRecord {s : State} (h : s.LiveExact) {i : Slot} (hfree : (s.record i).state = .free)
    {r : Record} (hr : r.live) : (s.enterRecord i r).LiveExact := by
  intro q
  have hcount := s.setRecord_liveSlotsOf i r q
  have hleft : (s.enterRecord i r).liveSlotsOf q = (s.setRecord i r).liveSlotsOf q := rfl
  simp only [hfree, bne_self_eq_false, Bool.false_and, Bool.toNat_false, Nat.add_zero, bne_iff_ne.2 hr,
    Bool.true_and] at hcount
  rw [hleft, hcount, enterRecord_eq, setRequester_requesterEntry]
  by_cases hq : q = r.requester
  · subst hq
    simp [h r.requester]
  · simp [hq, beq_false_of_ne (Ne.symm hq), h q]

/-- The law of R148 where the slots stay and each requester keeps its live count. -/
theorem State.LiveExact.of_live {s t : State} (h : s.LiveExact) (hslots : t.slots = s.slots)
    (hlive : ∀ q, (t.requesterEntry q).live = (s.requesterEntry q).live) : t.LiveExact := by
  have hrecord (i : Slot) : t.record i = s.record i := by rw [State.record, hslots]; rfl
  intro q
  rw [hlive, h q, liveSlotsOf_congr (fun i => by rw [hrecord]) (fun i => by rw [hrecord])]

theorem liveExact_kept : KeptByChanges State.LiveExact where
  update {s t} hupdate hs := by
    cases hupdate with
    | quiet h => exact h ▸ hs
    | record i r hr => exact hs.setRecord hr
    | free i => exact hs.freeRecord i
    | tick =>
      have hframe (i : Slot) : (s.handTick.record i).state = (s.record i).state ∧
          (s.handTick.record i).requester = (s.record i).requester := by
        rw [State.handTick_record, Record.countdown_frame]
        exact ⟨rfl, rfl⟩
      intro q
      rw [State.liveSlotsOf_congr (fun i => by rw [Record.live, (hframe i).1]) fun i => (hframe i).2]
      exact hs q
    | station _ _ _ _ | clearSilences | silenceLimit _ _ | params _ _ _ => exact hs
    | requester q e hlive _ _ =>
      refine hs.of_live rfl fun p => ?_
      rw [State.setRequester_requesterEntry]
      split
      case isTrue hp => rw [hlive, hp]
      case isFalse => rfl
  enter {s a i} hadmits hs := hs.enterRecord hadmits.record_free (newRecord_live a _)
  fault {s} q f _ hs := by
    refine hs.of_live rfl fun p => ?_
    rw [State.setRequester_requesterEntry]
    split
    case isTrue hp => rw [hp]
    case isFalse => rfl
  reset rst bsel own pending := by
    intro q
    simp [RequesterEntry.afterReset, State.liveSlotsOf, Record.free]

/-- Settles O54: every kind of change keeps the summary counts, and every kind keeps the live counts. -/
theorem stepKeepsTheCounts : Obligations.StepKeepsTheCounts := by
  unfold Obligations.StepKeepsTheCounts
  exact ⟨fun s t hs h => summaryExact_kept.step h hs, fun s t hs h => liveExact_kept.step h hs⟩

end Sys2Proof.Machine
end

