-- ==== Sys2Proof/Proofs/OrderAndKeys.lean ====
section
/-! PROOF. The entry order and the keys (R17, R18). A new content keeps the key and the life of its slot; an entry has a
key that no live record has. -/

set_option Elab.async false

namespace Sys2Proof.Machine

/-! ### The entry order -/

theorem State.TableRun.keeps_orderExact {s t : State} (h : s.TableRun t) (hs : s.OrderExact) : t.OrderExact := by
  induction h with
  | refl => exact hs
  | tail _ hmove ih => exact hmove.keeps_orderExact ih

/-- The law of R18 where the order stands and the same slots are live. -/
theorem State.OrderExact.of_live {s t : State} (h : s.OrderExact) (horder : t.order = s.order)
    (hlive : ∀ i, (t.record i).live ↔ (s.record i).live) : t.OrderExact := by
  obtain ⟨hnodup, hmem⟩ := h
  rw [OrderExact, horder]
  exact ⟨hnodup, fun i => (hmem i).trans (hlive i).symm⟩

theorem State.Rewrites.live_iff {s : State} {i : Slot} {r : Record} (h : s.Rewrites i r) (j : Slot) :
    ((s.setRecord i r).record j).live ↔ (s.record j).live := by
  rw [setRecord_record]
  split
  case isTrue hj => exact hj ▸ iff_of_true h.live h.wasLive
  case isFalse => exact Iff.rfl

theorem State.handTick_live (s : State) (i : Slot) : (s.handTick.record i).live ↔ (s.record i).live := by
  rw [handTick_record, Record.countdown_frame]

theorem orderExact_kept : KeptByChanges State.OrderExact where
  update {s t} hupdate hs := by
    cases hupdate with
    | quiet h => exact h ▸ hs
    | record i r hr => exact hs.of_live rfl hr.live_iff
    | free i => exact (s.freeRecord_tableRun i).keeps_orderExact hs
    | tick => exact hs.of_live rfl s.handTick_live
    | station _ _ _ _ | clearSilences | silenceLimit _ _ | params _ _ _ | requester _ _ _ _ _ => exact hs
  enter hadmits hs :=
    (State.enterRecord_tableRun hadmits.record_free (newRecord_waits _ _)).keeps_orderExact hs
  fault _ _ _ hs := hs
  reset rst bsel own pending := by
    refine ⟨List.nodup_nil, fun i => ?_⟩
    rw [State.atReset_record]
    exact iff_of_false List.not_mem_nil fun hlive => hlive rfl

/-! ### The keys -/

/-- The law of R17 where every live record of the new state was live with the same key. -/
theorem State.KeysUnique.of_live {s t : State} (h : s.KeysUnique)
    (hkey : ∀ i, (t.record i).live → (s.record i).live ∧ (t.record i).key = (s.record i).key) : t.KeysUnique := by
  intro i j hi hj hij
  obtain ⟨hi, hkeyi⟩ := hkey i hi
  obtain ⟨hj, hkeyj⟩ := hkey j hj
  exact h i j hi hj (hkeyi ▸ hkeyj ▸ hij)

/-- A record with a key that no live record has is entered (R17). -/
theorem State.KeysUnique.enterRecord {s : State} (h : s.KeysUnique) (i : Slot) {r : Record} (hnew : s.NoMatch r.key) :
    (s.enterRecord i r).KeysUnique := by
  have hrecord (j : Slot) : (s.enterRecord i r).record j = if j = i then r else s.record j := by
    simp [enterRecord_eq]
  intro j k hj hk hjk
  rw [hrecord] at hj hk hjk
  rw [hrecord] at hjk
  by_cases hji : j = i <;> by_cases hki : k = i
  · exact hji.trans hki.symm
  · simp only [hji, hki, if_true, if_false] at hk hjk
    exact absurd hjk.symm (hnew k hk)
  · simp only [hji, hki, if_true, if_false] at hj hjk
    exact absurd hjk (hnew j hj)
  · simp only [hji, hki, if_false] at hj hk hjk
    exact h j k hj hk hjk

theorem keysUnique_kept : KeptByChanges State.KeysUnique where
  update {s t} hupdate hs := by
    cases hupdate with
    | quiet h => exact h ▸ hs
    | record i r hr =>
      refine hs.of_live fun j hj => ⟨(hr.live_iff j).1 hj, ?_⟩
      rw [State.setRecord_record]
      split
      case isTrue hji => exact hji ▸ hr.key
      case isFalse => rfl
    | free i =>
      refine hs.of_live fun j hj => ?_
      rw [State.freeRecord_record] at hj ⊢
      split at hj
      · exact absurd rfl hj
      case isFalse hstays => exact ⟨hj, by rw [if_neg hstays]⟩
    | tick =>
      refine hs.of_live fun j hj => ⟨(s.handTick_live j).1 hj, ?_⟩
      rw [State.handTick_record, Record.countdown_frame]
      rfl
    | station _ _ _ _ | clearSilences | silenceLimit _ _ | params _ _ _ | requester _ _ _ _ _ => exact hs
  enter {s a i} hadmits hs := by
    refine hs.enterRecord i ?_
    rw [newRecord_key hadmits.read]
    exact hadmits.noMatch
  fault _ _ _ hs := hs
  reset rst bsel own pending i j hi _ _ := absurd rfl (State.atReset_record rst bsel own pending i ▸ hi)

/-- Settles O55: every kind of change keeps the entry order exact, and every kind keeps the keys different. -/
theorem stepKeepsOrderAndKeys : Obligations.StepKeepsOrderAndKeys := by
  unfold Obligations.StepKeepsOrderAndKeys
  exact ⟨fun s t hs h => orderExact_kept.step h hs, fun s t hs h => keysUnique_kept.step h hs⟩

end Sys2Proof.Machine
end

