-- ==== Sys2Proof/Proofs/FieldsAndRanges.lean ====
section
/-! PROOF. The ranges of the parameters (R182), the fields of the records (R11 to R14) and the silence counts (R131).
The ranges are kept alone; the other two need them, for a timer is loaded from a parameter or a station's timing. -/

set_option Elab.async false

namespace Sys2Proof.Machine

/-! ### The parameters -/

/-- The law of the ranges where the parameters stay in theirs and each entry keeps its own. -/
theorem State.ParamsInRange.of_entries {s t : State} (h : s.ParamsInRange)
    (hlimit : s.params.silenceLimit ≠ 0 → t.params.silenceLimit ≠ 0)
    (hparams : s.params.holdBudget ≠ 0 ∧ s.params.collectionLimit ≠ 0 →
      t.params.holdBudget ≠ 0 ∧ t.params.collectionLimit ≠ 0)
    (hstations : ∀ st, (s.stationEntry st).InRange → (t.stationEntry st).InRange)
    (hquota : ∀ q, (s.requesterEntry q).quota.toNat ≤ 24 → (t.requesterEntry q).quota.toNat ≤ 24) :
    t.ParamsInRange := by
  obtain ⟨hhold, hsilence, hcollection, hst, hq⟩ := h
  obtain ⟨hhold, hcollection⟩ := hparams ⟨hhold, hcollection⟩
  exact ⟨hhold, hlimit hsilence, hcollection, fun st => hstations st (hst st), fun q => hquota q (hq q)⟩

theorem State.clearSilences_inRange {s : State} {st : Station} (h : (s.stationEntry st).InRange) :
    (s.clearSilences.stationEntry st).InRange := by
  rw [clearSilences_stationEntry]
  split <;> exact h

/-- Freeing changes of a requester's entry the live count only. -/
theorem State.freeRecord_requesterEntry_frame (s : State) (i : Slot) (q : Requester) :
    (s.freeRecord i).requesterEntry q =
      { s.requesterEntry q with live := ((s.freeRecord i).requesterEntry q).live } := by
  rw [freeRecord_requesterEntry]
  split <;> rfl

theorem State.freeRecord_params (s : State) (i : Slot) : (s.freeRecord i).params = s.params := by
  rw [freeRecord_frame]

theorem State.freeRecord_stationEntry (s : State) (i : Slot) (st : Station) :
    (s.freeRecord i).stationEntry st = s.stationEntry st := by
  rw [freeRecord_frame]
  rfl

theorem State.enterRecord_quota (s : State) (i : Slot) (r : Record) (q : Requester) :
    ((s.enterRecord i r).requesterEntry q).quota = (s.requesterEntry q).quota := by
  rw [enterRecord_eq, setRequester_requesterEntry]
  split
  case isTrue h => rw [h]
  case isFalse => rfl

theorem paramsInRange_kept : KeptByChanges State.ParamsInRange where
  update {s t} hupdate hs := by
    cases hupdate with
    | quiet h => exact h ▸ hs
    | record i r _ | tick => exact hs
    | free i =>
      refine hs.of_entries ?_ ?_ (fun st => ?_) fun q => ?_
      · rw [State.freeRecord_params]; exact id
      · rw [State.freeRecord_params]; exact id
      · rw [State.freeRecord_stationEntry]; exact id
      · rw [State.freeRecord_requesterEntry_frame]; exact id
    | station st e hranges _ =>
      refine hs.of_entries id id (fun k hk => ?_) fun _ => id
      rw [State.setStation_stationEntry]
      split
      case isTrue hst => exact hranges (hst ▸ hk)
      case isFalse => exact hk
    | clearSilences => exact hs.of_entries id id (fun _ => State.clearSilences_inRange) fun _ => id
    | silenceLimit n hn =>
      exact hs.of_entries (fun _ => hn) id
        (fun _ => (s.setParams { s.params with silenceLimit := n }).clearSilences_inRange) fun _ => id
    | params p hlimit hranges => exact hs.of_entries (hlimit ▸ id) hranges (fun _ => id) fun _ => id
    | requester q e _ _ hquota =>
      refine hs.of_entries id id (fun _ => id) fun p hp => ?_
      rw [State.setRequester_requesterEntry]
      split
      case isTrue hq => exact hquota (hq ▸ hp)
      case isFalse => exact hp
  enter {s a i} _ hs := by
    refine hs.of_entries id id (fun _ => id) fun q => ?_
    rw [State.enterRecord_quota]
    exact id
  fault {s} q f _ hs := by
    refine hs.of_entries id id (fun _ => id) fun p hp => ?_
    rw [State.setRequester_requesterEntry]
    split
    case isTrue hq => exact hq ▸ hp
    case isFalse => exact hp
  reset rst bsel own pending := by
    refine ⟨(by decide : Params.afterReset.holdBudget ≠ 0), (by decide : Params.afterReset.silenceLimit ≠ 0),
      (by decide : Params.afterReset.collectionLimit ≠ 0), fun st => ?_, fun q => ?_⟩
    · rw [State.atReset_stationEntry]; decide
    · rw [State.atReset_requesterEntry]; decide

/-! ### The fields of the records -/

/-- The fields of the records fit, with the ranges that the loaded timers need. -/
def State.FitsInRange (s : State) : Prop := s.ParamsInRange ∧ ∀ i, (s.record i).Fits

theorem fitsInRange_kept : KeptByChanges State.FitsInRange where
  update {s t} hupdate := by
    rintro ⟨hparams, hs⟩
    refine ⟨paramsInRange_kept.update hupdate hparams, fun j => ?_⟩
    cases hupdate with
    | quiet h => rw [h]; exact hs j
    | record i r hr =>
      rw [State.setRecord_record]
      split
      · exact hr.fits hparams (hs i)
      · exact hs j
    | free i =>
      rw [State.freeRecord_record]
      split
      · exact Record.free_fits
      · exact hs j
    | tick =>
      rw [State.handTick_record]
      exact (hs j).countdown
    | station _ _ _ _ | clearSilences | silenceLimit _ _ | params _ _ _ | requester _ _ _ _ _ => exact hs j
  enter {s a i} hadmits := by
    rintro ⟨hparams, hs⟩
    refine ⟨paramsInRange_kept.enter hadmits hparams, fun j => ?_⟩
    simp only [State.enterRecord_eq, State.setRequester_record, State.setOrder_record, State.setRecord_record]
    split
    · exact newRecord_fits hadmits.lanes _
    · exact hs j
  fault q _ hf hs := ⟨paramsInRange_kept.fault q hf hs.1, hs.2⟩
  reset rst bsel own pending :=
    ⟨paramsInRange_kept.reset rst bsel own pending, fun i => by rw [State.atReset_record]; exact Record.free_fits⟩

/-! ### The silence counts -/

/-- The silence counts are below the limit, with the ranges that keep the limit above 0. -/
def State.BelowInRange (s : State) : Prop :=
  s.ParamsInRange ∧ ∀ st, (s.stationEntry st).Below s.params.silenceLimit

/-- Once the counts are cleared they are below every limit (R84, R131). -/
theorem State.clearSilences_below {s : State} {limit : BitVec 4} (hlimit : limit ≠ 0) (st : Station) :
    (s.clearSilences.stationEntry st).Below limit := by
  rw [clearSilences_stationEntry]
  split
  case isTrue hlost => exact ⟨fun hnot => absurd hlost hnot, fun hoff => by simp [hlost] at hoff⟩
  case isFalse => exact StationEntry.below_of_zero hlimit rfl

theorem belowInRange_kept : KeptByChanges State.BelowInRange where
  update {s t} hupdate := by
    rintro ⟨hparams, hs⟩
    refine ⟨paramsInRange_kept.update hupdate hparams, fun k => ?_⟩
    obtain ⟨-, hlimit, -⟩ := hparams
    cases hupdate with
    | quiet h => rw [h]; exact hs k
    | record _ _ _ | tick | requester _ _ _ _ _ => exact hs k
    | free i =>
      rw [State.freeRecord_stationEntry, State.freeRecord_params]
      exact hs k
    | station st e _ hbelow =>
      rw [State.setStation_stationEntry]
      split
      · exact hbelow hlimit (hs st)
      · exact hs k
    | clearSilences => exact State.clearSilences_below hlimit k
    | silenceLimit n hn => exact State.clearSilences_below hn k
    | params p hp _ =>
      rw [State.setParams_params, hp]
      exact hs k
  enter hadmits hs := ⟨paramsInRange_kept.enter hadmits hs.1, hs.2⟩
  fault q _ hf hs := ⟨paramsInRange_kept.fault q hf hs.1, hs.2⟩
  reset rst bsel own pending := by
    refine ⟨paramsInRange_kept.reset rst bsel own pending, fun st => ?_⟩
    rw [State.atReset_stationEntry]
    exact StationEntry.below_of_zero (by decide : Params.afterReset.silenceLimit ≠ 0) rfl

/-! ### Every step -/

theorem step_keeps_fieldsExact {s t : State} (hparams : s.ParamsInRange) (hfields : s.FieldsExact)
    (h : step s = .next t) : t.FieldsExact :=
  t.fieldsExact_iff.2 (fitsInRange_kept.step h ⟨hparams, s.fieldsExact_iff.1 hfields⟩).2

/-- Settles O59: every kind of change keeps the ranges, and with them the fields and the silence counts. -/
theorem stepKeepsFieldsAndRanges : Obligations.StepKeepsFieldsAndRanges := by
  unfold Obligations.StepKeepsFieldsAndRanges
  intro s t hparams h
  refine ⟨paramsInRange_kept.step h hparams, fun hfields => step_keeps_fieldsExact hparams hfields h, fun hs => ?_⟩
  exact (belowInRange_kept.step h ⟨hparams, hs⟩).2

end Sys2Proof.Machine
end

