-- ==== Sys2Proof/Proofs/CommandUnit.lean ====
section
/-! PROOF. The Command Unit and what it waits for (R161, R170, R176). In IDLE no record is marked, so each command says
which records it marks; in BUSY the end of the awaited attempt or far reset completes the command. -/

set_option Elab.async false

namespace Sys2Proof.Machine

/-! ### The law in terms of marks -/

/-- The law of R161 with the marks of attempts for the withdrawn marks, which the fields make the same. -/
structure State.UnitExact (s : State) : Prop where
  busy : s.command.busy = true ↔ s.command.wait ≠ .nothing
  slot : ∀ i : Slot, s.command.wait = .slot i ↔ (s.record i).Marked
  farReset : s.command.wait = .farReset → s.far.link = .reset
  result : s.command.busy = true → s.command.lastResult = .none

/-- No record is marked. -/
def State.NoMarks (s : State) : Prop := ∀ i, ¬ (s.record i).Marked

theorem State.commandExact_iff {s : State} (h : s.FieldsExact) : s.CommandExact ↔ s.UnitExact := by
  have hmarked (i : Slot) := ((s.fieldsExact_iff.1 h) i).marked_iff
  constructor
  · rintro ⟨hbusy, hslot, hreset, hresult⟩
    exact ⟨hbusy, fun i => (hslot i).trans (hmarked i).symm, hreset, hresult⟩
  · rintro ⟨hbusy, hslot, hreset, hresult⟩
    exact ⟨hbusy, fun i => (hslot i).trans (hmarked i), hreset, hresult⟩

theorem State.SameUnit.unitExact {s t : State} (h : s.SameUnit t) (hs : s.UnitExact) : t.UnitExact where
  busy := by rw [h.busy, h.wait]; exact hs.busy
  slot i := by rw [h.wait, h.marked]; exact hs.slot i
  farReset := by rw [h.wait, h.reset]; exact hs.farReset
  result := by rw [h.busy, h.result]; exact hs.result

/-- The law reads of the state the command state, the marks and whether the link is in RESET. -/
theorem State.UnitExact.quiet {s t : State} (h : s.UnitExact) (hcommand : t.command = s.command := by rfl)
    (hslots : t.slots = s.slots := by rfl) (hreset : t.far.link = .reset ↔ s.far.link = .reset := by rfl) :
    t.UnitExact :=
  (SameUnit.of_slots hcommand hslots hreset).unitExact h

theorem State.SameUnit.noMarks {s t : State} (h : s.SameUnit t) (hs : s.NoMarks) : t.NoMarks :=
  fun i hi => hs i ((h.marked i).1 hi)

/-- The marks are read from the slots. -/
theorem State.NoMarks.of_slots {s t : State} (h : s.NoMarks) (hslots : t.slots = s.slots := by rfl) : t.NoMarks := by
  intro i
  rw [State.record, hslots]
  exact h i

/-- In IDLE no record is marked (R161, R170). -/
theorem State.UnitExact.noMarks {s : State} (h : s.UnitExact) (hidle : ¬ s.command.busy = true) : s.NoMarks := by
  intro i hi
  have hwait : s.command.wait = .slot i := (h.slot i).2 hi
  exact hidle (h.busy.2 (by simp [hwait]))

/-- A marked record is the one that the command waits for, and the only one (R170). -/
theorem State.UnitExact.marked_unique {s : State} (h : s.UnitExact) {i j : Slot} (hi : (s.record i).Marked)
    (hj : (s.record j).Marked) : i = j := by
  have hwait : s.command.wait = .slot i := (h.slot i).2 hi
  have hwait' : s.command.wait = .slot j := (h.slot j).2 hj
  exact CommandWait.slot.inj (hwait.symm.trans hwait')

/-! ### Completion and waiting -/

theorem State.NoMarks.complete {s : State} (h : s.NoMarks) (result : CommandResult) :
    (s.complete result).UnitExact where
  busy := by simp [State.complete_eq]
  slot i := iff_of_false (by simp [State.complete_eq]) (h i)
  farReset := by simp [State.complete_eq]
  result := by simp [State.complete_eq]

theorem State.startWait_slot_unitExact {s : State} {i : Slot} (h : ∀ j, (s.record j).Marked ↔ j = i) :
    (s.startWait (.slot i)).UnitExact where
  busy := by simp [State.startWait_eq]
  slot j := by
    rw [State.startWait_eq, setCommand_record, h j]
    simp [eq_comm]
  farReset := by simp [State.startWait_eq]
  result := by simp [State.startWait_eq]

theorem State.NoMarks.startWait_farReset {s : State} (h : s.NoMarks) (hreset : s.far.link = .reset) :
    (s.startWait .farReset).UnitExact where
  busy := by simp [State.startWait_eq]
  slot i := iff_of_false (by simp [State.startWait_eq]) (h i)
  farReset _ := hreset
  result := by simp [State.startWait_eq]

/-! ### Taking a command in IDLE -/

theorem State.withdrawSlot_unitExact {s : State} (h : s.NoMarks) (i : Slot) : (s.withdrawSlot i).UnitExact := by
  have hfreed (hattempt : (s.record i).state ≠ .attempt) : ((s.withdrawRecord i).complete .ok).UnitExact := by
    rw [withdrawRecord, if_neg hattempt]
    exact ((freeRecord_calm (h i)).unit.noMarks h).complete .ok
  unfold withdrawSlot
  split
  case h_1 => exact h.complete .noRecord
  case h_2 hattempt =>
    rw [withdrawRecord, if_pos hattempt]
    refine startWait_slot_unitExact fun j => ?_
    by_cases hj : j = i
    · simp [hj, Record.Marked, hattempt]
    · simpa [hj] using h j
  case h_3 hs | h_4 hs | h_5 hs | h_6 hs => exact hfreed (by simp [hs])

/-- What a withdraw of many leaves marked: the records in ATTEMPT that it reaches (R170, R173, R174). -/
theorem withdrawAll_marked {s : State} (h : s.NoMarks) (q : Option Requester) (j : Slot) :
    (((List.finRange 24).foldl (withdrawOne q) s).record j).Marked ↔
      (s.record j).state = .attempt ∧ (s.record j).ofRequester q = true := by
  rw [withdrawAll_record]
  by_cases hq : (s.record j).ofRequester q = true
  · by_cases hattempt : (s.record j).state = .attempt
    · simp [hq, hattempt, Record.Marked]
    · by_cases hlive : (s.record j).live
      · simp [hq, hattempt, hlive, Record.Marked, Record.free]
      · simpa [hq, hattempt, hlive] using h j
  · simpa [hq] using h j

theorem State.withdrawMany_unitExact {s : State} (h : s.NoMarks)
    (hone : ∀ i j, (s.record i).state = .attempt → (s.record j).state = .attempt → i = j) (q : Option Requester) :
    (s.withdrawMany q).UnitExact := by
  unfold withdrawMany
  dsimp only
  split
  case h_1 hnone =>
    refine NoMarks.complete (fun j hj => ?_) .ok
    obtain ⟨hattempt, hq⟩ := (withdrawAll_marked h q j).1 hj
    simpa [hattempt, hq] using (find_slots_eq_none _).1 hnone j
  case h_2 i hsome =>
    obtain ⟨hattempt, hq⟩ : (s.record i).state = .attempt ∧ (s.record i).ofRequester q = true := by
      simpa using List.find?_some hsome
    refine startWait_slot_unitExact fun j => ?_
    rw [withdrawAll_marked h q j]
    constructor
    · rintro ⟨hj, -⟩
      exact hone j i hj hattempt
    · rintro rfl
      exact ⟨hattempt, hq⟩

theorem State.readmitStation_unitExact {s : State} (h : s.NoMarks) (st : Station) :
    (s.readmitStation st).UnitExact := by
  unfold readmitStation
  split
  · exact NoMarks.complete h.of_slots .ok
  · exact h.complete .notUnreachable

theorem State.abandon_sameUnit {s : State} (h : s.NoMarks) : s.SameUnit s.abandon := by
  have hrecord (i : Slot) : s.SameUnit (s.abandonRecord i) := by
    unfold abandonRecord
    split
    · exact returnRecord_sameUnit (h i)
    · exact .refl s
  unfold abandon
  split
  case h_1 | h_2 => exact hrecord _
  case h_3 | h_4 => exact .refl s

theorem State.beginFarReset_unitExact {s : State} (h : s.NoMarks) :
    (s.beginFarReset.startWait .farReset).UnitExact := by
  have habandoned : s.abandon.NoMarks := (abandon_sameUnit h).noMarks h
  have hbegun : s.beginFarReset.NoMarks := habandoned.of_slots
  exact hbegun.startWait_farReset rfl

theorem State.runCommand_unitExact {s : State} (h : s.NoMarks)
    (hone : ∀ i j, (s.record i).state = .attempt → (s.record j).state = .attempt → i = j) (name : CommandName)
    (operand : Byte) : (s.runCommand name operand).UnitExact := by
  cases name <;> simp only [runCommand]
  case view => split; exacts [NoMarks.complete h.of_slots .ok, h.complete _]
  case withdraw => split; exacts [withdrawSlot_unitExact h _, h.complete _]
  case withdrawRequester => split; exacts [withdrawMany_unitExact h hone _, h.complete _]
  case clear => exact withdrawMany_unitExact h hone none
  case readmit => split; exacts [readmitStation_unitExact h _, h.complete _]
  case farReset => exact beginFarReset_unitExact h

theorem State.writeCommand_unitExact {s : State} (h : s.UnitExact)
    (hone : ∀ i j, (s.record i).state = .attempt → (s.record j).state = .attempt → i = j) (code operand : Byte) :
    (s.writeCommand code operand).UnitExact := by
  unfold writeCommand takeCommand
  dsimp only
  split
  · exact ⟨h.busy, h.slot, h.farReset, h.result⟩
  case isFalse hidle =>
    have hmarks : (s.setCommand { s.command with lastCode := code, lastOperand := operand }).NoMarks :=
      (h.noMarks hidle).of_slots
    split
    · exact runCommand_unitExact hmarks hone _ operand
    · exact hmarks.complete .badCommand

/-! ### Near accesses -/

theorem State.NearResult.unitExact {s t : State} {clears : Requester → Prop} (hresult : s.NearResult clears t)
    (h : s.UnitExact) (hone : ∀ i j, (s.record i).state = .attempt → (s.record j).state = .attempt → i = j) :
    t.UnitExact := by
  cases hresult with
  | calm hcalm => exact hcalm.unit.unitExact h
  | command code operand ht =>
    have htaken := writeCommand_unitExact h hone code operand
    exact ht ▸ htaken.quiet
  | enter a i admits ht =>
    have hnew : (newRecord a (s.requesterEntry a.requester).setup).state ≠ .attempt := by
      rcases newRecord_waits a (s.requesterEntry a.requester).setup with hw | hw <;> simp [hw]
    have hentered := setRecord_sameUnit (s := s) (iff_of_false (Record.not_marked_of_state hnew)
      (Record.not_marked_of_state (r := s.record i) (by simp [admits.record_free])))
    have hcounted := hentered.unitExact h
    exact ht ▸ hcounted.quiet
  | report u hcalm q reason region st o answer ht =>
    have hbefore := hcalm.unit.unitExact h
    exact ht ▸ hbefore.quiet
  | clear q _ ht => exact ht ▸ h.quiet

/-! ### The end of a transaction and of a far reset -/

/-- The end of a marked attempt completes the command that waits for it (R99, R170). -/
theorem State.freeMarked_unitExact {s : State} (h : s.UnitExact) {i : Slot} (hi : (s.record i).Marked) :
    (s.freeMarked i).UnitExact := by
  have hcommand : (s.freeRecord i).command = s.command := by rw [freeRecord_frame]
  have hwait : (s.freeRecord i).command.wait = .slot i := by rw [hcommand]; exact (h.slot i).2 hi
  have hlive : (s.record i).live := by
    obtain ⟨hattempt, -⟩ := hi
    simp [hattempt]
  have hfreed : (s.freeRecord i).NoMarks := by
    intro j
    rw [freeRecord_record]
    split
    · exact Record.not_marked_of_state (by simp [Record.free])
    case isFalse hother => exact fun hj => hother ⟨h.marked_unique hj hi, hlive⟩
  unfold freeMarked
  dsimp only
  rw [if_pos hwait]
  exact hfreed.complete .ok

theorem State.endTransaction_unitExact {s : State} (h : s.UnitExact) (hawait : s.far.link = .await) (e : AttemptEnd) :
    (s.endTransaction e).UnitExact := by
  have hover : s.Calm (s.setFar (s.far.over .idle)) := (Calm.refl s).quiet rfl (by simp [FarPort.over, hawait])
  have hheard := (hover.trans (stationPart_calm _ s.far.transaction.station e)).unit.unitExact h
  unfold endTransaction
  dsimp only
  generalize (s.setFar (s.far.over .idle)).stationPart s.far.transaction.station e = t at hheard ⊢
  unfold endRecord
  split
  case isTrue hattempt =>
    split
    case isTrue hmarked => exact freeMarked_unitExact hheard ⟨hattempt, hmarked⟩
    case isFalse hmarked =>
      exact (applyEnd_calm hattempt (Record.not_marked_of_withdrawn hmarked) e).unit.unitExact hheard
  case isFalse => exact hheard

theorem State.takeReply_unitExact {s : State} (h : s.UnitExact) (st : Station) (tag : Tag) (kind : BitVec 2)
    (data : Word) (check : Bool) : (s.takeReply st tag kind data check).UnitExact := by
  unfold takeReply
  split
  case isTrue haccepts =>
    simp only [FarPort.accepts, Bool.and_eq_true, beq_iff_eq] at haccepts
    obtain ⟨⟨hawait, -⟩, -⟩ := haccepts
    exact endTransaction_unitExact h hawait _
  case isFalse =>
    split <;> exact h.quiet

theorem State.takeSilent_unitExact {s : State} (h : s.UnitExact) : s.takeSilent.UnitExact := by
  unfold takeSilent
  split
  case isTrue hdue =>
    obtain ⟨hawait, -⟩ := (silentDue_iff s).1 hdue
    exact endTransaction_unitExact h hawait .silent
  case isFalse => exact h

/-- A far reset that ends completes the FAR_RESET that waits for it, so the link leaves RESET unawaited (R85, R176). -/
theorem State.takeResetEnd_unitExact {s : State} (h : s.UnitExact) : s.takeResetEnd.UnitExact := by
  unfold takeResetEnd
  dsimp only
  split
  case isTrue =>
    split
    case isTrue hwait =>
      refine NoMarks.complete (fun i hi => ?_) .ok
      have hslot : s.command.wait = .slot i := (h.slot i).2 hi
      simp [hwait] at hslot
    case isFalse hwait => exact ⟨h.busy, h.slot, fun hreset => absurd hreset hwait, h.result⟩
  case isFalse => exact h

theorem State.tick_unitExact {s : State} (h : s.UnitExact) : s.tick.UnitExact := by
  have hdue : s.takeDue.UnitExact :=
    (Calm.foldl takeExpiry_calm _ _).unit.unitExact (takeResetEnd_unitExact (takeSilent_unitExact h))
  exact (handTick_calm _).unit.unitExact hdue

theorem State.clkPeriod_unitExact {s : State} (h : s.UnitExact) : s.clkPeriod.UnitExact := by
  have hlink : s.far.clk.link = s.far.link := by
    unfold FarPort.clk
    split <;> rfl
  have hclk : (s.setFar s.far.clk).UnitExact := h.quiet rfl rfl (by rw [setFar_far, hlink])
  unfold clkPeriod
  dsimp only
  split
  · exact h
  · split
    · exact tick_unitExact hclk
    · exact hclk.quiet

/-! ### Every step -/

theorem State.atReset_unitExact (rst : Bool) (bsel : BitVec 4) (own : Requester) (pending : List Instr) :
    (State.atReset rst bsel own pending).UnitExact where
  busy := by simp [State.atReset, CommandUnit.afterReset]
  slot i := by
    rw [atReset_record]
    exact iff_of_false (by simp [State.atReset, CommandUnit.afterReset])
      (Record.not_marked_of_state (by simp [Record.free]))
  farReset _ := rfl
  result := by simp [State.atReset, CommandUnit.afterReset]

theorem State.UnitExact.of_event {s t u : State} (h : s.UnitExact) (hu : u.UnitExact)
    (hnext : (.next (s.unlessReset u) : Host.Outcome State Fault Refusal) = .next t) : t.UnitExact := by
  have ht : s.unlessReset u = t := Host.Outcome.next.inj hnext
  unfold State.unlessReset at ht
  split at ht
  · exact ht ▸ h
  · exact ht ▸ hu

theorem exec_unitExact {s t : State} {c : Instr} (h : s.UnitExact)
    (hone : ∀ i j, (s.record i).state = .attempt → (s.record j).state = .attempt → i = j)
    (hexec : exec c s = .next t) : t.UnitExact := by
  have hnear (hc : c.nearBus = true) : t.UnitExact := by
    cases exec_result hexec with
    | reset rst bsel own _ ht => exact ht ▸ State.atReset_unitExact rst bsel own _
    | near _ hresult => exact hresult.unitExact h hone
    | event hnot => simp [hc] at hnot
  cases c with
  | chipReset => exact Host.Outcome.next.inj hexec ▸ State.atReset_unitExact _ _ _ _
  | resetRelease bsel own =>
    have ht : s.releaseReset bsel own = t := Host.Outcome.next.inj hexec
    unfold State.releaseReset at ht
    split at ht
    · exact ht ▸ State.atReset_unitExact _ _ _ _
    · exact ht ▸ h
  | choice => exact h.of_event (s.choose_calm.unit.unitExact h) hexec
  | lastBeatDriven => exact h.of_event (s.lastBeat_calm.unit.unitExact h) hexec
  | farReply st tag kind data check => exact h.of_event (State.takeReply_unitExact h st tag kind data check) hexec
  | silent => exact h.of_event (State.takeSilent_unitExact h) hexec
  | tick => exact h.of_event (State.tick_unitExact h) hexec
  | backoffEnd i => exact h.of_event ((s.takeBackoffEnd_calm i).unit.unitExact h) hexec
  | watchDue i => exact h.of_event ((s.takeWatchDue_calm i).unit.unitExact h) hexec
  | discard i => exact h.of_event ((s.takeDiscard_calm i).unit.unitExact h) hexec
  | farResetEnd => exact h.of_event (State.takeResetEnd_unitExact h) hexec
  | _ => exact hnear rfl

theorem step_unitExact {s t : State} (h : s.UnitExact)
    (hone : ∀ i j, (s.record i).state = .attempt → (s.record j).state = .attempt → i = j)
    (hstep : step s = .next t) : t.UnitExact := by
  cases hpending : s.pending with
  | nil =>
    cases hown : s.ownEvent with
    | none =>
      have hperiod : (.next s.clkPeriod : Host.Outcome State Fault Refusal) = .next t :=
        step_of_no_ownEvent hpending hown ▸ hstep
      exact Host.Outcome.next.inj hperiod ▸ State.clkPeriod_unitExact h
    | some c => exact exec_unitExact h hone (step_of_ownEvent hpending hown ▸ hstep)
  | cons c rest =>
    have hexec : exec c { s with pending := rest } = .next t := by simpa only [step, hpending] using hstep
    exact exec_unitExact (s := { s with pending := rest }) ⟨h.busy, h.slot, h.farReset, h.result⟩ hone hexec

end Sys2Proof.Machine
end

