-- ==== Sys2Proof/Proofs/FaultsAndQuota.lean ====
section
/-! PROOF. Two laws of what no update does: the fault records change by a report or a fault clear only (R151 to R154),
and a slot becomes live by an entry only, which the quota admits (R46). -/

set_option Elab.async false

namespace Sys2Proof.Machine

/-! ### The fault records -/

theorem State.Update.fault {s t : State} (h : s.Update t) (q : Requester) :
    (t.requesterEntry q).fault = (s.requesterEntry q).fault := by
  cases h with
  | quiet h => rw [h]; rfl
  | record _ _ _ | tick | station _ _ _ _ | clearSilences | silenceLimit _ _ | params _ _ _ => rfl
  | free i => rw [State.freeRecord_requesterEntry_frame]
  | requester p e _ hfault _ =>
    rw [State.setRequester_requesterEntry]
    split
    case isTrue hq => rw [hfault, hq]
    case isFalse => rfl

theorem State.Run.fault {s t : State} (h : s.Run t) (q : Requester) :
    (t.requesterEntry q).fault = (s.requesterEntry q).fault := by
  induction h with
  | refl => rfl
  | tail _ hupdate ih => exact (hupdate.fault q).trans ih

theorem State.setRequester_fault (s : State) (p q : Requester) (f : FaultRecord) :
    ((s.setRequester p { s.requesterEntry p with fault := f }).requesterEntry q).fault =
      if q = p then f else (s.requesterEntry q).fault := by
  rw [setRequester_requesterEntry]
  split <;> rfl

theorem faultsExact_kept : KeptByChanges State.FaultsExact where
  update hupdate hs q := by
    rw [hupdate.fault]
    exact hs q
  enter {s a i} _ hs q := by
    have hfault : ((s.enterRecord i (newRecord a (s.requesterEntry a.requester).setup)).requesterEntry q).fault =
        (s.requesterEntry q).fault := by
      rw [State.enterRecord_eq, State.setRequester_requesterEntry]
      split
      case isTrue hq => rw [hq]
      case isFalse => rfl
    rw [hfault]
    exact hs q
  fault {s} q f hf hs p := by
    rw [State.setRequester_fault]
    split
    · exact hf
    · exact hs p
  reset rst bsel own pending q _ := by
    rw [State.atReset_requesterEntry]
    rfl

/-- A valid fault record keeps its detail under a report, which it counts (R153). -/
theorem FaultRecord.take_of_valid {f : FaultRecord} (h : f.valid = true) (reason : FaultReason) (region : FaultRegion)
    (st : Station) (o : WordOffset) :
    f.take reason region st o = { f with further := if f.further = 255 then 255 else f.further + 1 } := by
  rw [take, if_pos h, satInc_byte]

/-- What a near access does to a valid fault record: nothing, one more further report, or the clear (R152 to R154). -/
theorem State.NearResult.fault {s t : State} {clears : Requester → Prop} (h : s.NearResult clears t) {q : Requester}
    (hvalid : (s.requesterEntry q).fault.valid = true) :
    let f := (s.requesterEntry q).fault
    let f' := (t.requesterEntry q).fault
    f' = f ∨ f' = { f with further := if f.further = 255 then 255 else f.further + 1 } ∨ clears q ∧ f' = .clear := by
  dsimp only
  cases h with
  | calm h => exact .inl (h.run.fault q)
  | command code operand h => exact .inl (h ▸ (s.writeCommand_run code operand).fault q)
  | enter a i admits h =>
    refine .inl ?_
    rw [h, State.retryAccess, State.setAnswer_requesterEntry, State.enterRecord_eq, State.setRequester_requesterEntry]
    split
    case isTrue hq => rw [hq]
    case isFalse => rfl
  | report u hcalm p reason region st o answer h =>
    have hbefore := hcalm.run.fault q
    have hafter : (t.requesterEntry q).fault =
        if q = p then (u.requesterEntry p).fault.take reason region st o else (u.requesterEntry q).fault := by
      rw [h, State.setAnswer_requesterEntry, State.report_eq, State.setFlags_requesterEntry, State.setRequester_fault]
    split at hafter
    case isTrue hq =>
      rw [← hq, hbefore] at hafter
      exact .inr (.inl (hafter.trans (FaultRecord.take_of_valid hvalid _ _ _ _)))
    case isFalse => exact .inl (hafter.trans hbefore)
  | clear p hp h =>
    have hafter : (t.requesterEntry q).fault = if q = p then .clear else (s.requesterEntry q).fault := by
      rw [h, State.setAnswer_requesterEntry, State.setRequester_fault]
    split at hafter
    case isTrue hq => exact .inr (.inr ⟨hq ▸ hp, hafter⟩)
    case isFalse => exact .inl hafter

/-- A row of the command register changes no fault record: it is not claimed, or it is a command. -/
theorem State.ownerCommand_fault (s : State) (code operand : Byte) (q : Requester) :
    ((s.ownerCommand code operand).requesterEntry q).fault = (s.requesterEntry q).fault := by
  unfold ownerCommand
  split
  · rfl
  · exact (s.writeCommand_run code operand).fault q

/-- Settles O20: a command that is no near access is a run of updates, and of a near access only the report and the
fault clear reach a fault record. -/
theorem validFaultKeepsItsDetail : Obligations.ValidFaultKeepsItsDetail := by
  unfold Obligations.ValidFaultKeepsItsDetail
  intro c s t q hreset hrelease hexec
  have hresult := exec_result hexec
  constructor
  · intro hvalid
    cases hresult with
    | reset _ bsel own hc _ => exact (hc.elim hreset (hrelease bsel own)).elim
    | near _ hnear => exact hnear.fault hvalid
    | event _ hrun => exact .inl (hrun.fault q)
  · rintro (hother | hcommand)
    · cases hresult with
      | reset _ bsel own hc _ => exact (hc.elim hreset (hrelease bsel own)).elim
      | near hc _ => simp [hc] at hother
      | event _ hrun => exact hrun.fault q
    · obtain ⟨⟨code, operand⟩, hbytes⟩ := Option.isSome_iff_exists.1 hcommand
      have ht := Host.Outcome.next.inj ((exec_of_commandBytes c code operand s hbytes).symm.trans hexec)
      exact ht ▸ s.ownerCommand_fault code operand q

/-! ### The quota -/

theorem State.Update.stays_free {s t : State} (h : s.Update t) {i : Slot} (hi : (s.record i).state = .free) :
    (t.record i).state = .free := by
  cases h with
  | quiet h => rw [h]; exact hi
  | record j r hr =>
    have hnot : i ≠ j := fun hij => hr.wasLive (hij ▸ hi)
    rw [State.setRecord_record, if_neg hnot]
    exact hi
  | free j =>
    rw [State.freeRecord_record]
    split
    · rfl
    · exact hi
  | tick => rw [State.handTick_record, Record.countdown_frame]; exact hi
  | station _ _ _ _ | clearSilences | silenceLimit _ _ | params _ _ _ | requester _ _ _ _ _ => exact hi

theorem State.Run.stays_free {s t : State} (h : s.Run t) {i : Slot} (hi : (s.record i).state = .free) :
    (t.record i).state = .free :=
  h.keeps (fun hupdate => hupdate.stays_free) hi

/-- A slot that a near access makes live holds the record that it enters (R20). -/
theorem State.NearResult.entered {s t : State} {clears : Requester → Prop} (h : s.NearResult clears t) {i : Slot}
    (hi : (s.record i).state = .free) (hlive : (t.record i).live) :
    ∃ a, s.Admits a i ∧ (t.record i).requester = a.requester := by
  cases h with
  | calm h => exact absurd (h.run.stays_free hi) hlive
  | command code operand h => exact absurd (h ▸ (s.writeCommand_run code operand).stays_free hi) hlive
  | report u hcalm q reason region st o answer h => exact absurd (h ▸ hcalm.run.stays_free hi) hlive
  | clear q _ h => exact absurd (h ▸ hi) hlive
  | enter a j admits h =>
    have hrecord : t.record i = if i = j then newRecord a (s.requesterEntry a.requester).setup else s.record i := by
      simp [h, State.retryAccess, State.enterRecord_eq]
    split at hrecord
    case isTrue hij => exact ⟨a, hij ▸ admits, hrecord ▸ newRecord_requester a _⟩
    case isFalse => exact absurd (hrecord ▸ hi) hlive

/-- Settles O19: only a near access makes a slot live, and it enters a record only below the quota, which the exact live
count measures (R148). -/
theorem noEntryAtOrAboveQuota : Obligations.NoEntryAtOrAboveQuota := by
  unfold Obligations.NoEntryAtOrAboveQuota
  intro c s t i hcount hexec hfree hlive
  cases exec_result hexec with
  | reset rst bsel own _ h => exact absurd (by rw [h, State.atReset_record]; rfl) hlive
  | event _ hrun => exact absurd (hrun.stays_free hfree) hlive
  | near _ hnear =>
    obtain ⟨a, hadmits, hrequester⟩ := hnear.entered hfree hlive
    rw [hrequester, ← hcount]
    exact hadmits.quota

end Sys2Proof.Machine
end

