-- ==== Sys2Proof/Proofs/EveryLaw.lean ====
section
/-! PROOF. Chip reset (R22, R183) and all the laws together. While RST# is asserted the state is held, and only
RESET_RELEASE ends that; outside reset every law has its own step lemma. -/

set_option Elab.async false

namespace Sys2Proof.Machine

/-! ### While RST# is asserted -/

theorem State.unlessReset_of_asserted {s : State} (h : s.rstAsserted = true) (t : State) : s.unlessReset t = s :=
  if_pos h

theorem State.nearAccess_of_asserted {s : State} (h : s.rstAsserted = true) (n : NearAccess) :
    s.nearAccess n = { s with answer := .notClaimed } := if_pos h

theorem State.takeWindowWrite_of_asserted {s : State} (h : s.rstAsserted = true) (o : WindowOffset) (w : WindowWrite) :
    s.takeWindowWrite o w = { s with answer := .notClaimed } := if_pos h

theorem State.ownerCommand_of_asserted {s : State} (h : s.rstAsserted = true) (code operand : Byte) :
    s.ownerCommand code operand = { s with answer := .notClaimed } := if_pos h

/-- Settles O6: each row of the near bus is not claimed, and each event of the part is held. -/
theorem nothingHappensInReset : Obligations.NothingHappensInReset := by
  unfold Obligations.NothingHappensInReset
  intro c s hrst hreset hrelease
  have hevent (t : State) : Host.Outcome.next (φ := Fault) (ρ := Refusal) (s.unlessReset t) = .next s :=
    congrArg _ (State.unlessReset_of_asserted hrst t)
  cases c with
  | chipReset => exact absurd rfl hreset
  | resetRelease bsel own => exact absurd rfl (hrelease bsel own)
  | farAccess _ | watchRead _ _ _ | watchApertureWrite _ _ _ _ _ =>
    exact congrArg _ (State.nearAccess_of_asserted hrst _)
  | aperturesOpenWrite _ | timeBaseSelectWrite _ | silenceLimitWrite _ | stationModeWrite _ _ | clearLateCount _
  | clearMisaddressedCount _ | clearTurnedAwayCount _ _ | clearUnclaimedCount _ _ | faultClear _ _
  | watchSetupWrite _ _ _ | noticeClear _ _ | noticeEnableWrite _ _ | overlapClear _ | registerWrite _ _ =>
    exact congrArg _ (State.takeWindowWrite_of_asserted hrst _ _)
  | view _ | withdraw _ | withdrawRequester _ | clear _ | readmit _ | farReset _ | badCommand _ _ =>
    exact congrArg _ (State.ownerCommand_of_asserted hrst _ _)
  | choice | lastBeatDriven | farReply _ _ _ _ _ | silent | tick | backoffEnd _ | watchDue _ | discard _
  | farResetEnd =>
    exact hevent _

theorem State.ownEvent_of_asserted {s : State} (h : s.rstAsserted = true) : s.ownEvent = none := by
  simp [ownEvent, h]

theorem State.clkPeriod_of_asserted {s : State} (h : s.rstAsserted = true) : s.clkPeriod = s := by
  simp [clkPeriod, h]

/-! ### Chip reset -/

theorem State.atReset_heldInReset (rst : Bool) (bsel : BitVec 4) (own : Requester) (pending : List Instr) :
    (State.atReset rst bsel own pending).HeldInReset := by
  intro h
  have hrst : rst = true := h
  rw [hrst]
  rfl

theorem State.atReset_holdsResetValues (rst : Bool) (bsel : BitVec 4) (own : Requester) (pending : List Instr) :
    (State.atReset rst bsel own pending).HoldsResetValues := by
  refine ⟨atReset_record rst bsel own pending, rfl, rfl, rfl, rfl, fun st => ?_, fun q => ?_, rfl, rfl, rfl, rfl, rfl,
    rfl⟩
  · rw [atReset_stationEntry]; rfl
  · rw [atReset_requesterEntry]; rfl

/-- Settles O4: CHIP_RESET puts the state of reset in place, with the straps and the queue kept. -/
theorem chipResetClearsEverything : Obligations.ChipResetClearsEverything := by
  unfold Obligations.ChipResetClearsEverything
  intro s
  exact ⟨_, rfl, State.atReset_holdsResetValues true s.bsel s.own s.pending, rfl, rfl, rfl, rfl⟩

/-- Settles O5: with RST# asserted the state of reset is put in place with the new straps, else nothing is. -/
theorem resetReleaseSamplesTheStraps : Obligations.ResetReleaseSamplesTheStraps := by
  unfold Obligations.ResetReleaseSamplesTheStraps
  intro s bsel own
  constructor
  · intro hrst
    have hreleased : s.releaseReset bsel own = .atReset false bsel own s.pending := if_pos hrst
    exact ⟨_, congrArg Host.Outcome.next hreleased, State.atReset_holdsResetValues false bsel own s.pending, rfl, rfl,
      rfl, rfl⟩
  · intro hrst
    have hkept : s.releaseReset bsel own = s := if_neg (by simp [hrst])
    exact congrArg Host.Outcome.next hkept

/-! ### RST# itself -/

theorem State.Update.rstAsserted {s t : State} (h : s.Update t) : t.rstAsserted = s.rstAsserted := by
  cases h with
  | quiet h => rw [h]
  | free i => rw [State.freeRecord_frame]
  | record _ _ _ | tick | station _ _ _ _ | clearSilences | silenceLimit _ _ | params _ _ _
  | requester _ _ _ _ _ => rfl

theorem State.Run.rstAsserted {s t : State} (h : s.Run t) : t.rstAsserted = s.rstAsserted := by
  induction h with
  | refl => rfl
  | tail _ hupdate ih => exact hupdate.rstAsserted.trans ih

theorem State.NearResult.rstAsserted {s t : State} {clears : Requester → Prop} (h : s.NearResult clears t) :
    t.rstAsserted = s.rstAsserted := by
  cases h with
  | calm h => exact h.run.rstAsserted
  | command code operand h => exact h ▸ (s.writeCommand_run code operand).rstAsserted
  | enter _ _ _ h | clear _ _ h => rw [h]; rfl
  | report u hcalm _ _ _ _ _ _ h => exact h ▸ hcalm.run.rstAsserted

theorem exec_heldInReset {s t : State} {c : Instr} (hs : s.HeldInReset) (h : exec c s = .next t) : t.HeldInReset := by
  cases hrst : s.rstAsserted with
  | false =>
    have hother (ht : t.rstAsserted = s.rstAsserted) : t.HeldInReset := fun hheld => by simp [ht, hrst] at hheld
    cases exec_result h with
    | reset rst bsel own _ ht => exact ht ▸ State.atReset_heldInReset rst bsel own _
    | near _ hnear => exact hother hnear.rstAsserted
    | event _ hrun => exact hother hrun.rstAsserted
  | true =>
    by_cases hreset : c = .chipReset ∨ ∃ bsel own, c = .resetRelease bsel own
    · rcases hreset with rfl | ⟨bsel, own, rfl⟩
      · exact Host.Outcome.next.inj h ▸ State.atReset_heldInReset _ _ _ _
      · have hreleased : s.releaseReset bsel own = .atReset false bsel own s.pending := if_pos hrst
        have ht : s.releaseReset bsel own = t := Host.Outcome.next.inj h
        exact ht ▸ hreleased ▸ State.atReset_heldInReset _ _ _ _
    · obtain ⟨hchip, hrelease⟩ := not_or.1 hreset
      have hheld := nothingHappensInReset c s hrst hchip fun bsel own hc => hrelease ⟨bsel, own, hc⟩
      have ht := Host.Outcome.next.inj (h.symm.trans hheld)
      have hanswer : s.answer = .notClaimed := by rw [hs hrst]; rfl
      have hsame : t = s := by
        rw [ht]
        split
        · rw [← hanswer]
        · rfl
      exact hsame ▸ hs

theorem step_heldInReset {s t : State} (hs : s.HeldInReset) (h : step s = .next t) : t.HeldInReset := by
  cases hpending : s.pending with
  | nil =>
    cases hown : s.ownEvent with
    | none =>
      have hperiod : (.next s.clkPeriod : Host.Outcome State Fault Refusal) = .next t :=
        step_of_no_ownEvent hpending hown ▸ h
      have ht : s.clkPeriod = t := Host.Outcome.next.inj hperiod
      intro hrst
      have hasserted : s.rstAsserted = true := by rw [← s.clkPeriod_run.rstAsserted, ht, hrst]
      rw [← ht, State.clkPeriod_of_asserted hasserted]
      exact hs hasserted
    | some c => exact exec_heldInReset hs (step_of_ownEvent hpending hown ▸ h)
  | cons c rest =>
    have hexec : exec c { s with pending := rest } = .next t := by simpa only [step, hpending] using h
    have hpop : State.HeldInReset { s with pending := rest } := fun hrst =>
      congrArg (fun u : State => { u with pending := rest }) (hs hrst)
    exact exec_heldInReset hpop hexec

/-! ### Every law -/

/-- The laws of `State.Safe` that hold right after reset, whatever the straps and the queue. -/
theorem State.atReset_safe (rst : Bool) (bsel : BitVec 4) (own : Requester) (pending : List Instr) :
    (State.atReset rst bsel own pending).Safe where
  summary := summaryExact_kept.reset rst bsel own pending
  order := orderExact_kept.reset rst bsel own pending
  live := liveExact_kept.reset rst bsel own pending
  keys := keysUnique_kept.reset rst bsel own pending
  link := atReset_linkExact rst bsel own pending
  closed := atReset_closedQuiet rst bsel own pending
  silences := (belowInRange_kept.reset rst bsel own pending).2
  fields := (State.fieldsExact_iff _).2 (fitsInRange_kept.reset rst bsel own pending).2
  pairs i _ hunderway := by
    rw [atReset_record] at hunderway
    simp [Record.free] at hunderway
  command := (commandExact_iff ((State.fieldsExact_iff _).2 (fitsInRange_kept.reset rst bsel own pending).2)).2
    (atReset_unitExact rst bsel own pending)
  params := paramsInRange_kept.reset rst bsel own pending
  faults := faultsExact_kept.reset rst bsel own pending
  held := atReset_heldInReset rst bsel own pending

/-- Settles O3: reset is the state after a chip reset with both straps at 0. -/
theorem resetStateIsSafe : Obligations.ResetStateIsSafe := by
  unfold Obligations.ResetStateIsSafe
  exact State.atReset_safe false Config.resetBsel Config.resetOwn []

/-- Settles O60: each law by its own step lemma; the fields need the ranges, the pairs need the order and the fields,
the closed stations need the link, and the Command Unit needs the one attempt of the link. -/
theorem stepKeepsEveryLaw : Obligations.StepKeepsEveryLaw := by
  unfold Obligations.StepKeepsEveryLaw
  intro s t hs h
  have hfields : t.FieldsExact := step_keeps_fieldsExact hs.params hs.fields h
  have hunit : t.UnitExact :=
    step_unitExact ((State.commandExact_iff hs.fields).1 hs.command) (fun _ _ => hs.link.attempt_unique) h
  exact {
    summary := summaryExact_kept.step h hs.summary
    order := orderExact_kept.step h hs.order
    live := liveExact_kept.step h hs.live
    keys := keysUnique_kept.step h hs.keys
    link := step_linkExact hs.link h
    closed := stepKeepsClosedStationsQuiet s t hs.closed hs.link h
    silences := (belowInRange_kept.step h ⟨hs.params, hs.silences⟩).2
    fields := hfields
    pairs := stepKeepsPairsOrdered s t hs.pairs hs.order hs.fields h
    command := (State.commandExact_iff hfields).2 hunit
    params := paramsInRange_kept.step h hs.params
    faults := faultsExact_kept.step h hs.faults
    held := step_heldInReset hs.held h }

end Sys2Proof.Machine
end

