-- ==== Sys2Proof/Proofs/NearAccess.lean ====
section
/-! PROOF. The near port (chapter 2): the claim block, the refusals, collection, admission and the freeing of a record.
Each statement is the branch of the access operation that its premises select. -/

set_option Elab.async false

namespace Sys2Proof.Machine

/-! ### The claim block -/

theorem blockBase_eq (bsel : BitVec 4) : blockBase bsel = 0xC0000000 + bsel.toNat * 0x4000000 := by
  rw [blockBase, Config.claimBase, Config.claimBytes]

/-- An address in the claim block is decoded by its block offset (R23, R27). -/
theorem decodeAddress_of_in_block {bsel : BitVec 4} {a : NearAddr} {base : Nat} (hblock : blockBase bsel = base)
    (hbase : base ≤ a.toNat * 4) (hend : a.toNat * 4 < base + 0x4000000) :
    decodeAddress bsel a = decodeOffset (BitVec.ofNat 26 (a.toNat * 4 - base)) := by
  subst hblock
  rw [decodeAddress, if_neg (by rw [Config.claimBytes]; omega)]

theorem decodeAddress_of_outside {bsel : BitVec 4} {a : NearAddr} {base : Nat} (hblock : blockBase bsel = base)
    (h : a.toNat * 4 < base ∨ base + 0x4000000 ≤ a.toNat * 4) : decodeAddress bsel a = .notClaimed := by
  subst hblock
  rw [decodeAddress, if_pos (by rw [Config.claimBytes]; exact h)]

theorem offsetStation_val (o : BitVec 26) : (offsetStation o).val = o.toNat / 0x100000 % 16 := by
  simp [offsetStation, Nat.shiftRight_eq_div_pow]

theorem offsetInStation_toNat (o : BitVec 26) (h : o.toNat % 4 = 0) :
    (offsetInStation o).toNat * 4 = o.toNat % 0x100000 := by
  simp only [offsetInStation, BitVec.extractLsb'_toNat, Nat.shiftRight_eq_div_pow]
  omega

theorem decodeOffset_of_far {o : BitVec 26} (h : o.toNat < 0x1000000) :
    decodeOffset o = .far (offsetStation o) (offsetInStation o) := if_pos h

theorem decodeOffset_of_watch {o : BitVec 26} (hlow : 0x1000000 ≤ o.toNat) (h : o.toNat < 0x2000000) :
    decodeOffset o = .watch (offsetStation o) (offsetInStation o) := by
  rw [decodeOffset, if_neg (by omega), if_pos h]

theorem decodeOffset_of_control {o : BitVec 26} (hlow : 0x2000000 ≤ o.toNat) (h : o.toNat < 0x2001000) :
    decodeOffset o = .control (o.extractLsb' 2 10) := by
  rw [decodeOffset, if_neg (by omega), if_neg (by omega), if_pos h]

theorem decodeOffset_of_above {o : BitVec 26} (h : 0x2001000 ≤ o.toNat) : decodeOffset o = .notClaimed := by
  rw [decodeOffset, if_neg (by omega), if_neg (by omega), if_neg (by omega)]

/-- A block offset is decoded by its bounds, to its station and the offset within the station (R27, R29). -/
theorem decodeOffset_regions {o : BitVec 26} {offset : Nat} (htoNat : o.toNat = offset) (hword : offset % 4 = 0) :
    (offset < 0x1000000 → ∃ st k, decodeOffset o = .far st k ∧ st.val = offset / 0x100000 % 16 ∧
      k.toNat * 4 = offset % 0x100000) ∧
    (0x1000000 ≤ offset → offset < 0x2000000 → ∃ st k, decodeOffset o = .watch st k ∧
      st.val = offset / 0x100000 % 16 ∧ k.toNat * 4 = offset % 0x100000) ∧
    (0x2000000 ≤ offset → offset < 0x2001000 → ∃ k, decodeOffset o = .control k ∧
      k.toNat * 4 = offset - 0x2000000) ∧
    (0x2001000 ≤ offset → decodeOffset o = .notClaimed) := by
  subst htoNat
  refine ⟨fun h => ?_, fun hlow h => ?_, fun hlow h => ?_, decodeOffset_of_above⟩
  · exact ⟨_, _, decodeOffset_of_far h, offsetStation_val o, offsetInStation_toNat o hword⟩
  · exact ⟨_, _, decodeOffset_of_watch hlow h, offsetStation_val o, offsetInStation_toNat o hword⟩
  · refine ⟨_, decodeOffset_of_control hlow h, ?_⟩
    simp only [BitVec.extractLsb'_toNat, Nat.shiftRight_eq_div_pow]
    omega

/-- Settles O7: an address of the block is decoded by its block offset, whose bounds select the region. -/
theorem claimBlockDecodes : Obligations.ClaimBlockDecodes := by
  unfold Obligations.ClaimBlockDecodes
  intro bsel a base address offset
  have hblock : blockBase bsel = base := blockBase_eq bsel
  have hbase : base % 4 = 0 := by omega
  have hoffset : offset = a.toNat * 4 - base := rfl
  refine ⟨decodeAddress_of_outside hblock, fun hlow hend => ?_⟩
  have hsmall : (BitVec.ofNat 26 offset).toNat = offset := by
    rw [BitVec.toNat_ofNat]
    exact Nat.mod_eq_of_lt (by omega)
  rw [decodeAddress_of_in_block hblock hlow hend]
  exact decodeOffset_regions hsmall (by omega)

/-! ### Accesses without a record -/

/-- Settles O8: an address outside the claimed regions, or one in an aperture while apertures-open is 0. -/
theorem unclaimedAccessHasNoEffect : Obligations.UnclaimedAccessHasNoEffect := by
  unfold Obligations.UnclaimedAccessHasNoEffect
  intro s n isWatch hrst hunclaimed
  have hclosed (watch : Bool) (st : Station) (o : WordOffset) (h : s.params.aperturesOpen = false) :
      s.claimAperture n watch st o = s.setAnswer .notClaimed := if_neg (by simp [h])
  have hanswered : s.nearAccess n = s.setAnswer .notClaimed := by
    unfold State.nearAccess
    rw [if_neg (by simp [hrst])]
    rcases hunclaimed with haddress | ⟨hopen, st, o, haddress | haddress⟩ <;> rw [haddress]
    · exact hclosed false st o hopen
    · exact hclosed true st o hopen
  rw [exec_command, hanswered]
  rfl

/-- Settles O9: the report of R33 at the fault record and at the FAULT flags. -/
theorem reportKeepsTheFirstFault : Obligations.ReportKeepsTheFirstFault := by
  unfold Obligations.ReportKeepsTheFirstFault
  intro s q reason region st o
  rw [State.report_eq, FaultRecord.take, satInc_byte]
  rfl

/-- Settles O10: the first two refusals before matching (R30, R31). -/
theorem failedCheckAndEmptyLanesAreRefused : Obligations.FailedCheckAndEmptyLanesAreRefused := by
  unfold Obligations.FailedCheckAndEmptyLanesAreRefused
  intro s n isWatch st o hclaims
  rw [exec_of_claims hclaims]
  constructor
  · intro data check hwrite hfails
    have hcheck : nearCheckPasses n.direction = false := by simpa [hwrite, nearCheckPasses] using hfails
    have hrefused : s.apertureAccess (apertureAccessOf n isWatch st o) =
        s.faultAccess (apertureAccessOf n isWatch st o) .nearCheck :=
      if_pos (by simp [apertureAccessOf, hcheck])
    rw [hrefused, faultAccess_eq]
  · intro hpasses hlanes
    have hcheck : nearCheckPasses n.direction = true := (nearCheckPasses_iff _).2 hpasses
    have hrefused : s.apertureAccess (apertureAccessOf n isWatch st o) =
        s.faultAccess (apertureAccessOf n isWatch st o) .noLanes :=
      (if_neg (by simp [apertureAccessOf, hcheck])).trans (if_pos hlanes)
    rw [hrefused, faultAccess_eq]

/-- Settles O23: a read that lies in the control window is answered with the word of its register (R179). -/
theorem windowReadChangesNothing : Obligations.WindowReadChangesNothing := by
  unfold Obligations.WindowReadChangesNothing
  intro s n o hrst haddress hread
  refine ⟨correctCheck (s.readRegister (registerOf o)), passesCheck_correctCheck _, ?_⟩
  have hanswered : s.nearAccess n = s.setAnswer (s.readAnswer o) := by
    simp only [State.nearAccess, hrst, haddress, State.windowAccess, hread, Bool.false_eq_true, if_false]
  exact congrArg _ hanswered

/-! ### Repeats -/

/-- An access whose key a live record has meets that record (R16, R34). -/
theorem State.findMatch_of_key {s : State} (hunique : s.KeysUnique) {n : NearAccess} {isWatch : Bool} {st : Station}
    {o : WordOffset} {i : Slot} (hlive : (s.record i).live) (hkey : (s.record i).key = n.key isWatch st o) :
    s.findMatch (apertureAccessOf n isWatch st o).key = some i := by
  rw [apertureAccessOf_key, ← hkey]
  exact s.findMatch_of_unique hunique i hlive

/-- Settles O12: the record is found, and only a READY one is collected (R35). -/
theorem repeatMeetsUnfinishedRecord : Obligations.RepeatMeetsUnfinishedRecord := by
  unfold Obligations.RepeatMeetsUnfinishedRecord
  intro s n isWatch st o i hclaims hpasses hunique hlive hready hkey
  have hretried : s.matchAccess (apertureAccessOf n isWatch st o) =
      s.retryAccess (apertureAccessOf n isWatch st o) := by
    simp only [State.matchAccess, State.findMatch_of_key hunique hlive hkey, hready, if_false]
  rw [exec_of_passes hclaims hpasses, hretried, retryAccess_eq]

/-- A repeat that meets a READY record collects it (R37). -/
theorem exec_of_ready {s : State} {n : NearAccess} {isWatch : Bool} {st : Station} {o : WordOffset} {i : Slot}
    (hclaims : s.Claims n isWatch st o) (hpasses : n.PassesRefusals isWatch) (hunique : s.KeysUnique)
    (hready : (s.record i).state = .ready) (hkey : (s.record i).key = n.key isWatch st o) :
    exec (n.command isWatch) s = .next (s.collect i (apertureAccessOf n isWatch st o)) := by
  have hlive : (s.record i).live := by simp [hready]
  rw [exec_of_passes hclaims hpasses]
  simp only [State.matchAccess, State.findMatch_of_key hunique hlive hkey, hready, if_true]

/-- Settles O14: collection by the record's outcome (R38 to R40); the check is poisoned for a TAINTED word only. -/
theorem readyRecordIsCollected : Obligations.ReadyRecordIsCollected := by
  unfold Obligations.ReadyRecordIsCollected
  intro s n isWatch st o i hclaims hpasses hunique hready hkey
  dsimp only
  rw [exec_of_ready hclaims hpasses hunique hready hkey]
  have hfault (reason : FaultReason) := faultAccess_eq (s.freeRecord i) n isWatch st o reason
  simp only [State.collect]
  refine ⟨fun h => ⟨_, passesCheck_correctCheck _, ?_⟩, fun h => ⟨_, passesCheck_poisonedCheck _, ?_⟩, fun h => ?_,
    fun h => ?_, fun h => ?_, fun h => ⟨_, passesCheck_correctCheck _, ?_⟩⟩ <;> rw [h]
  case refine_1 | refine_2 | refine_6 => rw [wordAnswer_eq]; rfl
  case refine_3 | refine_4 | refine_5 => exact congrArg _ (hfault _)

/-! ### Admission -/

/-- Settles O15: the first three checks of admission (R42 to R45). -/
theorem admissionRefusesInOrder : Obligations.AdmissionRefusesInOrder := by
  unfold Obligations.AdmissionRefusesInOrder
  intro s n isWatch st o hclaims hpasses hnew
  dsimp only
  rw [exec_of_noMatch hclaims hpasses hnew]
  have hrefused {u : State} {reason : FaultReason} (h : u = s.faultAccess (apertureAccessOf n isWatch st o) reason) :
      (Host.Outcome.next u : Host.Outcome State Fault Refusal) =
        .next { s.report n.requester reason (apertureRegion isWatch) st o with answer := n.bareAnswer .fault } := by
    rw [h, faultAccess_eq]
  refine ⟨fun hquota => hrefused (if_pos hquota), fun hquota hclosed => hrefused ?_,
    fun hquota hopen hwatch hside => hrefused ?_⟩
  · rw [← State.closed_iff_not_inService] at hclosed
    exact (if_neg hquota).trans (if_pos hclosed)
  · have hopen : ¬ (s.stationEntry st).mode.closed = true := by
      rw [State.closed_iff_not_inService]
      exact not_not.2 hopen
    exact (if_neg hquota).trans ((if_neg hopen).trans (if_pos (by simp [apertureAccessOf, hwatch, hside])))

/-- Past the first three checks the quota and the free slots decide (R46, R47). -/
theorem State.admitOrRefuse_of_admissible {s : State} {n : NearAccess} {isWatch : Bool} {st : Station} {o : WordOffset}
    (hopen : s.InService st) (hside : ¬ (isWatch = true ∧ (s.stationEntry st).cls = .side))
    (hquota : (s.requesterEntry n.requester).quota ≠ 0) :
    s.admitOrRefuse (apertureAccessOf n isWatch st o) =
      if (s.requesterEntry n.requester).quota.toNat ≤ (s.requesterEntry n.requester).live then
        s.turnAway (apertureAccessOf n isWatch st o)
      else match s.freeSlot with
        | none => s.turnAway (apertureAccessOf n isWatch st o)
        | some i => (s.enterRecord i (newRecord (apertureAccessOf n isWatch st o)
            (s.requesterEntry n.requester).setup)).retryAccess (apertureAccessOf n isWatch st o) := by
  have hopen : ¬ (s.stationEntry st).mode.closed = true := by
    rw [State.closed_iff_not_inService]
    exact not_not.2 hopen
  have hside : ¬ (isWatch && (s.stationEntry st).cls == .side) = true := by
    simpa using hside
  exact (if_neg hquota).trans ((if_neg hopen).trans (if_neg hside))

/-- Settles O16: the two causes for which a new request is turned away, at the quota or with no slot FREE. -/
theorem newRequestIsTurnedAway : Obligations.NewRequestIsTurnedAway := by
  unfold Obligations.NewRequestIsTurnedAway
  intro s n isWatch st o hclaims hpasses hnew hopen hside
  dsimp only
  intro hquota hfull
  have hturned : s.admitOrRefuse (apertureAccessOf n isWatch st o) = s.turnAway (apertureAccessOf n isWatch st o) := by
    rw [State.admitOrRefuse_of_admissible hopen hside hquota]
    rcases hfull with hquota | hfull
    · exact if_pos hquota
    · rw [(s.freeSlot_eq_none).2 hfull]
      exact ite_self _
  rw [exec_of_noMatch hclaims hpasses hnew, hturned, State.turnAway, retryAccess_eq, satInc_byte]
  rfl

/-- Below the quota a new request is entered in the lowest FREE slot (R20, R48). -/
theorem exec_of_admitted {s : State} {n : NearAccess} {isWatch : Bool} {st : Station} {o : WordOffset} {i : Slot}
    (hclaims : s.Claims n isWatch st o) (hpasses : n.PassesRefusals isWatch) (hnew : s.NoMatch (n.key isWatch st o))
    (hopen : s.InService st) (hside : ¬ (isWatch = true ∧ (s.stationEntry st).cls = .side))
    (hquota : (s.requesterEntry n.requester).quota ≠ 0)
    (hbelow : (s.requesterEntry n.requester).live < (s.requesterEntry n.requester).quota.toNat)
    (hfree : (s.record i).state = .free) (hlowest : ∀ j, j < i → (s.record j).live) :
    exec (n.command isWatch) s = .next { s.enterRecord i (newRecord (apertureAccessOf n isWatch st o)
      (s.requesterEntry n.requester).setup) with answer := n.bareAnswer .retry } := by
  have hslot : s.freeSlot = some i := (s.freeSlot_eq_some i).2 ⟨hfree, hlowest⟩
  rw [exec_of_noMatch hclaims hpasses hnew, State.admitOrRefuse_of_admissible hopen hside hquota,
    if_neg (not_le.2 hbelow), hslot]
  exact congrArg _ (retryAccess_eq _ n isWatch st o)

/-- A record is entered in a FREE slot: it is counted in its state, which no record leaves (R20). -/
theorem State.enterRecord_of_free {s : State} {i : Slot} (hfree : (s.record i).state = .free) (r : Record) :
    s.enterRecord i r = { s with
      slots := s.slots.set i r, order := s.order ++ [i], summary := s.summary.add r.state,
      requesters := s.requesters.set r.requester
        { s.requesterEntry r.requester with live := (s.requesterEntry r.requester).live + 1 } } := by
  have hsummary : (s.setRecord i r).summary = s.summary.add r.state := by rw [setRecord_summary, hfree]; rfl
  rw [enterRecord_eq, ← hsummary]
  rfl

/-- Settles O17: the record of a far access is PENDING, with the write data of its key. -/
theorem farAccessIsEntered : Obligations.FarAccessIsEntered := by
  unfold Obligations.FarAccessIsEntered
  intro s n st o i hclaims hpasses hnew hopen
  dsimp only
  intro hquota hbelow hfree hlowest
  have hentered := exec_of_admitted hclaims hpasses hnew hopen (by simp) hquota hbelow hfree hlowest
  rw [State.enterRecord_of_free hfree] at hentered
  refine hentered.trans ?_
  obtain ⟨q, a, lanes, d⟩ := n
  cases d <;> rfl

/-- Settles O18: the record of a watch read is in WATCH with a timer of 0, so it is due, and holds the setup of its
requester; the reference is captured in mode DIFFER only (R109). -/
theorem watchReadIsEntered : Obligations.WatchReadIsEntered := by
  unfold Obligations.WatchReadIsEntered
  intro s q a lanes st o i
  dsimp only
  intro hclaims hlanes hnew hopen hplain hquota hbelow hfree hlowest
  have hpasses : NearAccess.PassesRefusals { requester := q, address := a, lanes := lanes, direction := .read } true :=
    ⟨fun _ _ hwrite => by simp at hwrite, hlanes, fun _ => rfl⟩
  have hentered := exec_of_admitted hclaims hpasses hnew hopen (by simp [hplain]) hquota hbelow hfree hlowest
  rw [State.enterRecord_of_free hfree] at hentered
  refine hentered.trans ?_
  cases hmode : (s.requesterEntry q).setup.mode with
  | differ => simp [apertureAccessOf, newRecord, accessKind, hmode, Summary.add, NearAccess.bareAnswer]
  | change =>
    have hcaptured : (WatchMode.change == WatchMode.differ) = false := rfl
    simp [apertureAccessOf, newRecord, accessKind, hmode, hcaptured, Summary.add, NearAccess.bareAnswer]

/-! ### Freeing -/

/-- Settles O13: the freed record is taken out of the count of its own state, and no other record changes. -/
theorem freeingRemovesTheRecord : Obligations.FreeingRemovesTheRecord := by
  unfold Obligations.FreeingRemovesTheRecord
  intro s i hlive
  dsimp only
  have hsummary : (s.setRecord i .free).summary =
      { live := s.summary.live - 1
        pending := s.summary.pending - if (s.record i).state = .pending then 1 else 0
        attempt := s.summary.attempt - if (s.record i).state = .attempt then 1 else 0
        backoff := s.summary.backoff - if (s.record i).state = .backoff then 1 else 0
        watch := s.summary.watch - if (s.record i).state = .watch then 1 else 0
        ready := s.summary.ready - if (s.record i).state = .ready then 1 else 0 } := by
    rw [State.setRecord_summary]
    cases hstate : (s.record i).state with
    | free => exact absurd hstate hlive
    | pending | attempt | backoff | watch | ready => simp [Record.free, Summary.add, Summary.sub]
  rw [s.freeRecord_of_live i hlive, ← hsummary]
  rfl

end Sys2Proof.Machine
end

