-- ==== Sys2Proof/Proofs/RegisterMap.lean ====
section
/-! PROOF. The control window's words (R177 to R180): where each stands, what a read of each returns, and who may write
it. A word of several fields is the sum of its fields at their bits, for each field ends below the next. -/

set_option Elab.async false

namespace Sys2Proof.Machine

/-! ### The register map -/

theorem stationRegister_offset (st : Station) {k : Nat} (hk : k < 4) :
    registerOffset (stationRegister st k) = 0x100 + 0x10 * st.val + 4 * k := by
  interval_cases k <;> simp [stationRegister, registerOffset] <;> omega

theorem requesterRegister_offset (q : Requester) {k : Nat} (hk : k < 8) :
    registerOffset (requesterRegister q k) = 0x200 + 0x20 * q.val + 4 * k := by
  interval_cases k <;> simp [requesterRegister, registerOffset] <;> omega

theorem plainRegister_offset {offset : Nat} (h : plainRegister offset ≠ .absent) :
    registerOffset (plainRegister offset) = offset := by
  unfold plainRegister at h ⊢
  split at h
  case h_23 => exact absurd rfl h
  all_goals rfl

/-- A word of the window stands where its offset says. -/
theorem registerOffset_registerOf {o : WindowOffset} (h : registerOf o ≠ .absent) :
    registerOffset (registerOf o) = o.toNat * 4 := by
  unfold registerOf at h ⊢
  dsimp only at h ⊢
  split
  case isTrue hstation =>
    rw [stationRegister_offset _ (by omega), Fin.val_ofNat]
    omega
  case isFalse hstation =>
    rw [if_neg hstation] at h
    split
    case isTrue hrequester =>
      rw [requesterRegister_offset _ (by omega), Fin.val_ofNat]
      omega
    case isFalse hrequester =>
      rw [if_neg hrequester] at h
      exact plainRegister_offset h

theorem registerAt_registerOf {o : WindowOffset} (h : registerOf o ≠ .absent) : registerAt (registerOf o) = o := by
  apply BitVec.eq_of_toNat_eq
  rw [registerAt, registerOffset_registerOf h, BitVec.toNat_ofNat]
  omega

theorem registerOf_registerAt {reg : Register} (h : reg ≠ .absent) : registerOf (registerAt reg) = reg := by
  have hview : ∀ n : Fin 9, registerOf (registerAt (.view n)) = .view n := by decide
  have hstation : ∀ st : Station, registerOf (registerAt (.stationMode st)) = .stationMode st ∧
      registerOf (registerAt (.stationTiming st)) = .stationTiming st ∧
      registerOf (registerAt (.stationPoll st)) = .stationPoll st ∧
      registerOf (registerAt (.stationSilences st)) = .stationSilences st := by decide
  have hrequester : ∀ q : Requester, registerOf (registerAt (.requesterCounts q)) = .requesterCounts q ∧
      registerOf (registerAt (.counterClear q)) = .counterClear q ∧
      registerOf (registerAt (.faultStatus q)) = .faultStatus q ∧
      registerOf (registerAt (.faultOffset q)) = .faultOffset q ∧
      registerOf (registerAt (.setupMode q)) = .setupMode q ∧
      registerOf (registerAt (.setupReference q)) = .setupReference q ∧
      registerOf (registerAt (.setupMask q)) = .setupMask q ∧
      registerOf (registerAt (.setupPollLimit q)) = .setupPollLimit q := by decide
  cases reg with
  | absent => exact absurd rfl h
  | view n => exact hview n
  | stationMode st | stationTiming st | stationPoll st | stationSilences st => simp only [hstation st]
  | requesterCounts q | counterClear q | faultStatus q | faultOffset q | setupMode q | setupReference q | setupMask q
  | setupPollLimit q => simp only [hrequester q]
  | _ => rfl

/-- Settles O21: the map from offsets to words and the map back undo each other. -/
theorem registerMapIsExact : Obligations.RegisterMapIsExact := by
  unfold Obligations.RegisterMapIsExact
  refine ⟨fun reg hreg => ⟨registerOf_registerAt hreg, ?_⟩, fun o => registerAt_registerOf⟩
  have hof := registerOf_registerAt hreg
  have hoffset := registerOffset_registerOf (o := registerAt reg) (by rwa [hof])
  rw [← hoffset, hof]

/-! ### The words as sums of their fields -/

theorem fieldAt_toNat {v p : Nat} (h : v * 2 ^ p < 2 ^ 32) : (fieldAt v p).toNat = v * 2 ^ p := by
  have hv : v < 2 ^ 32 := lt_of_le_of_lt (Nat.le_mul_of_pos_right v (Nat.two_pow_pos p)) h
  rw [fieldAt, BitVec.toNat_shiftLeft, BitVec.toNat_ofNat, Nat.shiftLeft_eq, Nat.mod_eq_of_lt hv, Nat.mod_eq_of_lt h]

theorem fieldAt_zero_toNat {v : Nat} (h : v < 2 ^ 32) : (fieldAt v 0).toNat = v := by
  rw [fieldAt_toNat (by simpa using h), pow_zero, Nat.mul_one]

/-- A field above the bits of a word is added to it. -/
theorem or_fieldAt_toNat {w : Word} {n v p : Nat} (hw : w.toNat = n) (hn : n < 2 ^ p) (hv : v * 2 ^ p < 2 ^ 32) :
    (w ||| fieldAt v p).toNat = n + v * 2 ^ p := by
  rw [BitVec.toNat_or, fieldAt_toNat hv, hw, Nat.or_comm, Nat.mul_comm, ← Nat.two_pow_add_eq_or_of_lt hn, Nat.add_comm]

theorem recordStateCode_lt (x : RecordState) : recordStateCode x < 8 := by cases x <;> decide
theorem kindCode_lt (x : Kind) : kindCode x < 4 := by cases x <;> decide
theorem watchModeCode_lt (x : WatchMode) : watchModeCode x < 2 := by cases x <;> decide
theorem outcomeCode_lt (x : Option RecordOutcome) : outcomeCode x < 8 := by
  rcases x with _ | x
  · decide
  · cases x <;> decide
theorem stationModeCode_lt (x : StationMode) : stationModeCode x < 4 := by cases x <;> decide
theorem stationClassCode_lt (x : StationClass) : stationClassCode x < 2 := by cases x <;> decide
theorem linkStateCode_lt (x : LinkState) : linkStateCode x < 4 := by cases x <;> decide
theorem commandResultCode_lt (x : CommandResult) : commandResultCode x < 8 := by cases x <;> decide
theorem faultReasonCode_lt (x : Option FaultReason) : faultReasonCode x < 16 := by
  rcases x with _ | x
  · decide
  · cases x <;> decide
theorem faultRegionCode_lt (x : Option FaultRegion) : faultRegionCode x < 4 := by
  rcases x with _ | x
  · decide
  · cases x <;> decide

/-- The table summary (R19, R177). -/
theorem Summary.word_toNat {c : Summary} (hlive : c.live < 32) (hpending : c.pending < 32) (hattempt : c.attempt < 2)
    (hbackoff : c.backoff < 32) (hwatch : c.watch < 32) (hready : c.ready < 32) :
    c.word.toNat = c.live + c.pending * 2 ^ 5 + c.attempt * 2 ^ 10 + c.backoff * 2 ^ 11 + c.watch * 2 ^ 16 +
      c.ready * 2 ^ 21 :=
  or_fieldAt_toNat (or_fieldAt_toNat (or_fieldAt_toNat (or_fieldAt_toNat (or_fieldAt_toNat
    (fieldAt_zero_toNat (by omega)) (by omega) (by omega)) (by omega) (by omega)) (by omega) (by omega)) (by omega)
    (by omega)) (by omega) (by omega)

/-- The command status (R177). -/
theorem CommandUnit.statusWord_toNat (c : CommandUnit) :
    c.statusWord.toNat = c.busy.toNat + c.overlap.toNat * 2 + commandResultCode c.lastResult * 2 ^ 8 +
      c.lastCode.toNat * 2 ^ 16 + c.lastOperand.toNat * 2 ^ 24 := by
  have hbusy := c.busy.toNat_lt
  have hoverlap := c.overlap.toNat_lt
  have hresult := commandResultCode_lt c.lastResult
  have hcode := c.lastCode.isLt
  have hoperand := c.lastOperand.isLt
  exact or_fieldAt_toNat (or_fieldAt_toNat (or_fieldAt_toNat (or_fieldAt_toNat (p := 1)
    (fieldAt_zero_toNat (by omega)) (by omega) (by omega)) (by omega) (by omega)) (by omega) (by omega)) (by omega)
    (by omega)

/-- The fault status (R177). -/
theorem FaultRecord.statusWord_toNat (f : FaultRecord) :
    f.statusWord.toNat = faultReasonCode f.reason + faultRegionCode f.region * 2 ^ 4 + f.station.val * 2 ^ 8 +
      f.further.toNat * 2 ^ 16 + f.valid.toNat * 2 ^ 31 := by
  have hreason := faultReasonCode_lt f.reason
  have hregion := faultRegionCode_lt f.region
  have hstation := f.station.isLt
  have hfurther := f.further.isLt
  have hvalid := f.valid.toNat_lt
  exact or_fieldAt_toNat (or_fieldAt_toNat (or_fieldAt_toNat (or_fieldAt_toNat
    (fieldAt_zero_toNat (by omega)) (by omega) (by omega)) (by omega) (by omega)) (by omega) (by omega)) (by omega)
    (by omega)

/-- The first view register, for a rank in its five bits (R167, R177). -/
theorem View.word_zero_toNat {v : View} (hrank : v.rank < 32) :
    (v.word 0).toNat = v.slot.val + recordStateCode v.content.state * 2 ^ 8 + v.rank * 2 ^ 16 +
      v.content.withdrawn.toNat * 2 ^ 24 := by
  have hslot := v.slot.isLt
  have hstate := recordStateCode_lt v.content.state
  have hwithdrawn := v.content.withdrawn.toNat_lt
  exact or_fieldAt_toNat (or_fieldAt_toNat (or_fieldAt_toNat (fieldAt_zero_toNat (by omega)) (by omega) (by omega))
    (by omega) (by omega)) (by omega) (by omega)

/-- The second view register (R167, R177). -/
theorem View.word_one_toNat (v : View) :
    (v.word 1).toNat = v.content.requester.val + kindCode v.content.kind * 2 ^ 4 +
      watchModeCode v.content.watchMode * 2 ^ 6 + v.content.captured.toNat * 2 ^ 7 + v.content.station.val * 2 ^ 8 +
      v.content.lanes.toNat * 2 ^ 12 + outcomeCode v.content.outcome * 2 ^ 16 := by
  have hrequester := v.content.requester.isLt
  have hkind := kindCode_lt v.content.kind
  have hmode := watchModeCode_lt v.content.watchMode
  have hcaptured := v.content.captured.toNat_lt
  have hstation := v.content.station.isLt
  have hlanes := v.content.lanes.isLt
  have houtcome := outcomeCode_lt v.content.outcome
  exact or_fieldAt_toNat (or_fieldAt_toNat (or_fieldAt_toNat (or_fieldAt_toNat (or_fieldAt_toNat (or_fieldAt_toNat
    (fieldAt_zero_toNat (by omega)) (by omega) (by omega)) (by omega) (by omega)) (by omega) (by omega)) (by omega)
    (by omega)) (by omega) (by omega)) (by omega) (by omega)

/-- Two byte fields side by side. -/
theorem byte_or_byte_toNat (x y : Byte) :
    (fieldAt x.toNat 0 ||| fieldAt y.toNat 8).toNat = x.toNat + y.toNat * 2 ^ 8 := by
  have hx := x.isLt
  have hy := y.isLt
  exact or_fieldAt_toNat (fieldAt_zero_toNat (by omega)) (by omega) (by omega)

/-- The far link status (R177). -/
theorem State.farLinkStatus_toNat (s : State) :
    (s.readRegister .farLinkStatus).toNat =
      s.far.late.toNat + s.far.misaddressed.toNat * 2 ^ 8 + linkStateCode s.far.link * 2 ^ 24 := by
  have hlate := s.far.late.isLt
  have hmisaddressed := s.far.misaddressed.isLt
  have hlink := linkStateCode_lt s.far.link
  exact or_fieldAt_toNat (byte_or_byte_toNat _ _) (by omega) (by omega)

/-- The counts and the quota of a requester (R177). -/
theorem State.requesterCounts_toNat {s : State} {q : Requester} (hlive : (s.requesterEntry q).live < 256) :
    (s.readRegister (.requesterCounts q)).toNat = (s.requesterEntry q).live +
      (s.requesterEntry q).turnedAway.toNat * 2 ^ 8 + (s.requesterEntry q).unclaimed.toNat * 2 ^ 16 +
      (s.requesterEntry q).quota.toNat * 2 ^ 24 := by
  have hturned := (s.requesterEntry q).turnedAway.isLt
  have hunclaimed := (s.requesterEntry q).unclaimed.isLt
  have hquota := (s.requesterEntry q).quota.isLt
  exact or_fieldAt_toNat (or_fieldAt_toNat (or_fieldAt_toNat (fieldAt_zero_toNat (by omega)) (by omega) (by omega))
    (by omega) (by omega)) (by omega) (by omega)

/-- A field of its own at bit 0. -/
theorem fieldAt_zero_bitVec_toNat {n : Nat} (x : BitVec n) (hn : n ≤ 32) : (fieldAt x.toNat 0).toNat = x.toNat :=
  fieldAt_zero_toNat (lt_of_lt_of_le x.isLt (Nat.pow_le_pow_right (by decide) hn))

theorem byteOffset_toNat (o : WordOffset) : (fieldAt (byteOffset o) 0).toNat = o.toNat * 4 := by
  have ho := o.isLt
  exact fieldAt_zero_toNat (by rw [byteOffset]; omega)

/-- Settles O22: the codes by their tables, and each word by its fields. -/
theorem readWordsFollowTheLayout : Obligations.ReadWordsFollowTheLayout := by
  unfold Obligations.ReadWordsFollowTheLayout
  intro s st q
  dsimp only
  have hmode := stationModeCode_lt (s.stationEntry st).mode
  have hcls := stationClassCode_lt (s.stationEntry st).cls
  have hsetup := watchModeCode_lt (s.requesterEntry q).setup.mode
  have hopen := s.params.aperturesOpen.toNat_lt
  have hselect := s.params.timeBaseSelect.isLt
  have hpoll := s.command.view.content.pollLimit.isLt
  have hpolled := s.command.view.content.pollCount.isLt
  have htimer := s.command.view.content.timer.isLt
  have hhold := s.command.view.content.holdCount.isLt
  refine ⟨rfl, rfl, rfl, rfl, rfl, rfl, rfl, rfl, rfl, rfl, ?globalControl,
    fieldAt_zero_bitVec_toNat _ (by decide), fieldAt_zero_bitVec_toNat _ (by decide),
    fieldAt_zero_bitVec_toNat _ (by decide), Summary.word_toNat, s.farLinkStatus_toNat, rfl,
    byte_or_byte_toNat _ _, s.command.statusWord_toNat, View.word_zero_toNat, s.command.view.word_one_toNat,
    byteOffset_toNat _, rfl, rfl, rfl, ?polls, ?timers, rfl, ?stationMode, byte_or_byte_toNat _ _,
    fieldAt_zero_bitVec_toNat _ (by decide), fieldAt_zero_bitVec_toNat _ (by decide), State.requesterCounts_toNat, rfl,
    (s.requesterEntry q).fault.statusWord_toNat, byteOffset_toNat _, fieldAt_zero_toNat (by omega), rfl, rfl,
    fieldAt_zero_bitVec_toNat _ (by decide), rfl, rfl, rfl, rfl, rfl⟩
  case globalControl | polls | timers | stationMode =>
    exact or_fieldAt_toNat (fieldAt_zero_toNat (by omega)) (by omega) (by omega)

/-! ### The right to write -/

/-- The words that a requester other than the owner may write stand in its own range (R180). -/
theorem registerOffset_of_guest {reg : Register} {q : Requester} (h : registerGuest reg = some q) :
    0x20C + 0x20 * q.val ≤ registerOffset reg ∧ registerOffset reg ≤ 0x21C + 0x20 * q.val := by
  cases reg <;> simp [registerGuest] at h <;> subst h <;> simp [registerOffset]

theorem mayWrite_eq_false {s : State} {o : WindowOffset} {q : Requester} (howner : q ≠ s.own)
    (hrange : ¬ (0x20C + 0x20 * q.val ≤ o.toNat * 4 ∧ o.toNat * 4 ≤ 0x21C + 0x20 * q.val)) :
    s.mayWrite q (registerOf o) = false := by
  have hguest : registerGuest (registerOf o) ≠ some q := by
    intro hguest
    have hpresent : registerOf o ≠ .absent := by
      intro habsent
      simp [habsent, registerGuest] at hguest
    rw [← registerOffset_registerOf hpresent] at hrange
    exact hrange (registerOffset_of_guest hguest)
  simp [State.mayWrite, howner, hguest]

/-- Settles O24: the near check first, then the writer's right (R180). -/
theorem windowWriteNeedsTheRight : Obligations.WindowWriteNeedsTheRight := by
  unfold Obligations.WindowWriteNeedsTheRight
  intro c s o w hword hrst
  dsimp only
  rw [exec_of_windowWord c s o w hword]
  have hclaimed : s.takeWindowWrite o w = s.windowWrite o w := if_neg (by simp [hrst])
  rw [hclaimed]
  constructor
  · intro hfails
    exact congrArg Host.Outcome.next (if_pos (by simp [hfails]))
  · intro hpasses howner hrange
    exact congrArg Host.Outcome.next
      ((if_neg (by simp [hpasses])).trans (if_pos (by simp [mayWrite_eq_false howner hrange])))

end Sys2Proof.Machine
end

