-- ==== Sys2Proof/Proofs/ControlWrites.lean ====
section
/-! PROOF. What a taken write of the control window stores (R125, R126, R131, R134, R135, R140, R149, R150, R154, R157,
R158, R181): each row writes the word it names, and each word is stored lane by lane. -/

set_option Elab.async false

namespace Sys2Proof.Machine

/-! ### A taken write stores its register -/

/-- A row that writes a word of the map, or REGISTER_WRITE of it, stores the register and answers ACK (R180). -/
theorem exec_of_takes {s : State} {c : Instr} {reg : Register} {w : WindowWrite}
    (hword : c.windowWord = some (registerAt reg, w)) (hreg : reg ≠ .absent) (h : s.Takes reg w) :
    exec c s = .next ((s.writeRegister reg w.lanes w.data).setAnswer ackWrite) := by
  have hback := registerOf_registerAt hreg
  rw [exec_of_windowWord c s _ w hword, State.takeWindowWrite_of_takes (by rwa [hback]), hback]
  rfl

theorem State.setStation_self (s : State) (st : Station) : s.setStation st (s.stationEntry st) = s := by
  simp [setStation, stationEntry]

theorem State.setRequester_self (s : State) (q : Requester) : s.setRequester q (s.requesterEntry q) = s := by
  simp [setRequester, requesterEntry]

theorem State.setStation_setStation (s : State) (st : Station) (e e' : StationEntry) :
    (s.setStation st e).setStation st e' = s.setStation st e' := by
  simp [setStation]

/-! ### Global control and the silence limit -/

theorem State.writeTimeBase_eq (s : State) (n : BitVec 3) :
    s.writeTimeBase n = (s.setParams { s.params with timeBaseSelect := n }).setDivider
      (if n = s.params.timeBaseSelect then s.divider else 0) := by
  by_cases h : n = s.params.timeBaseSelect
  · rw [writeTimeBase, if_pos h, if_pos h, h]
    rfl
  · rw [writeTimeBase, if_neg h, if_neg h]

/-- The time base select that a write leaves in global control (R140). -/
def Params.selectAfter (p : Params) (lanes : Lanes) (data : Word) : BitVec 3 :=
  if lanes.getLsbD 1 then data.extractLsb' 8 3 else p.timeBaseSelect

theorem State.writeGlobalControl_eq (s : State) (lanes : Lanes) (data : Word) :
    s.writeGlobalControl lanes data =
      (s.setParams { s.params with
        aperturesOpen := if lanes.getLsbD 0 then data.getLsbD 0 else s.params.aperturesOpen
        timeBaseSelect := s.params.selectAfter lanes data }).setDivider
          (if s.params.selectAfter lanes data = s.params.timeBaseSelect then s.divider else 0) := by
  have hopen : (if laneOn lanes 0 then s.setParams { s.params with aperturesOpen := data.getLsbD 0 } else s) =
      s.setParams { s.params with
        aperturesOpen := if lanes.getLsbD 0 then data.getLsbD 0 else s.params.aperturesOpen } := by
    unfold laneOn
    split <;> rfl
  rw [writeGlobalControl, hopen, Params.selectAfter]
  by_cases hlane : lanes.getLsbD 1 = true
  · rw [if_pos hlane, writeTimeBase_eq]
    exact if_pos hlane
  · rw [if_neg hlane, if_pos rfl]
    exact if_neg hlane

/-- Settles O25: lane 0 stores apertures-open, lane 1 the time base select (R28, R140). -/
theorem globalControlWrite : Obligations.GlobalControlWrite := by
  unfold Obligations.GlobalControlWrite
  intro s w htakes select c hc
  have hword : c.windowWord = some (registerAt .globalControl, w) := by
    rcases List.mem_pair.1 hc with rfl | rfl <;> rfl
  rw [exec_of_takes hword (by decide) htakes]
  exact congrArg (fun t : State => Host.Outcome.next (t.setAnswer ackWrite)) (s.writeGlobalControl_eq w.lanes w.data)

/-- Settles O26: a limit other than 0 is stored and clears the counts (R131). -/
theorem silenceLimitWrite : Obligations.SilenceLimitWrite := by
  unfold Obligations.SilenceLimitWrite
  intro s w htakes limit
  rw [exec_of_takes rfl (by decide) htakes]
  constructor
  · intro hlane hlimit
    have hstored : s.writeRegister .silenceLimit w.lanes w.data =
        (s.setParams { s.params with silenceLimit := limit }).clearSilences :=
      (if_pos hlane).trans (if_neg hlimit)
    rw [hstored]
    exact ⟨_, rfl, rfl, State.clearSilences_stationEntry _⟩
  · intro hnone
    have hstored : s.writeRegister .silenceLimit w.lanes w.data = s := by
      rcases hnone with hlane | hlimit
      · exact if_neg (by rw [laneOn, hlane]; decide)
      · have hkept : s.writeSilenceLimit limit = s := if_pos hlimit
        exact (congrArg (fun t => if laneOn w.lanes 0 then t else s) hkept).trans (ite_self s)
    rw [hstored]
    rfl

/-! ### The mode and class word of a station -/

/-- The class that a write leaves in the word of a station (R134). -/
def StationEntry.classAfter (e : StationEntry) (lanes : Lanes) (data : Word) : StationClass :=
  if lanes.getLsbD 1 then (if data.getLsbD 8 then .side else .plain) else e.cls

/-- The class is written first, and the mode is then judged on the old mode of the station. -/
theorem State.writeStationMode_eq (s : State) (st : Station) (lanes : Lanes) (data : Word) :
    s.writeStationMode st lanes data =
      let t := s.setStation st { s.stationEntry st with cls := (s.stationEntry st).classAfter lanes data }
      if lanes.getLsbD 0 then t.writeMode st (data.extractLsb' 0 2) else t := by
  have hclass : (if laneOn lanes 1 then s.writeClass st (data.getLsbD 8) else s) =
      s.setStation st { s.stationEntry st with cls := (s.stationEntry st).classAfter lanes data } := by
    unfold StationEntry.classAfter laneOn
    split
    · rfl
    · exact (s.setStation_self st).symm
  unfold writeStationMode
  rw [hclass]
  rfl

/-- The two bits of a mode spell one of the four modes (R178). -/
theorem stationModeOf_code (code : BitVec 2) : stationModeCode (stationModeOf code) = code.toNat := by
  revert code
  decide

theorem stationModeCode_inj {m m' : StationMode} : stationModeCode m = stationModeCode m' ↔ m = m' := by
  cases m <;> cases m' <;> decide

/-- A mode written is left aside when it is UNREACHABLE, when the station is in it, and in UNREACHABLE unless it is
OFF (R125, R126). -/
theorem State.writeMode_of_left {s : State} {st : Station} {code : BitVec 2}
    (h : stationModeOf code = .unreachable ∨ stationModeOf code = (s.stationEntry st).mode ∨
      ((s.stationEntry st).mode = .unreachable ∧ stationModeOf code ≠ .off)) : s.writeMode st code = s := by
  unfold writeMode
  dsimp only
  split <;> simp_all

/-- ACTIVE and SUSPENDED are written to any station but an UNREACHABLE one (R125). -/
theorem State.writeMode_of_inService {s : State} {st : Station} {code : BitVec 2}
    (hcode : stationModeOf code = .active ∨ stationModeOf code = .suspended)
    (hmode : (s.stationEntry st).mode ≠ .unreachable) :
    s.writeMode st code = s.setStation st { s.stationEntry st with mode := stationModeOf code } := by
  by_cases hsame : stationModeOf code = (s.stationEntry st).mode
  · rw [writeMode_of_left (.inr (.inl hsame)), hsame]
    exact (s.setStation_self st).symm
  · unfold writeMode
    dsimp only
    split <;> simp_all

/-- OFF written to an UNREACHABLE station (R126). -/
theorem State.writeMode_off_of_unreachable {s : State} {st : Station} {code : BitVec 2}
    (hcode : stationModeOf code = .off) (hmode : (s.stationEntry st).mode = .unreachable) :
    s.writeMode st code = s.setStation st { s.stationEntry st with mode := .off, silences := 0 } := by
  simp only [writeMode, hcode, hmode]

/-- OFF written to a station in service closes it (R125, R127). -/
theorem State.writeMode_off_of_inService {s : State} {st : Station} {code : BitVec 2}
    (hcode : stationModeOf code = .off) (hmode : s.InService st) :
    s.writeMode st code =
      (s.setStation st { s.stationEntry st with mode := .off, silences := 0 }).closeStation st := by
  rcases hmode with hmode | hmode <;> simp only [writeMode, hcode, hmode]

/-- STATION_MODE_WRITE and REGISTER_WRITE of the word are one write. -/
theorem stationMode_word {st : Station} {w : WindowWrite} {c : Instr}
    (hc : c ∈ [Instr.stationModeWrite st w, Instr.registerWrite (registerAt (.stationMode st)) w]) :
    c.windowWord = some (registerAt (.stationMode st), w) := by
  rcases List.mem_pair.1 hc with rfl | rfl <;> rfl

/-- Settles O27: the class is stored, and the mode judged on the old one (R125, R126, R134). -/
theorem modeWriteWithoutClosure : Obligations.ModeWriteWithoutClosure := by
  unfold Obligations.ModeWriteWithoutClosure
  intro s st w htakes e cls code becomes
  have hbecomes {entry : StationEntry} (h : s.writeStationMode st w.lanes w.data = s.setStation st entry) :
      becomes entry := by
    intro c hc
    rw [exec_of_takes (stationMode_word hc) (by simp) htakes]
    exact congrArg (fun t : State => Host.Outcome.next (t.setAnswer ackWrite)) h
  have hcode (m : StationMode) (hm : code = stationModeCode m) : stationModeOf (w.data.extractLsb' 0 2) = m :=
    stationModeCode_inj.1 ((stationModeOf_code _).trans hm)
  have hentry : (s.setStation st { e with cls := cls }).stationEntry st = { e with cls := cls } := by simp
  have hwritten (hlane : w.lanes.getLsbD 0 = true) : s.writeStationMode st w.lanes w.data =
      (s.setStation st { e with cls := cls }).writeMode st (w.data.extractLsb' 0 2) :=
    (s.writeStationMode_eq st w.lanes w.data).trans (if_pos hlane)
  refine ⟨fun hleft => hbecomes ?_, fun hlane hactive hmode => hbecomes ?_,
    fun hlane hsuspended hmode => hbecomes ?_, fun hlane hoff hmode => hbecomes ?_⟩
  · by_cases hlane : w.lanes.getLsbD 0 = true
    · rw [hwritten hlane, State.writeMode_of_left]
      rw [hentry]
      rcases hleft with hunselected | hcode3 | hsame | ⟨hlost, hnotoff⟩
      · exact absurd (hlane.symm.trans hunselected) (by decide)
      · exact .inl (hcode .unreachable hcode3)
      · exact .inr (.inl (hcode e.mode hsame))
      · refine .inr (.inr ⟨hlost, fun hoff => hnotoff ?_⟩)
        exact (stationModeOf_code _).symm.trans (congrArg stationModeCode hoff)
    · exact (s.writeStationMode_eq st w.lanes w.data).trans (if_neg hlane)
  · have hm := hcode .active hactive
    rw [hwritten hlane, State.writeMode_of_inService (.inl hm) (by rwa [hentry]), hentry, hm,
      State.setStation_setStation]
  · have hm := hcode .suspended hsuspended
    rw [hwritten hlane, State.writeMode_of_inService (.inr hm) (by rwa [hentry]), hentry, hm,
      State.setStation_setStation]
  · rw [hwritten hlane, State.writeMode_off_of_unreachable (hcode .off hoff) (by rwa [hentry]), hentry,
      State.setStation_setStation]

end Sys2Proof.Machine
end

