-- ==== Sys2Proof/Proofs/FieldWrites.lean ====
section
/-! PROOF. The writes that stay inside one entry (R80, R108, R135, R149, R150, R154, R164, R181): the clears by 1, the
watch setup, the fields that never leave their range, and the words that a write leaves as they stand. -/

set_option Elab.async false

namespace Sys2Proof.Machine

/-! ### The clears by 1 -/

theorem State.writeFaultClear_eq (s : State) (q : Requester) (lanes : Lanes) (data : Word) :
    s.writeFaultClear q lanes data = s.setRequester q { s.requesterEntry q with
      fault := if laneOn lanes 3 && data.getLsbD 31 then .clear else (s.requesterEntry q).fault } := by
  unfold writeFaultClear
  split
  · rfl
  · exact (s.setRequester_self q).symm

theorem State.writeOverlap_eq (s : State) (lanes : Lanes) (data : Word) :
    s.writeOverlap lanes data = s.setCommand { s.command with
      overlap := if laneOn lanes 0 && data.getLsbD 1 then false else s.command.overlap } := by
  unfold writeOverlap
  split <;> rfl

/-- Settles O29: each clear acts where its lane is selected and 1 is written (R80, R150, R154, R164). -/
theorem writeOneClears : Obligations.WriteOneClears := by
  unfold Obligations.WriteOneClears
  intro s q w ones e
  refine ⟨fun htakes c hc => ?_, fun htakes c hc => ?_, fun htakes => ?_, fun htakes => ?_⟩
  · have hword : c.windowWord = some (registerAt .farLinkClear, w) := by
      rcases List.mem_pair.1 hc with rfl | rfl <;> rfl
    rw [exec_of_takes hword (by decide) htakes]
    rfl
  · have hword : c.windowWord = some (registerAt (.counterClear q), w) := by
      rcases List.mem_pair.1 hc with rfl | rfl <;> rfl
    rw [exec_of_takes hword (by simp) htakes]
    rfl
  · rw [exec_of_takes rfl (by simp) htakes]
    exact congrArg (fun t : State => Host.Outcome.next (t.setAnswer ackWrite)) (s.writeFaultClear_eq q w.lanes w.data)
  · rw [exec_of_takes rfl (by decide) htakes]
    exact congrArg (fun t : State => Host.Outcome.next (t.setAnswer ackWrite)) (s.writeOverlap_eq w.lanes w.data)

/-! ### The watch setup -/

/-- A half word is merged byte by byte, as a word is. -/
theorem mergeHalf_byte (old : BitVec 16) (data : Word) (l : Lanes) {k : Nat} (hk : k < 2) :
    (mergeHalf old data l).extractLsb' (8 * k) 8 =
      if l.getLsbD k then data.extractLsb' (8 * k) 8 else old.extractLsb' (8 * k) 8 := by
  have hword := mergeWord_byte (old.setWidth 32) data l k
  have hlow (x : Word) : (x.setWidth 16).extractLsb' (8 * k) 8 = x.extractLsb' (8 * k) 8 := by
    apply BitVec.eq_of_getLsbD_eq
    intro i hi
    simp [hi, show 8 * k + i < 16 by omega]
  have hold : (old.setWidth 32).extractLsb' (8 * k) 8 = old.extractLsb' (8 * k) 8 := by
    rw [← hlow, BitVec.setWidth_setWidth_of_le _ (by decide), BitVec.setWidth_eq]
  rw [mergeHalf, hlow, hword, hold]

theorem State.writeRegister_setupRegister (s : State) (q : Requester) (field : SetupField) (lanes : Lanes)
    (data : Word) : s.writeRegister (setupRegister q field) lanes data = s.writeSetup q field lanes data := by
  cases field <;> rfl

theorem WatchSetup.write_mode (setup : WatchSetup) (lanes : Lanes) (data : Word) :
    setup.write .mode lanes data = { setup with
      mode := if laneOn lanes 0 then (if data.getLsbD 0 then .change else .differ) else setup.mode } := by
  by_cases hlane : laneOn lanes 0 = true
  · rw [if_pos hlane]
    exact if_pos hlane
  · rw [if_neg hlane]
    exact if_neg hlane

/-- Settles O30: the field of the setup that the row names takes the selected bytes (R108). -/
theorem watchSetupWrite : Obligations.WatchSetupWrite := by
  unfold Obligations.WatchSetupWrite
  intro s q field w htakes e bytes
  have hpresent : setupRegister q field ≠ .absent := by cases field <;> simp [setupRegister]
  refine ⟨e.setup.write field w.lanes w.data, ?_, ?_⟩
  · rw [exec_of_takes rfl hpresent htakes, State.writeRegister_setupRegister]
    rfl
  · cases field with
    | mode => exact e.setup.write_mode w.lanes w.data
    | reference => exact ⟨rfl, fun k _ => mergeWord_byte _ _ _ k⟩
    | mask => exact ⟨rfl, fun k _ => mergeWord_byte _ _ _ k⟩
    | pollLimit => exact ⟨rfl, fun k hk => mergeHalf_byte _ _ _ hk⟩

/-! ### The fields that keep their range -/

theorem nonZeroByte_eq (old : Byte) (lanes : Lanes) (lane : Nat) (data : Word) :
    nonZeroByte old lanes lane data =
      if lanes.getLsbD lane = true ∧ data.extractLsb' (8 * lane) 8 ≠ 0 then data.extractLsb' (8 * lane) 8 else old := by
  unfold nonZeroByte laneOn byteOf
  simp only [Bool.and_eq_true, bne_iff_ne]

theorem append_extractLsb'_bytes (x : BitVec 16) : x.extractLsb' 8 8 ++ x.extractLsb' 0 8 = x := by
  apply BitVec.eq_of_getLsbD_eq
  intro i hi
  rw [BitVec.getLsbD_append]
  by_cases hlow : i < 8
  · simp [hlow]
  · simp [hlow, show i - 8 < 8 by omega, show 8 + (i - 8) = i by omega]

/-- A half word is merged from its two bytes. -/
theorem mergeHalf_eq_append (old : BitVec 16) (data : Word) (l : Lanes) :
    mergeHalf old data l =
      (if l.getLsbD 1 then data.extractLsb' 8 8 else old.extractLsb' 8 8) ++
        (if l.getLsbD 0 then data.extractLsb' 0 8 else old.extractLsb' 0 8) := by
  have hhigh := mergeHalf_byte old data l (k := 1) (by decide)
  have hlow := mergeHalf_byte old data l (k := 0) (by decide)
  rw [← append_extractLsb'_bytes (mergeHalf old data l)]
  exact congrArg₂ (· ++ ·) hhigh hlow

theorem State.writeQuota_eq (s : State) (q : Requester) (lanes : Lanes) (data : Word) :
    s.writeQuota q lanes data = s.setRequester q { s.requesterEntry q with
      quota := if laneOn lanes 3 = true ∧ (byteOf data 3).toNat ≤ 24 then byteOf data 3
        else (s.requesterEntry q).quota } := by
  unfold writeQuota
  split
  · rfl
  · exact (s.setRequester_self q).symm

/-- Settles O33: a value out of the range of its field is not stored (R135, R149, R181). -/
theorem storedFieldsKeepTheirRange : Obligations.StoredFieldsKeepTheirRange := by
  unfold Obligations.StoredFieldsKeepTheirRange
  intro s w written byte half
  have hwritten {reg : Register} {t : State} (hreg : reg ≠ .absent) (htakes : s.Takes reg w)
      (h : s.writeRegister reg w.lanes w.data = t) : written reg t := by
    subst h
    exact exec_of_takes rfl hreg htakes
  have hbyte (lane : Nat) (old : Byte) : nonZeroByte old w.lanes lane w.data = byte lane old :=
    nonZeroByte_eq old w.lanes lane w.data
  have hhalf (old : BitVec 16) : nonZeroHalf old w.lanes w.data = half old := by
    rw [nonZeroHalf, mergeHalf_eq_append]
  refine ⟨fun htakes => hwritten (by decide) htakes ?_, fun htakes => hwritten (by decide) htakes ?_,
    fun st htakes => hwritten (by simp) htakes ?_, fun st htakes => hwritten (by simp) htakes ?_,
    fun q htakes => hwritten (by simp) htakes (s.writeQuota_eq q w.lanes w.data)⟩
  · rw [← hbyte]
    rfl
  · rw [← hhalf]
    rfl
  · rw [← hbyte, ← hbyte]
    rfl
  · rw [← hhalf]
    rfl

/-! ### The other words -/

theorem State.writeCommandRegister_of_lanes {s : State} {lanes : Lanes} (data : Word) (h0 : lanes.getLsbD 0 = true)
    (h1 : lanes.getLsbD 1 = true) :
    s.writeCommandRegister lanes data = s.writeCommand (byteOf data 0) (byteOf data 1) :=
  if_pos (by rw [laneOn, laneOn, h0, h1]; rfl)

theorem State.writeCommandRegister_of_no_lane {s : State} {lanes : Lanes} (data : Word)
    (h : lanes.getLsbD 0 = false ∨ lanes.getLsbD 1 = false) : s.writeCommandRegister lanes data = s :=
  if_neg (by rcases h with h | h <;> simp only [laneOn, h, Bool.and_false, Bool.false_and] <;> decide)

/-- Settles O34: read-only and absent words are left, and the command register takes a command (R162, R181). -/
theorem otherWordsKeepTheirValues : Obligations.OtherWordsKeepTheirValues := by
  unfold Obligations.OtherWordsKeepTheirValues
  intro s o w htakes
  have hexec : exec (.registerWrite o w) s =
      .next ((s.writeRegister (registerOf o) w.lanes w.data).setAnswer ackWrite) :=
    congrArg Host.Outcome.next (State.takeWindowWrite_of_takes htakes)
  refine ⟨fun hkept => ?_, fun hcommand hlane => ?_, fun c hcommand h0 h1 hbytes => ?_⟩
  · rw [hexec]
    rcases hkept with h | h | h | ⟨_, h⟩ | ⟨_, h⟩ | ⟨_, h⟩ <;> rw [h] <;> rfl
  · have hleft := s.writeCommandRegister_of_no_lane w.data hlane
    rw [hexec, hcommand]
    exact congrArg (fun t : State => Host.Outcome.next (t.setAnswer ackWrite)) hleft
  · have hwritten := s.writeCommandRegister_of_lanes w.data h0 h1
    have hclaimed : s.ownerCommand (byteOf w.data 0) (byteOf w.data 1) =
        (s.writeCommand (byteOf w.data 0) (byteOf w.data 1)).setAnswer ackWrite :=
      if_neg (by rw [htakes.1]; decide)
    rw [hexec, hcommand, exec_of_commandBytes c _ _ s hbytes]
    exact congrArg Host.Outcome.next ((congrArg (fun t : State => t.setAnswer ackWrite) hwritten).trans hclaimed.symm)

end Sys2Proof.Machine
end

