-- ==== Sys2Proof/Proofs/NoticeWrites.lean ====
section
/-! PROOF. The words of flags and enables (R155, R157, R158, R177). A write acts on the word and the groups are cut from
it again; so a bit that the table names is the bit of the word written, and the other word is left. -/

set_option Elab.async false

namespace Sys2Proof.Machine

/-- The number of positions that the table names in a word of flags or enables (R177). -/
def noticeWidth : NoticeWord → Nat
  | .a => 26
  | .b => 16

/-- The positions above those that the table names read 0. -/
theorem Notices.toWord_bit_of_ge (n : Notices) (word : NoticeWord) {k : Nat} (hk : noticeWidth word ≤ k) :
    (n.toWord word).getLsbD k = false := by
  cases word with
  | a =>
    have habove : ¬ k < 8 ∧ ¬ k < 16 ∧ ¬ k < 24 ∧ k ≠ 24 ∧ k ≠ 25 := by
      simp only [noticeWidth] at hk
      omega
    simp [toWord_a_bit, habove]
  | b => exact (n.toWord_b_bit k).trans (BitVec.getLsbD_of_ge n.lost k hk)

theorem byteOf_bit (w : Word) (n : Nat) {k : Nat} (hk : k < 8) : (byteOf w n).getLsbD k = w.getLsbD (8 * n + k) := by
  simp [byteOf, hk]

/-- A position that the table names holds the bit of the word stored. -/
theorem Notices.toWord_withWord_bit (n : Notices) (word : NoticeWord) (w : Word) {k : Nat} (hk : k < noticeWidth word) :
    ((n.withWord word w).toWord word).getLsbD k = w.getLsbD k := by
  cases word with
  | a =>
    simp only [noticeWidth] at hk
    rw [toWord_a_bit]
    simp only [withWord]
    split_ifs with h8 h16 h24
    · rw [byteOf_bit w 0 h8, Nat.mul_zero, Nat.zero_add]
    · rw [byteOf_bit w 1 (by omega), show 8 * 1 + (k - 8) = k by omega]
    · rw [byteOf_bit w 2 (by omega), show 8 * 2 + (k - 16) = k by omega]
    · have hlast : k = 24 ∨ k = 25 := by omega
      rcases hlast with rfl | rfl <;> simp
  | b =>
    simp only [noticeWidth] at hk
    rw [toWord_b_bit]
    simp [withWord, hk]

theorem Notices.toWord_withWord_other (n : Notices) {word other : NoticeWord} (w : Word) (h : other ≠ word) :
    (n.withWord word w).toWord other = n.toWord other := by
  cases word <;> cases other
  case a.a | b.b => exact absurd rfl h
  case a.b | b.a => rfl

/-- A written 1 clears its flag where its lane is selected, and no other flag of the word (R157). -/
theorem Notices.toWord_clearOnes_bit (n : Notices) (word : NoticeWord) (data : Word) (lanes : Lanes) (k : Nat) :
    ((n.clearOnes word data lanes).toWord word).getLsbD k =
      ((n.toWord word).getLsbD k && !(lanes.getLsbD (k / 8) && data.getLsbD k)) := by
  by_cases hk : k < noticeWidth word
  · have hword : k < 32 := by
      cases word <;> simp only [noticeWidth] at hk <;> omega
    rw [clearOnes, toWord_withWord_bit _ _ _ hk, BitVec.getLsbD_and, BitVec.getLsbD_not, BitVec.getLsbD_and,
      laneMask_bit, Bool.and_comm (data.getLsbD k)]
    simp [hword]
  · rw [toWord_bit_of_ge _ _ (Nat.le_of_not_lt hk), toWord_bit_of_ge _ _ (Nat.le_of_not_lt hk), Bool.false_and]

/-- Settles O31: where each flag stands, the clears by 1 and the stores of enables. -/
theorem noticeWordsAreWritten : Obligations.NoticeWordsAreWritten := by
  unfold Obligations.NoticeWordsAreWritten
  refine ⟨fun n => ⟨n.toWord_a_bit, n.toWord_b_bit⟩, fun s word w => ⟨fun htakes => ?_, fun htakes => ?_⟩⟩
  · have hpresent : flagsRegister word ≠ .absent := by cases word <;> decide
    refine ⟨s.flags.clearOnes word w.data w.lanes, ?_, s.flags.toWord_clearOnes_bit word w.data w.lanes,
      fun other hother => s.flags.toWord_withWord_other _ hother⟩
    rw [exec_of_takes rfl hpresent htakes]
    cases word <;> rfl
  · have hpresent : enablesRegister word ≠ .absent := by cases word <;> decide
    refine ⟨s.enables.store word w.data w.lanes, ?_, fun k hk => ?_,
      fun other hother => s.enables.toWord_withWord_other _ hother⟩
    · rw [exec_of_takes rfl hpresent htakes]
      cases word <;> rfl
    · have hwidth : k < noticeWidth word := by cases word <;> exact hk
      rw [Notices.store, Notices.toWord_withWord_bit _ _ _ hwidth, mergeWord_bit]

end Sys2Proof.Machine
end

