-- ==== Sys2Proof/Proofs/Closure.lean ====
section
/-! PROOF. The closure of a station (R19, R100, R125, R127). The fold over the slots is followed slot by slot: a slot
that has been closed is not reached again, and one that is still to come is as it was before the closure. -/

set_option Elab.async false

namespace Sys2Proof.Machine

/-! ### One slot -/

theorem Record.closedWith_iff (r : Record) (st : Station) : r.closedWith st = true ↔ r.WaitsAt st := by
  simp [closedWith, WaitsAt, or_assoc]

/-- The slots of a list that hold a record of a station in a state. -/
def State.stationSlotsAmong (s : State) (l : List Slot) (st : Station) (k : RecordState) : Nat :=
  l.countP fun i => (s.record i).station == st && (s.record i).state == k

theorem State.stationSlotsAmong_cons (s : State) (i : Slot) (l : List Slot) (st : Station) (k : RecordState) :
    s.stationSlotsAmong (i :: l) st k =
      s.stationSlotsAmong l st k + ((s.record i).station == st && (s.record i).state == k).toNat := by
  rw [stationSlotsAmong, List.countP_cons, stationSlotsAmong, Bool.toNat]
  cases (s.record i).station == st && (s.record i).state == k <;> rfl

theorem State.stationSlotsAmong_nil (s : State) (st : Station) (k : RecordState) :
    s.stationSlotsAmong [] st k = 0 := rfl

/-- The summary counts after the waiting records of a station in some slots have become READY. -/
def State.closedAmong (s : State) (l : List Slot) (st : Station) : Summary :=
  { s.summary with
    pending := s.summary.pending - s.stationSlotsAmong l st .pending
    backoff := s.summary.backoff - s.stationSlotsAmong l st .backoff
    watch := s.summary.watch - s.stationSlotsAmong l st .watch
    ready := s.summary.ready + s.stationSlotsAmong l st .pending + s.stationSlotsAmong l st .backoff +
      s.stationSlotsAmong l st .watch }

/-- A record in a state, as its station's closure moves it in the summary counts. -/
theorem Summary.closed_eq (c : Summary) (x : RecordState) :
    (if (x == .pending || x == .backoff || x == .watch) = true then (c.add .ready).sub x else c) =
      { c with
        pending := c.pending - (x == .pending).toNat
        backoff := c.backoff - (x == .backoff).toNat
        watch := c.watch - (x == .watch).toNat
        ready := c.ready + (x == .pending).toNat + (x == .backoff).toNat + (x == .watch).toNat } := by
  cases x <;> rfl

/-- The closure of one slot moves its record in the summary counts when it waits at the station. -/
theorem closeSlot_summary (st : Station) (s : State) (i : Slot) :
    (closeSlot st s i).summary = s.closedAmong [i] st := by
  have hone (k : RecordState) : s.stationSlotsAmong [i] st k =
      ((s.record i).station == st && (s.record i).state == k).toNat := by
    rw [s.stationSlotsAmong_cons i [], s.stationSlotsAmong_nil, Nat.zero_add]
  rw [State.closedAmong, hone, hone, hone, closeSlot]
  by_cases hst : ((s.record i).station == st) = true
  · simp only [Record.closedWith, hst, Bool.true_and]
    rw [apply_ite State.summary, ← Summary.closed_eq]
    rfl
  · have hother : ((s.record i).station == st) = false := Bool.eq_false_of_not_eq_true hst
    simp only [Record.closedWith, hother, Bool.false_and]
    rfl

theorem closeSlot_ready (st : Station) (s : State) (i : Slot) (q : Requester) :
    (closeSlot st s i).flags.ready.getLsbD q.val = true ↔
      s.flags.ready.getLsbD q.val = true ∨ ((s.record i).WaitsAt st ∧ (s.record i).requester = q) := by
  rw [closeSlot, ← Record.closedWith_iff]
  split
  next hwaits =>
    have hset := getLsbD_setBit s.flags.ready (s.record i).requester.val q.val (s.record i).requester.isLt
    have hbit : (s.toReady i .noStation 0).flags.ready.getLsbD q.val =
        (s.flags.ready.getLsbD q.val || q.val == (s.record i).requester.val) := hset
    rw [hbit, and_iff_right hwaits, Bool.or_eq_true, beq_iff_eq, Fin.ext_iff, eq_comm (a := q.val)]
  next hleft => simp [hleft]

/-! ### All slots -/

/-- A slot that the closure of another one leaves is as it was. -/
theorem closeSlot_record_of_ne (st : Station) (s : State) {i j : Slot} (h : j ≠ i) :
    (closeSlot st s i).record j = s.record j := by
  rw [closeSlot_record, if_neg h]

theorem closeSlots_summary (st : Station) {l : List Slot} (hl : l.Nodup) (s : State) :
    (l.foldl (closeSlot st) s).summary = s.closedAmong l st := by
  induction l generalizing s with
  | nil => rfl
  | cons i l ih =>
    obtain ⟨hi, hl⟩ := List.nodup_cons.1 hl
    have hrest (k : RecordState) : (closeSlot st s i).stationSlotsAmong l st k = s.stationSlotsAmong l st k :=
      List.countP_congr fun j hj => by rw [closeSlot_record_of_ne st s (ne_of_mem_of_not_mem hj hi)]
    rw [List.foldl_cons, ih hl, State.closedAmong, closeSlot_summary, hrest, hrest, hrest]
    simp only [State.closedAmong, s.stationSlotsAmong_cons i, s.stationSlotsAmong_nil, Summary.mk.injEq, true_and]
    omega

theorem closeSlots_ready (st : Station) {l : List Slot} (hl : l.Nodup) (s : State) (q : Requester) :
    (l.foldl (closeSlot st) s).flags.ready.getLsbD q.val = true ↔
      s.flags.ready.getLsbD q.val = true ∨ ∃ j ∈ l, (s.record j).WaitsAt st ∧ (s.record j).requester = q := by
  induction l generalizing s with
  | nil => simp
  | cons i l ih =>
    obtain ⟨hi, hl⟩ := List.nodup_cons.1 hl
    have hrest : (∃ j ∈ l, ((closeSlot st s i).record j).WaitsAt st ∧ ((closeSlot st s i).record j).requester = q) ↔
        ∃ j ∈ l, (s.record j).WaitsAt st ∧ (s.record j).requester = q :=
      exists_congr fun j => and_congr_right fun hj => by
        rw [closeSlot_record_of_ne st s (ne_of_mem_of_not_mem hj hi)]
    rw [List.foldl_cons, ih hl, closeSlot_ready, hrest, or_assoc, List.exists_mem_cons_iff]

/-! ### The closure -/

theorem State.closeStation_summary (s : State) (st : Station) : (s.closeStation st).summary = s.closedSummary st := by
  rw [closeStation, closeSlots_summary st (List.nodup_finRange 24) s]
  rfl

/-- The waiting records of the station become READY NOSTATION, with their requesters' notices (R127). -/
theorem State.closeStation_madeNoStation (s : State) (st : Station) :
    s.MadeNoStation (s.closeStation st) fun j => (s.record j).WaitsAt st := by
  refine ⟨fun j hwaits => ?_, fun j hleft => ?_, fun q => ?_⟩
  · exact (s.closeStation_record st j).trans (if_pos ((Record.closedWith_iff _ _).2 hwaits))
  · exact (s.closeStation_record st j).trans (if_neg fun hclosed => hleft ((Record.closedWith_iff _ _).1 hclosed))
  · rw [closeStation, closeSlots_ready st (List.nodup_finRange 24) s q]
    exact or_congr_right (exists_congr fun j => and_iff_right (List.mem_finRange j))

/-- What the words of a closure speak of is the slots, the collection limit and the READY notices. -/
theorem State.MadeNoStation.of_same {s s' t t' : State} {P : Slot → Prop} (h : s.MadeNoStation t P)
    (hslots : s'.slots = s.slots) (hlimit : s'.params.collectionLimit = s.params.collectionLimit)
    (hready : s'.flags.ready = s.flags.ready) (hslots' : t'.slots = t.slots)
    (hready' : t'.flags.ready = t.flags.ready) : s'.MadeNoStation t' P := by
  have hs (j : Slot) : s'.record j = s.record j := by rw [record, hslots]; rfl
  have ht (j : Slot) : t'.record j = t.record j := by rw [record, hslots']; rfl
  simp only [MadeNoStation, hs, ht, hlimit, hready, hready']
  exact h

/-- What a closure changes: the slots, the summary counts and the READY notices. -/
theorem State.closeStation_spec (s : State) (st : Station) :
    ∃ slots ready, s.closeStation st = { s with
        slots := slots, summary := s.closedSummary st, flags := { s.flags with ready := ready } } ∧
      s.MadeNoStation (s.closeStation st) fun j => (s.record j).WaitsAt st := by
  refine ⟨(s.closeStation st).slots, (s.closeStation st).flags.ready, ?_, s.closeStation_madeNoStation st⟩
  rw [← closeStation_summary]
  exact s.closeStation_frame st

/-- Settles O28: the class is stored, and the station, now OFF, closed. -/
theorem writingOffClosesTheStation : Obligations.WritingOffClosesTheStation := by
  unfold Obligations.WritingOffClosesTheStation
  intro s st w htakes hlane hoff hservice e cls
  have hcode : stationModeOf (w.data.extractLsb' 0 2) = .off := by rw [hoff]; rfl
  have hentry : (s.setStation st { e with cls := cls }).stationEntry st = { e with cls := cls } := by simp
  have hwritten : s.writeStationMode st w.lanes w.data =
      (s.setStation st { e with cls := cls, mode := .off, silences := 0 }).closeStation st := by
    have hclosed : (s.setStation st { e with cls := cls }).InService st := by
      rw [State.InService, hentry]
      exact hservice
    rw [s.writeStationMode_eq]
    refine (if_pos hlane).trans ((State.writeMode_off_of_inService hcode hclosed).trans ?_)
    rw [hentry, State.setStation_setStation]
  obtain ⟨slots, ready, hclosed, hmade⟩ :=
    (s.setStation st { e with cls := cls, mode := .off, silences := 0 }).closeStation_spec st
  rw [hclosed] at hwritten hmade
  refine ⟨(s.writeStationMode st w.lanes w.data).setAnswer ackWrite, fun c hc => ?_, ?_, ?_⟩
  · rw [exec_of_takes (stationMode_word hc) (by simp) htakes]
    rfl
  · rw [hwritten]
    rfl
  · rw [hwritten]
    exact hmade.of_same rfl rfl rfl rfl rfl

end Sys2Proof.Machine
end

