-- ==== Sys2Proof/Proofs/Commands.lean ====
section
/-! PROOF. The Command Unit (R162 to R170, R176). A command in IDLE runs its rule with the last command already
written, which no rule reads; so each rule is stated on the state before the command, and the command's own fields are
put in afterwards. -/

set_option Elab.async false

namespace Sys2Proof.Machine

/-! ### Taking a command -/

/-- Settles O35: in BUSY the write is ignored and the overlap flag set (R162). -/
theorem busyCommandUnitIgnores : Obligations.BusyCommandUnitIgnores := by
  unfold Obligations.BusyCommandUnitIgnores
  intro s c hbytes hrst hbusy
  obtain ⟨⟨code, operand⟩, hcode⟩ := Option.isSome_iff_exists.1 hbytes
  have hignored : s.ownerCommand code operand =
      (s.setCommand { s.command with overlap := true }).setAnswer ackWrite := by
    rw [State.ownerCommand, State.writeCommand, if_pos hbusy, if_neg (by rw [hrst]; decide)]
    rfl
  rw [exec_of_commandBytes c code operand s hcode, hignored]
  rfl

theorem commandOf_eq_none {code : Byte} (h : code = 0 ∨ 6 < code.toNat) : commandOf code = none := by
  revert code
  decide

/-- A command whose rule completes at once with a result, and changes nothing else. -/
theorem exec_of_completes {s : State} {c : Instr} {code operand : Byte} {name : CommandName} {result : CommandResult}
    (hidle : s.CommandIdle) (hbytes : c.commandBytes = some (code, operand)) (hname : commandOf code = some name)
    (hrule : ∀ t : State, t.runCommand name operand = t.complete result) :
    exec c s = .next (s.doneAtOnce code operand result) := by
  rw [exec_of_commandIdle hbytes hidle, s.takeCommand_of_commandOf operand hname, hrule,
    State.complete_setAnswer_ackWrite]

theorem slotOperand_eq_none {operand : Byte} (h : 24 ≤ operand.toNat) : slotOperand operand = none :=
  dif_neg (Nat.not_lt.2 h)

theorem requesterOperand_eq_none {operand : Byte} (h : 8 ≤ operand.toNat) : requesterOperand operand = none :=
  dif_neg (Nat.not_lt.2 h)

theorem stationOperand_eq_none {operand : Byte} (h : 16 ≤ operand.toNat) : stationOperand operand = none :=
  dif_neg (Nat.not_lt.2 h)

/-- Settles O36: the code is checked, then the operand (R165). -/
theorem commandChecksComeFirst : Obligations.CommandChecksComeFirst := by
  unfold Obligations.CommandChecksComeFirst
  intro s code operand hidle
  refine ⟨fun hcode => ?_, fun h => ?_, fun h => ?_, fun h => ?_, fun h => ?_⟩
  · have hnone := commandOf_eq_none hcode
    rw [exec_of_commandIdle (c := .badCommand code operand) rfl hidle]
    simp only [State.takeCommand, hnone, State.complete_setAnswer_ackWrite]
  · exact exec_of_completes (name := .view) hidle rfl rfl fun t => by
      simp only [State.runCommand, slotOperand_eq_none h]
  · exact exec_of_completes (name := .withdraw) hidle rfl rfl fun t => by
      simp only [State.runCommand, slotOperand_eq_none h]
  · exact exec_of_completes (name := .withdrawRequester) hidle rfl rfl fun t => by
      simp only [State.runCommand, requesterOperand_eq_none h]
  · exact exec_of_completes (name := .readmit) hidle rfl rfl fun t => by
      simp only [State.runCommand, stationOperand_eq_none h]

/-! ### VIEW and WITHDRAW -/

/-- Settles O37: the snapshot is of the slot before the command, which the last command does not touch (R167). -/
theorem viewTakesASnapshot : Obligations.ViewTakesASnapshot := by
  unfold Obligations.ViewTakesASnapshot
  intro s operand i hidle hi done
  rw [exec_of_commandIdle (c := .view operand) rfl hidle, s.takeCommand_of_commandOf (name := .view) operand rfl]
  simp only [State.runCommand, slotOperand_eq operand i hi]
  rfl

/-- A record that keeps its state leaves the summary counts. -/
theorem State.setRecord_of_sameState (s : State) {i : Slot} {r : Record} (h : r.state = (s.record i).state) :
    s.setRecord i r = { s with slots := s.slots.set i r } := by
  rw [setRecord, h, Summary.add_sub_cancel]

theorem State.withdrawSlot_of_free {s : State} {i : Slot} (h : (s.record i).state = .free) :
    s.withdrawSlot i = s.complete .noRecord := by
  simp only [withdrawSlot, h]

theorem State.withdrawSlot_of_attempt {s : State} {i : Slot} (h : (s.record i).state = .attempt) :
    s.withdrawSlot i =
      State.startWait { s with slots := s.slots.set i { s.record i with withdrawn := true } } (.slot i) := by
  have hrule : s.withdrawSlot i = (s.withdrawRecord i).startWait (.slot i) := by simp only [withdrawSlot, h]
  have hmarked : s.withdrawRecord i = s.setRecord i { s.record i with withdrawn := true } := if_pos h
  rw [hrule, hmarked.trans (s.setRecord_of_sameState rfl)]

theorem State.withdrawSlot_of_live {s : State} {i : Slot} (hlive : (s.record i).live)
    (hattempt : (s.record i).state ≠ .attempt) : s.withdrawSlot i = (s.freeRecord i).complete .ok := by
  cases h : (s.record i).state
  case free => exact absurd h hlive
  case attempt => exact absurd h hattempt
  all_goals simp only [withdrawSlot, h, withdrawRecord, reduceCtorEq, if_false]

theorem State.freeRecord_setCommand (s : State) (c : CommandUnit) (i : Slot) :
    (s.setCommand c).freeRecord i = (s.freeRecord i).setCommand c := by
  by_cases hfree : (s.record i).state = .free
  · rw [s.freeRecord_of_free i hfree]
    exact (s.setCommand c).freeRecord_of_free i hfree
  · rw [s.freeRecord_of_live i hfree]
    exact (s.setCommand c).freeRecord_of_live i hfree

theorem State.freeRecord_command (s : State) (i : Slot) : (s.freeRecord i).command = s.command := by
  rw [freeRecord_frame]

/-- WITHDRAW of a slot in IDLE comes to its rule on that slot, with the last command written before it. -/
theorem exec_withdraw_of_commandIdle {s : State} {operand : Byte} {i : Slot} (hidle : s.CommandIdle)
    (hi : operand.toNat = i.val) :
    exec (.withdraw operand) s =
      .next (((s.setCommand { s.command with lastCode := 2, lastOperand := operand }).withdrawSlot i).setAnswer
        ackWrite) := by
  rw [exec_of_commandIdle (c := .withdraw operand) rfl hidle,
    s.takeCommand_of_commandOf (name := .withdraw) operand rfl]
  simp only [State.runCommand, slotOperand_eq operand i hi]

/-- Settles O38, by the three branches of the rule (R169). -/
theorem withdrawActsOnTheSlot : Obligations.WithdrawActsOnTheSlot := by
  unfold Obligations.WithdrawActsOnTheSlot
  intro s operand i hidle hi
  rw [exec_withdraw_of_commandIdle hidle hi]
  refine ⟨fun hfree => ?_, fun hlive hattempt => ?_, fun hattempt => ?_⟩
  · rw [State.withdrawSlot_of_free (by exact hfree), State.complete_setAnswer_ackWrite]
  · rw [State.withdrawSlot_of_live (by exact hlive) (by exact hattempt), State.freeRecord_setCommand,
      ← s.freeRecord_command i, State.complete_setAnswer_ackWrite]
  · rw [State.withdrawSlot_of_attempt (by exact hattempt)]
    rfl

/-! ### FAR_RESET -/

/-- What a provisional result changes: the slots, the summary counts and the READY notices. -/
theorem State.attemptProvisional_frame (s : State) (i : Slot) (r : Record) :
    s.attemptProvisional i r = { s with
      slots := (s.attemptProvisional i r).slots, summary := (s.attemptProvisional i r).summary
      flags := (s.attemptProvisional i r).flags } := by
  unfold attemptProvisional
  split
  · unfold attemptToWait
    dsimp only
    split <;> rfl
  · rfl

theorem State.attemptToWait_setCommand (s : State) (c : CommandUnit) (i : Slot) (r : Record) :
    (s.setCommand c).attemptToWait i r = (s.attemptToWait i r).setCommand c := by
  unfold attemptToWait
  by_cases hkind : r.kind = .watch
  · rw [if_pos hkind, if_pos hkind]
    rfl
  · rw [if_neg hkind, if_neg hkind]
    rfl

theorem State.attemptProvisional_setCommand (s : State) (c : CommandUnit) (i : Slot) (r : Record) :
    (s.setCommand c).attemptProvisional i r = (s.attemptProvisional i r).setCommand c := by
  by_cases hservice : s.InService r.station
  · rw [attemptProvisional, if_pos (by exact hservice), attemptProvisional, if_pos hservice, attemptToWait_setCommand]
  · rw [attemptProvisional, if_neg (by exact hservice), attemptProvisional, if_neg hservice]
    rfl

theorem State.abandon_of_idle_or_reset {s : State} (h : s.far.link = .idle ∨ s.far.link = .reset) : s.abandon = s := by
  rcases h with h | h <;> simp only [abandon, h]

/-- The record of the transaction in flight has a provisional result (R83). -/
theorem State.abandon_of_inFlight {s : State} (h : s.far.link = .request ∨ s.far.link = .await)
    (hattempt : (s.record s.far.transaction.slot).state = .attempt) :
    s.abandon = s.attemptProvisional s.far.transaction.slot (s.record s.far.transaction.slot) := by
  have habandon : s.abandon = s.returnRecord s.far.transaction.slot := by
    rcases h with h | h <;> simp only [abandon, h, abandonRecord, hattempt, if_true]
  have hself : s.setRecord s.far.transaction.slot (s.record s.far.transaction.slot) = s := by
    rw [s.setRecord_of_sameState rfl]
    simp [record]
  rw [habandon, ← provisionalResult_eq _ _ _ hattempt hattempt, hself]

/-- Settles O41: what is in flight is abandoned, then the silence counts are cleared and the link reset (R82 to
R84). -/
theorem farResetBegins : Obligations.FarResetBegins := by
  unfold Obligations.FarResetBegins
  intro s operand hidle begins
  have hbegins {u : State} (habandon : ∀ c, (s.setCommand c).abandon = u.setCommand c)
      (hframe : u = { s with slots := u.slots, summary := u.summary, flags := u.flags }) : begins u := by
    refine ⟨(((u.setCommand { s.command with lastCode := 6, lastOperand := operand }).clearSilences.setFar
      { s.far.over .reset with resetTimer := Config.farResetTicks }).startWait .farReset).setAnswer ackWrite,
      ?_, ?_, ?_⟩
    · rw [exec_of_commandIdle (c := .farReset operand) rfl hidle,
        s.takeCommand_of_commandOf (name := .farReset) operand rfl, State.runCommand, State.beginFarReset, habandon,
        hframe]
      rfl
    · rw [hframe]
      rfl
    · intro st
      rw [hframe]
      exact s.clearSilences_stationEntry st
  refine ⟨fun hlink => hbegins (fun c => State.abandon_of_idle_or_reset hlink) rfl,
    fun i hlink hslot hattempt => hbegins (fun c => ?_) (s.attemptProvisional_frame i _)⟩
  subst hslot
  rw [State.abandon_of_inFlight (s := s.setCommand c) hlink hattempt]
  exact s.attemptProvisional_setCommand c _ _

end Sys2Proof.Machine
end

