-- ==== Sys2Proof/Proofs/WithdrawMany.lean ====
section
/-! PROOF. WITHDRAW_REQUESTER and CLEAR (R169, R170, R173, R174). The fold over the slots is followed slot by slot, as
a closure is: a slot that is still to come holds the record it held before the command, so what the fold frees is what
was there to be freed. -/

set_option Elab.async false

namespace Sys2Proof.Machine

/-! ### What a withdraw of many frees -/

/-- A withdraw of many frees the record: it reaches it, and the record is not in ATTEMPT. -/
abbrev State.Frees (s : State) (q : Option Requester) (i : Slot) : Prop :=
  s.Reached q i ∧ (s.record i).state ≠ .attempt

/-- How many records in some slots a withdraw of many frees for which `P` holds. -/
def State.freedAmong (s : State) (q : Option Requester) (l : List Slot) (P : Record → Bool) : Nat :=
  l.countP fun i => decide (s.Frees q i) && P (s.record i)

theorem State.freedAmong_all (s : State) (q : Option Requester) (P : Record → Bool) :
    s.freedAmong q (List.finRange 24) P = s.freedBy q P := by
  refine List.countP_congr fun i _ => ?_
  simp only [Bool.and_eq_true, decide_eq_true_iff, bne_iff_ne]

theorem State.freedAmong_cons_of_frees {s : State} {q : Option Requester} {i : Slot} (h : s.Frees q i) (l : List Slot)
    (P : Record → Bool) : s.freedAmong q (i :: l) P = s.freedAmong q l P + (P (s.record i)).toNat := by
  rw [freedAmong, List.countP_cons, decide_eq_true h, Bool.true_and, freedAmong]
  cases P (s.record i) <;> rfl

theorem State.freedAmong_cons_of_not_frees {s : State} {q : Option Requester} {i : Slot} (h : ¬ s.Frees q i)
    (l : List Slot) (P : Record → Bool) : s.freedAmong q (i :: l) P = s.freedAmong q l P := by
  rw [freedAmong, List.countP_cons, decide_eq_false h, Bool.false_and, freedAmong]
  rfl

/-- Slots that hold the same records are freed alike. -/
theorem State.frees_congr {s t : State} {i : Slot} (h : t.record i = s.record i) (q : Option Requester) :
    t.Frees q i ↔ s.Frees q i := by
  rw [Frees, Reached, h]

theorem State.freedAmong_congr {s t : State} {l : List Slot} (h : ∀ i ∈ l, t.record i = s.record i)
    (q : Option Requester) (P : Record → Bool) : t.freedAmong q l P = s.freedAmong q l P :=
  List.countP_congr fun i hi => by
    rw [Bool.and_eq_true, Bool.and_eq_true, decide_eq_true_iff, decide_eq_true_iff, frees_congr (h i hi), h i hi]

/-! ### One slot -/

theorem Record.ofRequester_iff (r : Record) (q : Option Requester) :
    r.ofRequester q = true ↔ ∀ p, q = some p → r.requester = p := by
  cases q <;> simp [ofRequester]

theorem withdrawOne_of_frees {s : State} {q : Option Requester} {i : Slot} (h : s.Frees q i) :
    withdrawOne q s i = s.freeRecord i := by
  obtain ⟨⟨-, hof⟩, hattempt⟩ := h
  exact (if_pos ((Record.ofRequester_iff _ _).2 hof)).trans (if_neg hattempt)

/-- A slot that is not freed is marked or left, and nothing but the slots changes. -/
theorem withdrawOne_of_not_frees {s : State} {q : Option Requester} {i : Slot} (h : ¬ s.Frees q i) :
    withdrawOne q s i = { s with slots := (withdrawOne q s i).slots } := by
  unfold withdrawOne State.withdrawRecord
  by_cases hof : (s.record i).ofRequester q = true
  · rw [if_pos hof]
    by_cases hattempt : (s.record i).state = .attempt
    · rw [if_pos hattempt]
      exact s.setRecord_of_sameState rfl
    · have hfree : (s.record i).state = .free := by
        by_contra hlive
        exact h ⟨⟨hlive, (Record.ofRequester_iff _ _).1 hof⟩, hattempt⟩
      rw [if_neg hattempt, s.freeRecord_of_free i hfree]
  · rw [if_neg hof]

theorem withdrawOne_record_of_ne (q : Option Requester) (s : State) {i j : Slot} (h : j ≠ i) :
    (withdrawOne q s i).record j = s.record j := by
  rw [withdrawOne_record, if_neg h]

/-- A withdraw of a slot changes the slots, the entry order, the summary counts and the requesters only. -/
theorem withdrawOne_frame (q : Option Requester) (s : State) (i : Slot) :
    withdrawOne q s i = { s with
      slots := (withdrawOne q s i).slots, order := (withdrawOne q s i).order
      summary := (withdrawOne q s i).summary, requesters := (withdrawOne q s i).requesters } := by
  by_cases h : s.Frees q i
  · rw [withdrawOne_of_frees h]
    exact s.freeRecord_frame i
  · rw [withdrawOne_of_not_frees h]

theorem withdrawOne_setCommand (q : Option Requester) (s : State) (c : CommandUnit) (i : Slot) :
    withdrawOne q (s.setCommand c) i = (withdrawOne q s i).setCommand c := by
  unfold withdrawOne State.withdrawRecord
  by_cases hof : (s.record i).ofRequester q = true
  · rw [if_pos (by exact hof), if_pos hof]
    by_cases hattempt : (s.record i).state = .attempt
    · rw [if_pos (by exact hattempt), if_pos hattempt]
      rfl
    · rw [if_neg (by exact hattempt), if_neg hattempt, State.freeRecord_setCommand]
  · rw [if_neg (by exact hof), if_neg hof]

/-- The summary counts lose a record that is freed (R19). -/
theorem Summary.sub_of_freed (c : Summary) {x : RecordState} (hlive : x ≠ .free) (hattempt : x ≠ .attempt) :
    c.sub x = { c with live := c.live - 1, pending := c.pending - (x == .pending).toNat
                       backoff := c.backoff - (x == .backoff).toNat, watch := c.watch - (x == .watch).toNat
                       ready := c.ready - (x == .ready).toNat } := by
  cases x
  case free => exact absurd rfl hlive
  case attempt => exact absurd rfl hattempt
  all_goals rfl

theorem State.freeRecord_summary {s : State} {i : Slot} (hlive : (s.record i).live) :
    (s.freeRecord i).summary = s.summary.sub (s.record i).state := by
  rw [s.freeRecord_of_live i hlive]
  rfl

/-! ### Some slots -/

/-- The summary counts after the withdraw of some slots. -/
def State.summaryWithout (s : State) (q : Option Requester) (l : List Slot) : Summary :=
  { live := s.summary.live - s.freedAmong q l fun _ => true
    pending := s.summary.pending - s.freedAmong q l fun r => r.state == .pending
    attempt := s.summary.attempt
    backoff := s.summary.backoff - s.freedAmong q l fun r => r.state == .backoff
    watch := s.summary.watch - s.freedAmong q l fun r => r.state == .watch
    ready := s.summary.ready - s.freedAmong q l fun r => r.state == .ready }

section Fold

variable (q : Option Requester) {l : List Slot} (hl : l.Nodup) (s : State)

include hl

theorem withdrawSome_summary : (l.foldl (withdrawOne q) s).summary = s.summaryWithout q l := by
  induction l generalizing s with
  | nil => rfl
  | cons i l ih =>
    obtain ⟨hi, hl⟩ := List.nodup_cons.1 hl
    have hrest := State.freedAmong_congr (fun j hj => withdrawOne_record_of_ne q s (ne_of_mem_of_not_mem hj hi)) q
    rw [List.foldl_cons, ih hl, State.summaryWithout, hrest, hrest, hrest, hrest, hrest, State.summaryWithout]
    by_cases h : s.Frees q i
    · rw [withdrawOne_of_frees h, State.freeRecord_summary h.1.1, Summary.sub_of_freed _ h.1.1 h.2]
      simp only [State.freedAmong_cons_of_frees h, Bool.toNat_true, Nat.sub_sub, Nat.add_comm]
    · rw [withdrawOne_of_not_frees h]
      simp only [State.freedAmong_cons_of_not_frees h]

theorem withdrawSome_requesterEntry (p : Requester) :
    (l.foldl (withdrawOne q) s).requesterEntry p = { s.requesterEntry p with
      live := (s.requesterEntry p).live - s.freedAmong q l fun r => r.requester == p } := by
  induction l generalizing s with
  | nil => rfl
  | cons i l ih =>
    obtain ⟨hi, hl⟩ := List.nodup_cons.1 hl
    have hrest := State.freedAmong_congr (fun j hj => withdrawOne_record_of_ne q s (ne_of_mem_of_not_mem hj hi)) q
    rw [List.foldl_cons, ih hl, hrest]
    by_cases h : s.Frees q i
    · rw [withdrawOne_of_frees h, s.freeRecord_requesterEntry, State.freedAmong_cons_of_frees h]
      by_cases hp : p = (s.record i).requester
      · rw [if_pos ⟨h.1.1, hp⟩, beq_iff_eq.2 hp.symm, Bool.toNat_true, Nat.add_comm, Nat.sub_add_eq]
      · rw [if_neg fun hboth => hp hboth.2, beq_eq_false_iff_ne.2 (Ne.symm hp), Bool.toNat_false, Nat.add_zero]
    · rw [withdrawOne_of_not_frees h, State.freedAmong_cons_of_not_frees h]
      rfl

theorem withdrawSome_order (horder : s.order.Nodup) :
    (l.foldl (withdrawOne q) s).order = s.order.filter fun j => decide (¬ (j ∈ l ∧ s.Frees q j)) := by
  induction l generalizing s with
  | nil => simp
  | cons i l ih =>
    obtain ⟨hi, hl⟩ := List.nodup_cons.1 hl
    have hrest (j : Slot) : (j ∈ l ∧ (withdrawOne q s i).Frees q j) ↔ (j ∈ l ∧ s.Frees q j) :=
      and_congr_right fun hj => State.frees_congr (withdrawOne_record_of_ne q s (ne_of_mem_of_not_mem hj hi)) q
    by_cases h : s.Frees q i
    · have herased : (withdrawOne q s i).order = s.order.erase i := by
        rw [withdrawOne_of_frees h, s.freeRecord_order i h.1.1]
      rw [List.foldl_cons, ih hl _ (herased ▸ horder.erase i), herased, horder.erase_eq_filter, List.filter_filter]
      refine List.filter_congr fun j _ => ?_
      by_cases hji : j = i
      · subst hji
        have hgone : ¬ ¬ (j ∈ j :: l ∧ s.Frees q j) := not_not.2 ⟨List.mem_cons_self, h⟩
        rw [decide_eq_false hgone]
        simp
      · simp [hrest, hji]
    · have hkept : (withdrawOne q s i).order = s.order := by rw [withdrawOne_of_not_frees h]
      rw [List.foldl_cons, ih hl _ (hkept ▸ horder), hkept]
      refine List.filter_congr fun j _ => ?_
      by_cases hji : j = i
      · subst hji
        simp [h, hi]
      · simp [hrest, hji]

end Fold

/-! ### The command -/

/-- All slots withdrawn, before the command completes or waits. -/
def State.withdrawAll (s : State) (q : Option Requester) : State := (List.finRange 24).foldl (withdrawOne q) s

theorem State.withdrawAll_frame (s : State) (q : Option Requester) :
    s.withdrawAll q = { s with
      slots := (s.withdrawAll q).slots, order := (s.withdrawAll q).order, summary := (s.withdrawAll q).summary
      requesters := (s.withdrawAll q).requesters } := by
  refine foldl_induct (withdrawOne q) (fun t => t = { s with
    slots := t.slots, order := t.order, summary := t.summary, requesters := t.requesters }) (fun t i ht => ?_)
    (List.finRange 24) s rfl
  rw [withdrawOne_frame, ht]

theorem withdrawSome_setCommand (q : Option Requester) (l : List Slot) (s : State) (c : CommandUnit) :
    l.foldl (withdrawOne q) (s.setCommand c) = (l.foldl (withdrawOne q) s).setCommand c := by
  induction l generalizing s with
  | nil => rfl
  | cons i l ih => rw [List.foldl_cons, List.foldl_cons, withdrawOne_setCommand, ih]

theorem State.withdrawAll_setCommand (s : State) (q : Option Requester) (c : CommandUnit) :
    (s.setCommand c).withdrawAll q = (s.withdrawAll q).setCommand c :=
  withdrawSome_setCommand q (List.finRange 24) s c

theorem State.withdrawMany_eq (s : State) (q : Option Requester) :
    s.withdrawMany q = match s.inAttempt q with
      | none => (s.withdrawAll q).complete .ok
      | some i => (s.withdrawAll q).startWait (.slot i) := rfl

theorem State.inAttempt_eq_none {s : State} {q : Option Requester}
    (h : ∀ i, ¬ (s.Reached q i ∧ (s.record i).state = .attempt)) : s.inAttempt q = none := by
  refine (find_slots_eq_none _).2 fun i => ?_
  by_contra hfound
  simp only [Bool.not_eq_false, Bool.and_eq_true, beq_iff_eq, Record.ofRequester_iff] at hfound
  obtain ⟨hattempt, hof⟩ := hfound
  exact h i ⟨⟨by simp [hattempt], hof⟩, hattempt⟩

/-- The one record in ATTEMPT, where the withdraw reaches it, is the one the command waits for. -/
theorem State.inAttempt_eq_some {s : State} {q : Option Requester}
    (hunique : ∀ i j, (s.record i).state = .attempt → (s.record j).state = .attempt → i = j) {i : Slot}
    (hreached : s.Reached q i) (hattempt : (s.record i).state = .attempt) : s.inAttempt q = some i := by
  refine (find_slots_eq_some _ i).2 ⟨?_, fun j hj => ?_⟩
  · simpa [hattempt, Record.ofRequester_iff] using hreached.2
  · have hother : (s.record j).state ≠ .attempt := fun hj' => hj.ne (hunique j i hj' hattempt)
    simp [hother]

/-- WITHDRAW_REQUESTER or CLEAR in IDLE withdraws all slots and then completes, or waits for the one in ATTEMPT. -/
theorem exec_withdrawMany {s : State} {c : Instr} {code operand : Byte} {name : CommandName} {q : Option Requester}
    (hidle : s.CommandIdle) (hbytes : c.commandBytes = some (code, operand)) (hname : commandOf code = some name)
    (hrule : ∀ t : State, t.runCommand name operand = t.withdrawMany q) :
    exec c s = .next (match s.inAttempt q with
      | none => (s.withdrawAll q).doneAtOnce code operand .ok
      | some i => (s.withdrawAll q).nowWaits code operand (.slot i)) := by
  have hcommand : (s.withdrawAll q).command = s.command := by rw [State.withdrawAll_frame]
  have hsearch (c : CommandUnit) : (s.setCommand c).inAttempt q = s.inAttempt q := rfl
  rw [exec_of_commandIdle hbytes hidle, s.takeCommand_of_commandOf operand hname, hrule, State.withdrawMany_eq,
    State.withdrawAll_setCommand, hsearch, ← hcommand]
  generalize s.withdrawAll q = u
  cases s.inAttempt q <;> rfl

/-- Settles O39, from the fold's effect on the records, the order and the counts (R169, R173, R174). -/
theorem withdrawingManyRecords : Obligations.WithdrawingManyRecords := by
  unfold Obligations.WithdrawingManyRecords
  intro s c code operand q hcommand hidle horder hunique
  have hexec : exec c s = .next (match s.inAttempt q with
      | none => (s.withdrawAll q).doneAtOnce code operand .ok
      | some i => (s.withdrawAll q).nowWaits code operand (.slot i)) := by
    rcases hcommand with ⟨rfl, rfl, rfl⟩ | ⟨rfl, rfl, p, hp, rfl⟩
    · exact exec_withdrawMany (name := .clear) hidle rfl rfl fun t => rfl
    · exact exec_withdrawMany (name := .withdrawRequester) hidle rfl rfl fun t => by
        simp only [State.runCommand, requesterOperand_eq operand p hp]
  refine ⟨s.withdrawAll q, s.withdrawAll_frame q, fun i => ?_, ?_, ?_, fun p => ?_, fun hnone => ?_,
    fun i hreached hattempt => ?_⟩
  · rw [State.withdrawAll, withdrawAll_record]
    by_cases hof : (s.record i).ofRequester q = true
    · by_cases hlive : (s.record i).live
      · have hreached : s.Reached q i := ⟨hlive, (Record.ofRequester_iff _ _).1 hof⟩
        rw [if_pos hof, if_pos hreached, if_pos hlive]
      · have hfree : (s.record i).state = .free := not_not.1 hlive
        rw [if_pos hof, if_neg fun hreached : s.Reached q i => hlive hreached.1, if_neg (by simp [hfree]), if_neg hlive]
    · rw [if_neg hof, if_neg fun hreached : s.Reached q i => hof ((Record.ofRequester_iff _ _).2 hreached.2)]
  · rw [State.withdrawAll, withdrawSome_order q (List.nodup_finRange 24) s horder]
    exact List.filter_congr fun j _ => by simp
  · rw [State.withdrawAll, withdrawSome_summary q (List.nodup_finRange 24) s]
    simp only [State.summaryWithout, State.freedAmong_all]
  · rw [State.withdrawAll, withdrawSome_requesterEntry q (List.nodup_finRange 24) s, State.freedAmong_all]
  · rw [hexec, State.inAttempt_eq_none hnone]
  · rw [hexec, State.inAttempt_eq_some hunique hreached hattempt]

end Sys2Proof.Machine
end

