-- ==== Sys2Proof/Proofs/FarReplies.lean ====
section
/-! PROOF. The far link from the request to an accepted reply (R65, R69, R71, R74 to R77, R85, R87 to R94, R111, R116 to
R119). An accepted reply frees the link and the station's silence count, and what it makes of the record is the
record's result; the result is looked up for its kind and its end, and applied by one lemma for each of its forms. -/

set_option Elab.async false

namespace Sys2Proof.Machine

theorem State.unlessReset_of_released {s : State} (h : s.rstAsserted = false) (t : State) : s.unlessReset t = t :=
  if_neg (by rw [h]; decide)

/-! ### The request -/

theorem Transaction.addressWord_eq (x : Transaction) : x.addressWord = BitVec.ofNat 32 (x.offset.toNat * 4) := by
  have hoffset := x.offset.isLt
  apply BitVec.eq_of_toNat_eq
  rw [addressWord, BitVec.toNat_shiftLeft, BitVec.toNat_setWidth, BitVec.toNat_ofNat, Nat.shiftLeft_eq]
  omega

theorem Transaction.addressWord_toNat (x : Transaction) : x.addressWord.toNat = x.offset.toNat * 4 := by
  have hoffset := x.offset.isLt
  rw [addressWord_eq, BitVec.toNat_ofNat]
  omega

/-- Every beat of a request carries a word with the context's fields and a correct check (R69). -/
theorem Transaction.eq_beat_of_mem {x : Transaction} {b : FarBeat} (h : b ∈ x.beats) : ∃ fad, b = x.beat fad := by
  rcases List.mem_cons.1 h with rfl | h
  · exact ⟨_, rfl⟩
  · split at h
    · exact ⟨_, List.mem_singleton.1 h⟩
    · cases h

theorem Transaction.beats_fad (x : Transaction) :
    (x.beats.map fun b => b.fad.toNat) =
      if x.isWrite then [x.offset.toNat * 4, x.writeData.toNat] else [x.offset.toNat * 4] := by
  rw [← x.addressWord_toNat, beats]
  split <;> rfl

/-- Settles O43: the beats, the signals and the passage to AWAIT (R65, R69, R71, R183, R185). -/
theorem requestIsDrivenThenAwaited : Obligations.RequestIsDrivenThenAwaited := by
  unfold Obligations.RequestIsDrivenThenAwaited
  refine ⟨fun x => ⟨fun b hb => ?_, x.beats_fad⟩, fun s => ?_⟩
  · obtain ⟨fad, rfl⟩ := Transaction.eq_beat_of_mem hb
    exact ⟨rfl, rfl, rfl, rfl, passesCheck_correctCheck fad⟩
  intro x drives
  have hdrives {fad : Word} (h : s.farBeat = some (x.beat fad)) : drives fad :=
    ⟨correctCheck fad, passesCheck_correctCheck fad, h⟩
  refine ⟨fun hrequest haddress => hdrives ?_, fun hrequest hwrite hclks => hdrives ?_, State.farBeat_of_not_request,
    s.frstAsserted_iff, fun hheld hrst => ?_, fun hrst hrequest => ?_, fun hrst hother => ?_⟩
  · have hfirst : ¬ (x.isWrite = true ∧ 2 ≤ s.far.requestClks) := by
      rintro ⟨hwrite, hclks⟩
      rcases haddress with hread | hearly
      · exact absurd (hread.symm.trans hwrite) (by decide)
      · omega
    rw [State.farBeat_of_request hrequest, if_neg hfirst, ← x.addressWord_eq]
    rfl
  · rw [State.farBeat_of_request hrequest, if_pos ⟨hwrite, hclks⟩]
    rfl
  · have hreset : s.far.link = .reset := by
      rw [hheld hrst]
      rfl
    exact ⟨s.frstAsserted_iff.2 hreset, State.farBeat_of_not_request (by rw [hreset]; decide)⟩
  · exact congrArg Host.Outcome.next ((State.unlessReset_of_released hrst _).trans (if_pos hrequest))
  · exact congrArg Host.Outcome.next ((State.unlessReset_of_released hrst _).trans (if_neg hother))

/-- Settles O51: the end of a far reset, where it is due (R85, R163). -/
theorem farResetEnds : Obligations.FarResetEnds := by
  unfold Obligations.FarResetEnds
  intro s hrst hlink
  have hexec : exec .farResetEnd s = .next s.takeResetEnd :=
    congrArg Host.Outcome.next (State.unlessReset_of_released hrst _)
  have hdue (htimer : s.far.resetTimer = 0) : s.far.resetEndDue = true := (resetEndDue_iff s).2 ⟨hlink, htimer⟩
  rw [hexec]
  refine ⟨fun htimer hwait => ?_, fun htimer hwait => ?_, fun htimer => ?_⟩
  · exact congrArg Host.Outcome.next ((if_pos (hdue htimer)).trans (if_pos hwait))
  · exact congrArg Host.Outcome.next ((if_pos (hdue htimer)).trans (if_neg hwait))
  · rw [takeResetEnd_of_not_due fun hreset => htimer hreset.2]

/-! ### An accepted reply -/

theorem State.stationPart_of_heard (s : State) (st : Station) {e : AttemptEnd} (h : e ≠ .silent) :
    s.stationPart st e = s.acceptReply st := by
  cases e
  case silent => exact absurd rfl h
  all_goals rfl

theorem replyEnd_ne_silent (isWrite : Bool) (kind : BitVec 2) (data : Word) (check : Bool) :
    replyEnd isWrite kind data check ≠ .silent := by
  unfold replyEnd
  cases replyKindOf kind with
  | done =>
    dsimp only
    split_ifs <;> simp
  | hold => simp
  | reject => simp

/-- A reply with the station and the tag in flight in AWAIT ends the attempt (R75). -/
theorem exec_of_awaits {s : State} {i : Slot} (h : s.Awaits i) (kind : BitVec 2) (data : Word) (check : Bool) :
    exec (.farReply (s.record i).station s.far.transaction.tag kind data check) s =
      .next ((s.heardFrom (s.record i).station).endRecord i
        (replyEnd ((s.record i).kind == .write) kind data check)) := by
  obtain ⟨hrst, hawait, hslot, hstation, hwrite, -⟩ := h
  have haccepts : s.far.accepts (s.record i).station s.far.transaction.tag = true := by
    simp [FarPort.accepts, hawait, hstation]
  have htaken : s.takeReply (s.record i).station s.far.transaction.tag kind data check =
      s.endTransaction (replyEnd s.far.transaction.isWrite kind data check) := if_pos haccepts
  rw [exec_farReply hrst, htaken, State.endTransaction, State.freed_link_eq,
    State.stationPart_of_heard _ _ (replyEnd_ne_silent _ _ _ _), State.acceptReply_linkFreed, hslot, hstation, hwrite]

section Unmarked

variable {s : State} {i : Slot} {e : AttemptEnd} {r : Record} (hattempt : (s.record i).state = .attempt)
  (hunmarked : (s.record i).withdrawn = false)

include hattempt hunmarked

theorem State.endRecord_of_unmarked : s.endRecord i e = s.applyEnd i e :=
  (if_pos hattempt).trans (if_neg (by rw [hunmarked]; decide))

/-- A final result makes the record READY (R87). -/
theorem State.endRecord_of_final {o : RecordOutcome} {d : Word}
    (hend : (s.record i).endResult s.params.holdBudget e = (r, .final o d)) :
    s.endRecord i e = s.attemptToReady i r o d := by
  have hr : r.state = .attempt := by
    rw [← hattempt, ← (s.record i).endResult_state s.params.holdBudget e, hend]
  rw [endRecord_of_unmarked hattempt hunmarked, applyEnd, hend]
  exact s.finalResult_eq i r o d hr hattempt

/-- A provisional result sends the record back to wait (R87, R97). -/
theorem State.endRecord_of_provisional
    (hend : (s.record i).endResult s.params.holdBudget e = (r, .provisional)) :
    s.endRecord i e = s.attemptProvisional i r := by
  have hr : r.state = .attempt := by
    rw [← hattempt, ← (s.record i).endResult_state s.params.holdBudget e, hend]
  rw [endRecord_of_unmarked hattempt hunmarked, applyEnd, hend]
  exact s.provisionalResult_eq i r hr hattempt

end Unmarked

/-- An accepted reply to an unmarked record with a final result. -/
theorem exec_of_finalReply {s : State} {i : Slot} (h : s.Awaits i) (hunmarked : (s.record i).withdrawn = false)
    {kind : BitVec 2} {data : Word} {check : Bool} {r : Record} {o : RecordOutcome} {d : Word}
    (hend : (s.record i).endResult s.params.holdBudget (replyEnd ((s.record i).kind == .write) kind data check) =
      (r, .final o d)) :
    exec (.farReply (s.record i).station s.far.transaction.tag kind data check) s =
      .next ((s.heardFrom (s.record i).station).attemptToReady i r o d) := by
  obtain ⟨-, -, -, -, -, hattempt⟩ := id h
  rw [exec_of_awaits h, State.endRecord_of_final (s := s.heardFrom _) hattempt hunmarked hend]

/-- An accepted reply to an unmarked record with a provisional result. -/
theorem exec_of_provisionalReply {s : State} {i : Slot} (h : s.Awaits i) (hunmarked : (s.record i).withdrawn = false)
    {kind : BitVec 2} {data : Word} {check : Bool} {r : Record}
    (hend : (s.record i).endResult s.params.holdBudget (replyEnd ((s.record i).kind == .write) kind data check) =
      (r, .provisional)) :
    exec (.farReply (s.record i).station s.far.transaction.tag kind data check) s =
      .next ((s.heardFrom (s.record i).station).attemptProvisional i r) := by
  obtain ⟨-, -, -, -, -, hattempt⟩ := id h
  rw [exec_of_awaits h, State.endRecord_of_provisional (s := s.heardFrom _) hattempt hunmarked hend]

/-! ### READ and WRITE records -/

theorem Record.endResult_of_readWrite {r : Record} (h : r.kind ≠ .watch) (budget : BitVec 8) (e : AttemptEnd) :
    r.endResult budget e = r.endReadWrite budget e := by
  unfold endResult
  cases hkind : r.kind with
  | watch => exact absurd hkind h
  | read => rfl
  | write => rfl

theorem Record.endResult_of_watch {r : Record} (h : r.kind = .watch) (budget : BitVec 8) (e : AttemptEnd) :
    r.endResult budget e = r.endPoll e := by
  unfold endResult
  rw [h]

/-- What a DONE with data hands on (R76). -/
theorem replyEnd_done_read {isWrite : Bool} (h : isWrite = false) (data : Word) (check : Bool) :
    replyEnd isWrite 0 data check = if passesCheck data check then .clean data else .tainted data := by
  subst h
  rfl

/-- Settles O45: DONE and REJECT are final for a READ or WRITE record (R88 to R91, R94). -/
theorem readOrWriteReplyIsFinal : Obligations.ReadOrWriteReplyIsFinal := by
  unfold Obligations.ReadOrWriteReplyIsFinal
  intro s i data check hawaits hunmarked hkind r reply ready
  have hready {kind : BitVec 2} {o : RecordOutcome} {d : Word}
      (hend : r.endReadWrite s.params.holdBudget (replyEnd (r.kind == .write) kind data check) = (r, .final o d)) :
      reply kind = ready o d :=
    exec_of_finalReply hawaits hunmarked ((Record.endResult_of_readWrite hkind _ _).trans hend)
  refine ⟨fun hread hpasses => hready ?_, fun hread hfails => hready ?_, fun hwrite => hready ?_, hready rfl,
    hready rfl⟩
  · rw [replyEnd_done_read (by rw [hread]; rfl), if_pos hpasses, Record.endReadWrite, if_pos hread]
  · rw [replyEnd_done_read (by rw [hread]; rfl), hfails, if_neg (by decide), Record.endReadWrite, if_pos hread]
  · rw [hwrite]
    exact congrArg (fun d => (r, AttemptResult.final .ok d)) (if_neg (by rw [hwrite]; decide))

/-- Settles O46: HOLD is counted first and then held against the budget (R93). -/
theorem holdIsCountedAgainstTheBudget : Obligations.HoldIsCountedAgainstTheBudget := by
  unfold Obligations.HoldIsCountedAgainstTheBudget
  intro s i data check hawaits hunmarked hkind r held reply
  have hend : r.endResult s.params.holdBudget (replyEnd (r.kind == .write) 1 data check) =
      (held, if s.params.holdBudget ≤ held.holdCount then .final .exhausted 0 else .provisional) := by
    rw [Record.endResult_of_readWrite hkind]
    simp only [held, ← satInc_byte]
    rfl
  constructor
  · intro hreached
    exact exec_of_finalReply hawaits hunmarked (hend.trans (congrArg (Prod.mk held) (if_pos hreached)))
  · intro hbelow
    exact exec_of_provisionalReply hawaits hunmarked
      (hend.trans (congrArg (Prod.mk held) (if_neg (BitVec.not_le.2 hbelow))))

/-! ### Polls -/

/-- A counter counts up to its largest value and is held there (00 section 6.6). -/
theorem satInc_eq {n : Nat} {largest : BitVec n} (h : BitVec.allOnes n = largest) (x : BitVec n) :
    satInc x = if x = largest then largest else x + 1 := by
  subst h
  unfold satInc
  split
  case isTrue hx => exact hx
  case isFalse => rfl

/-- The comparator's test, bit by bit (R112). -/
theorem finds_iff (mask reference value : Word) :
    finds mask reference value = true ↔
      ∃ k, mask.getLsbD k = true ∧ value.getLsbD k ≠ reference.getLsbD k := by
  unfold finds
  rw [and_bne_zero_iff]
  constructor
  · rintro ⟨k, -, hdiffers, hmask⟩
    exact ⟨k, hmask, by simpa using hdiffers⟩
  · rintro ⟨k, hmask, hdiffers⟩
    exact ⟨k, BitVec.lt_of_getLsbD hmask, by simpa using hdiffers, hmask⟩

/-- Settles O47: the comparator's steps in their order for clean data, and the other replies (R111, R116 to R119). -/
theorem pollReplyIsCompared : Obligations.PollReplyIsCompared := by
  unfold Obligations.PollReplyIsCompared
  intro s i data check hawaits hunmarked hkind r heard reply polled found reached
  have hread : (r.kind == Kind.write) = false := by rw [hkind]; rfl
  have hend (kind : BitVec 2) : r.endResult s.params.holdBudget (replyEnd (r.kind == .write) kind data check) =
      r.endPoll (replyEnd false kind data check) := by
    rw [Record.endResult_of_watch hkind, hread]
  have hclean (hpasses : passesCheck data check = true) : replyEnd false 0 data check = .clean data :=
    (replyEnd_done_read rfl data check).trans (if_pos hpasses)
  have hfound : (r.captured && finds r.mask r.reference data) = true ↔ found := by
    rw [Bool.and_eq_true, finds_iff]
  have hcompared : r.comparator data = (polled,
      if (r.captured && finds r.mask r.reference data) = true then .final .ok data
      else if reached then .final .expired data else .provisional) := by
    simp only [polled, reached, ← satInc_eq (n := 16) (largest := 65535) (by decide)]
    rfl
  refine ⟨fun hpasses hf => ?_, fun hpasses hf hl => ?_, fun hpasses hf hl => ?_, fun hfails => ?_, ?_, ?_, ?_⟩
  · refine exec_of_finalReply hawaits hunmarked ((hend 0).trans ?_)
    rw [hclean hpasses]
    exact hcompared.trans (congrArg (Prod.mk polled) (if_pos (hfound.2 hf)))
  · refine exec_of_finalReply hawaits hunmarked ((hend 0).trans ?_)
    rw [hclean hpasses]
    exact hcompared.trans (congrArg (Prod.mk polled) ((if_neg (mt hfound.1 hf)).trans (if_pos hl)))
  · refine exec_of_provisionalReply hawaits hunmarked ((hend 0).trans ?_)
    rw [hclean hpasses]
    exact hcompared.trans (congrArg (Prod.mk polled) ((if_neg (mt hfound.1 hf)).trans (if_neg hl)))
  · refine exec_of_finalReply hawaits hunmarked ((hend 0).trans ?_)
    rw [replyEnd_done_read rfl, hfails]
    rfl
  · exact exec_of_provisionalReply hawaits hunmarked (hend 1)
  · exact exec_of_finalReply hawaits hunmarked (hend 2)
  · exact exec_of_finalReply hawaits hunmarked (hend 3)

end Sys2Proof.Machine
end

