-- ==== Sys2Proof/Proofs/Silences.lean ====
section
/-! PROOF. The end of a transaction by silence, and the end of a marked record (R73, R97, R99, R127, R130, R170). The
Station Table takes the silence first, and may close the station; the record in flight is in ATTEMPT, so the closure
leaves it, and its own end is then judged at the station as the silence left it. -/

set_option Elab.async false

namespace Sys2Proof.Machine

/-! ### The silence at the Station Table -/

/-- SILENT, where it is due, frees the link, counts the silence and ends the record (R73, R77). -/
theorem exec_silent_of_awaits {s : State} {i : Slot} (h : s.Awaits i) (htimer : s.far.replyTimer = 0) :
    exec .silent s = .next ((s.linkFreed.countSilence (s.record i).station).endRecord i .silent) := by
  obtain ⟨hrst, hawait, hslot, hstation, -, -⟩ := h
  have htaken : s.takeSilent = s.endTransaction .silent := if_pos ((silentDue_iff s).2 ⟨hawait, htimer⟩)
  have hexec : exec .silent s = .next s.takeSilent :=
    congrArg Host.Outcome.next (State.unlessReset_of_released hrst _)
  rw [hexec, htaken, State.endTransaction, State.freed_link_eq, hslot, hstation]
  rfl

section CountSilence

variable {s : State} {st : Station}

/-- Below the limit the count rises (R130). -/
theorem State.countSilence_below (hservice : s.InService st)
    (hbelow : (s.stationEntry st).silences.toNat + 1 < s.params.silenceLimit.toNat) :
    s.countSilence st =
      s.setStation st { s.stationEntry st with silences := (s.stationEntry st).silences + 1 } := by
  have hlimit := s.params.silenceLimit.isLt
  have hraised : satInc (s.stationEntry st).silences = (s.stationEntry st).silences + 1 := by
    refine if_neg fun hlargest => ?_
    rw [hlargest, BitVec.toNat_allOnes] at hbelow
    omega
  have hunder : ¬ s.params.silenceLimit ≤ (s.stationEntry st).silences + 1 := by
    have hone : (1 : BitVec 4).toNat = 1 := rfl
    rw [BitVec.le_def, BitVec.toNat_add, hone]
    omega
  have hopen : ¬ (s.stationEntry st).mode.closed = true := fun hclosed =>
    (s.closed_iff_not_inService st).1 hclosed hservice
  unfold countSilence
  dsimp only
  rw [hraised, if_neg hopen, if_neg hunder]

/-- At the limit the station becomes UNREACHABLE and is closed (R127, R130). -/
theorem State.countSilence_at_limit (hservice : s.InService st)
    (hlimit : s.params.silenceLimit.toNat ≤ (s.stationEntry st).silences.toNat + 1) :
    s.countSilence st =
      let e := s.stationEntry st
      let t := (s.setStation st
        { e with mode := .unreachable, silences := if e.silences = 15 then 15 else e.silences + 1 }).closeStation st
      t.setFlags (t.flags.setLost st) := by
  have hraised : satInc (s.stationEntry st).silences =
      if (s.stationEntry st).silences = 15 then 15 else (s.stationEntry st).silences + 1 := satInc_eq (by decide) _
  have hreached : s.params.silenceLimit ≤ satInc (s.stationEntry st).silences := by
    have hlargest := s.params.silenceLimit.isLt
    rw [hraised, BitVec.le_def]
    split
    · exact Nat.le_of_lt_succ hlargest
    next hbelow =>
      have hne : (s.stationEntry st).silences.toNat ≠ 15 := fun heq => hbelow (BitVec.eq_of_toNat_eq heq)
      have hone : (1 : BitVec 4).toNat = 1 := rfl
      rw [BitVec.toNat_add, hone]
      omega
  have hopen : ¬ (s.stationEntry st).mode.closed = true := fun hclosed =>
    (s.closed_iff_not_inService st).1 hclosed hservice
  unfold countSilence
  dsimp only
  rw [if_neg hopen, if_pos hreached, hraised]

/-- At a closed station nothing is counted (R130). -/
theorem State.countSilence_of_off (hoff : (s.stationEntry st).mode = .off) : s.countSilence st = s :=
  if_pos (by rw [hoff]; rfl)

end CountSilence

/-! ### The record in flight -/

theorem Record.endResult_silent (r : Record) (budget : BitVec 8) : r.endResult budget .silent = (r, .provisional) := by
  unfold endResult
  cases r.kind <;> rfl

theorem State.freeRecord_flags (s : State) (i : Slot) : (s.freeRecord i).flags = s.flags := by
  rw [freeRecord_frame]

/-- The end of a marked record frees it and completes the command that waits for it (R99, R170). -/
theorem State.endRecord_of_marked {s : State} {i : Slot} (hattempt : (s.record i).state = .attempt)
    (hmarked : (s.record i).withdrawn = true) (hwait : s.command.wait = .slot i) (e : AttemptEnd) :
    s.endRecord i e = { s.freeRecord i with
      command := { s.command with busy := false, lastResult := .ok, wait := .nothing }
      flags := { s.flags with cmdDone := true } } := by
  have hended : s.endRecord i e = s.freeMarked i := (if_pos hattempt).trans (if_pos hmarked)
  have hcommand : (s.freeRecord i).command = s.command := s.freeRecord_command i
  have hflags : (s.freeRecord i).flags = s.flags := s.freeRecord_flags i
  have hwaits : (s.freeRecord i).command.wait = .slot i := by rw [hcommand, hwait]
  rw [hended, freeMarked, if_pos hwaits, complete_eq, hcommand, hflags]
  rfl

theorem State.freeRecord_setStation (s : State) (st : Station) (e : StationEntry) (i : Slot) :
    (s.setStation st e).freeRecord i = (s.freeRecord i).setStation st e := by
  by_cases hfree : (s.record i).state = .free
  · rw [s.freeRecord_of_free i hfree]
    exact (s.setStation st e).freeRecord_of_free i hfree
  · rw [s.freeRecord_of_live i hfree]
    exact (s.setStation st e).freeRecord_of_live i hfree

theorem State.attemptProvisional_of_inService {s : State} {i : Slot} {r : Record} (h : s.InService r.station) :
    s.attemptProvisional i r = s.attemptToWait i r := if_pos h

theorem State.attemptProvisional_of_closed {s : State} {i : Slot} {r : Record} (h : ¬ s.InService r.station) :
    s.attemptProvisional i r = s.attemptToReady i r .noStation 0 := if_neg h

theorem State.not_inService_of_mode {s : State} {st : Station}
    (h : (s.stationEntry st).mode = .off ∨ (s.stationEntry st).mode = .unreachable) : ¬ s.InService st := by
  rcases h with h | h <;> simp [InService, h]

/-- The silence of an unmarked record, after the Station Table has counted it. -/
theorem exec_silent_of_unmarked {s t : State} {i : Slot} (h : s.Awaits i) (hunmarked : (s.record i).withdrawn = false)
    (htimer : s.far.replyTimer = 0) (hcounted : s.linkFreed.countSilence (s.record i).station = t)
    (hrecord : t.record i = s.record i) : exec .silent s = .next (t.attemptProvisional i (s.record i)) := by
  obtain ⟨-, -, -, -, -, hattempt⟩ := id h
  rw [← hrecord] at hattempt hunmarked
  rw [exec_silent_of_awaits h htimer, hcounted,
    State.endRecord_of_provisional hattempt hunmarked (Record.endResult_silent _ _), hrecord]

/-- Settles O48: below the limit the silence is counted, at an OFF station it is not (R97, R130). -/
theorem silenceIsCounted : Obligations.SilenceIsCounted := by
  unfold Obligations.SilenceIsCounted
  intro s i hawaits hunmarked r e
  obtain ⟨hrst, -, -, -, -, -⟩ := id hawaits
  refine ⟨fun htimer hservice hbelow => ?_, fun htimer hoff => ?_, fun htimer => ?_⟩
  · have hcounted : s.linkFreed.countSilence r.station =
        s.linkFreed.setStation r.station { e with silences := e.silences + 1 } :=
      State.countSilence_below hservice hbelow
    have hstays : (s.linkFreed.setStation r.station { e with silences := e.silences + 1 }).InService r.station := by
      rw [State.InService, State.setStation_stationEntry, if_pos rfl]
      exact hservice
    rw [exec_silent_of_unmarked hawaits hunmarked htimer hcounted rfl, State.attemptProvisional_of_inService hstays]
    rfl
  · have hclosed : ¬ s.linkFreed.InService r.station := State.not_inService_of_mode (.inl hoff)
    have hcounted : s.linkFreed.countSilence r.station = s.linkFreed := State.countSilence_of_off hoff
    rw [exec_silent_of_unmarked hawaits hunmarked htimer hcounted rfl, State.attemptProvisional_of_closed hclosed]
  · refine congrArg Host.Outcome.next ((State.unlessReset_of_released hrst _).trans ?_)
    exact takeSilent_of_not_due fun hdue => htimer hdue.2

/-! ### The silence that loses the station -/

theorem Record.not_waitsAt_of_attempt {r : Record} (h : r.state = .attempt) (st : Station) : ¬ r.WaitsAt st := by
  simp [WaitsAt, h]

/-- The record in flight becomes READY NOSTATION with those that the closure reached. -/
theorem State.MadeNoStation.attemptToReady {s t : State} {P : Slot → Prop} (h : s.MadeNoStation t P) {i : Slot}
    (hi : ¬ P i) (hlimit : t.params.collectionLimit = s.params.collectionLimit) :
    s.MadeNoStation (t.attemptToReady i (s.record i) .noStation 0) fun j => j = i ∨ P j := by
  obtain ⟨hmade, hleft, hready⟩ := h
  have hrecord (j : Slot) : (t.attemptToReady i (s.record i) .noStation 0).record j =
      if j = i then (s.record i).asReady t.params.collectionLimit .noStation 0 else t.record j :=
    t.setRecord_record i _ j
  refine ⟨fun j hj => ?_, fun j hj => ?_, fun q => ?_⟩
  · rw [hrecord]
    by_cases hji : j = i
    · rw [if_pos hji, hji, hlimit]
    · rw [if_neg hji, hmade j (hj.resolve_left hji)]
  · obtain ⟨hji, hnot⟩ := not_or.1 hj
    rw [hrecord, if_neg hji, hleft j hnot]
  · have hset : (t.attemptToReady i (s.record i) .noStation 0).flags.ready.getLsbD q.val =
        (t.flags.ready.getLsbD q.val || q.val == (s.record i).requester.val) :=
      getLsbD_setBit t.flags.ready _ _ (s.record i).requester.isLt
    rw [hset, Bool.or_eq_true, beq_iff_eq, hready q, ← Fin.ext_iff, or_assoc]
    refine or_congr_right ⟨?_, ?_⟩
    · rintro (⟨j, hj, hq⟩ | hq)
      · exact ⟨j, .inr hj, hq⟩
      · exact ⟨i, .inl rfl, hq.symm⟩
    · rintro ⟨j, rfl | hj, hq⟩
      · exact .inr hq.symm
      · exact .inl ⟨j, hj, hq⟩

/-- The station has been lost by the silence that ended the transaction, and its waiting records have left the slots
and set the READY notices as given (R127, R130). -/
def State.stationLost (s : State) (st : Station) (slots : Vector Record 24) (ready : BitVec 8) : State :=
  let e := s.stationEntry st
  { s.linkFreed with
    slots := slots, summary := s.closedSummary st
    flags := { s.flags with ready := ready, lost := s.flags.lost ||| (1#16 <<< st.val) }
    stations := s.stations.set st
      { e with mode := .unreachable, silences := if e.silences = 15 then 15 else e.silences + 1 } }

theorem State.stationLost_not_inService (s : State) (st : Station) (slots : Vector Record 24) (ready : BitVec 8) :
    ¬ (s.stationLost st slots ready).InService st :=
  not_inService_of_mode (.inr (by simp [stationLost, stationEntry]))

/-- The silence that reaches the limit, at the Station Table. -/
theorem State.countSilence_lost {s : State} {st : Station} (hservice : s.InService st)
    (hlimit : s.params.silenceLimit.toNat ≤ (s.stationEntry st).silences.toNat + 1) :
    ∃ slots ready, s.linkFreed.countSilence st = s.stationLost st slots ready ∧
      s.MadeNoStation (s.stationLost st slots ready) fun j => (s.record j).WaitsAt st := by
  have hcounted := State.countSilence_at_limit (s := s.linkFreed) hservice hlimit
  obtain ⟨slots, ready, hclosed, hmade⟩ := State.closeStation_spec (s.linkFreed.setStation st
    { s.stationEntry st with
      mode := .unreachable
      silences := if (s.stationEntry st).silences = 15 then 15 else (s.stationEntry st).silences + 1 }) st
  rw [hclosed] at hmade
  exact ⟨slots, ready, hcounted.trans (congrArg (fun t : State => t.setFlags (t.flags.setLost st)) hclosed),
    hmade.of_same rfl rfl rfl rfl rfl⟩

/-- Settles O49: the closure reaches the waiting records, and the record in flight finds its station closed (R97, R127,
R130). -/
theorem silenceLimitLosesTheStation : Obligations.SilenceLimitLosesTheStation := by
  unfold Obligations.SilenceLimitLosesTheStation
  intro s i hawaits hunmarked htimer st e hservice hlimit
  obtain ⟨-, -, -, -, -, hattempt⟩ := id hawaits
  obtain ⟨slots, ready, hcounted, hmade⟩ := State.countSilence_lost hservice hlimit
  have hnot : ¬ (s.record i).WaitsAt st := Record.not_waitsAt_of_attempt hattempt st
  obtain ⟨-, hleft, -⟩ := id hmade
  refine ⟨(s.stationLost st slots ready).attemptToReady i (s.record i) .noStation 0, ?_, rfl,
    hmade.attemptToReady hnot rfl⟩
  rw [exec_silent_of_unmarked hawaits hunmarked htimer hcounted (hleft i hnot),
    State.attemptProvisional_of_closed (s.stationLost_not_inService st slots ready)]

/-! ### A marked record -/

/-- The freeing of a record that the closure does not reach leaves what the closure made. -/
theorem State.MadeNoStation.freeRecord {s t : State} {P : Slot → Prop} (h : s.MadeNoStation t P) {i : Slot}
    (hi : ¬ P i) : (s.freeRecord i).MadeNoStation (t.freeRecord i) P := by
  obtain ⟨hmade, hleft, hready⟩ := h
  have hne {j : Slot} (hj : P j) : j ≠ i := fun hji => hi (hji ▸ hj)
  have hkept {u : State} {j : Slot} (hj : P j) : (u.freeRecord i).record j = u.record j := by
    rw [u.freeRecord_record, if_neg fun hboth => hne hj hboth.1]
  have hparams (u : State) : (u.freeRecord i).params = u.params := by rw [u.freeRecord_frame]
  refine ⟨fun j hj => ?_, fun j hj => ?_, fun q => ?_⟩
  · rw [hkept hj, hkept hj, hparams, hmade j hj]
  · rw [t.freeRecord_record, s.freeRecord_record, hleft i hi, hleft j hj]
  · rw [freeRecord_flags, freeRecord_flags, hready q]
    exact or_congr_right (exists_congr fun j => and_congr_right fun hj => by rw [hkept hj])

/-- A record that two states hold alike is freed alike in the entry order and the requesters. -/
theorem State.freeRecord_frame_beside {s t : State} {i : Slot} (hrecord : t.record i = s.record i)
    (horder : t.order = s.order) (hrequesters : t.requesters = s.requesters) :
    t.freeRecord i = { t with
      slots := (t.freeRecord i).slots, summary := (t.freeRecord i).summary, order := (s.freeRecord i).order
      requesters := (s.freeRecord i).requesters } := by
  have hentries (q : Requester) : t.requesterEntry q = s.requesterEntry q := by rw [requesterEntry, hrequesters]; rfl
  have hfreedRequesters : (t.freeRecord i).requesters = (s.freeRecord i).requesters :=
    requesters_ext fun q => by rw [freeRecord_requesterEntry, freeRecord_requesterEntry, hrecord, hentries]
  have hfreedOrder : (t.freeRecord i).order = (s.freeRecord i).order := by
    unfold freeRecord
    rw [hrecord]
    dsimp only
    split
    · exact horder
    · exact congrArg (List.erase · i) horder
  rw [← hfreedRequesters, ← hfreedOrder]
  exact t.freeRecord_frame i

/-- Settles O50: whatever ends the transaction, the marked record is freed and the command completes (R99, R170). -/
theorem markedRecordIsFreed : Obligations.MarkedRecordIsFreed := by
  unfold Obligations.MarkedRecordIsFreed
  intro s i hawaits hmarked hwait r e command freed
  obtain ⟨-, -, -, -, -, hattempt⟩ := id hawaits
  have hfreed (t : State) (hrecord : t.record i = s.record i) (hcommand : t.command = s.command) (e : AttemptEnd) :
      t.endRecord i e = { t.freeRecord i with command := command, flags := { t.flags with cmdDone := true } } := by
    rw [State.endRecord_of_marked (by rw [hrecord, hattempt]) (by rw [hrecord, hmarked]) (by rw [hcommand, hwait]),
      hcommand]
  have hsilent {t : State} (htimer : s.far.replyTimer = 0) (hcounted : s.linkFreed.countSilence r.station = t)
      (hrecord : t.record i = s.record i) (hcommand : t.command = s.command) : exec .silent s =
        .next { t.freeRecord i with command := command, flags := { t.flags with cmdDone := true } } := by
    rw [exec_silent_of_awaits hawaits htimer, hcounted, hfreed t hrecord hcommand]
  have hfreedFrame : freed = { s.linkFreed with
      slots := freed.slots, order := freed.order, summary := freed.summary, requesters := freed.requesters } :=
    s.linkFreed.freeRecord_frame i
  have hstations : freed.stations = s.stations := by rw [hfreedFrame]; rfl
  refine ⟨fun kind data check => ?_, fun htimer hservice hbelow => ?_, fun htimer hservice hlimit => ?_,
    fun htimer hoff => ?_⟩
  · rw [exec_of_awaits hawaits, hfreed (s.heardFrom r.station) rfl rfl]
    rfl
  · have hcounted : s.linkFreed.countSilence r.station =
        s.linkFreed.setStation r.station { e with silences := e.silences + 1 } :=
      State.countSilence_below hservice hbelow
    rw [hsilent htimer hcounted rfl rfl, State.freeRecord_setStation, ← hstations]
    rfl
  · obtain ⟨slots, ready, hcounted, hmade⟩ := State.countSilence_lost hservice hlimit
    have hnot : ¬ (s.record i).WaitsAt r.station := Record.not_waitsAt_of_attempt hattempt _
    obtain ⟨-, hleft, -⟩ := id hmade
    have hrecord : (s.stationLost r.station slots ready).record i = s.record i := hleft i hnot
    refine ⟨_, hsilent htimer hcounted hrecord rfl, ?_, ?_⟩
    · have hframe := State.freeRecord_frame_beside (s := s.linkFreed) hrecord rfl rfl
      have hsummary : ((s.stationLost r.station slots ready).freeRecord i).summary =
          { s.closedSummary r.station with live := s.summary.live - 1, attempt := s.summary.attempt - 1 } := by
        rw [State.freeRecord_summary (by simp [hrecord, hattempt]), hrecord, hattempt]
        rfl
      rw [hsummary] at hframe
      rw [hframe, hfreedFrame]
      rfl
    · exact (State.MadeNoStation.freeRecord (s := s.linkFreed) hmade hnot).of_same rfl rfl rfl rfl
        (congrArg Notices.ready ((s.stationLost r.station slots ready).freeRecord_flags i)).symm
  · rw [hsilent htimer (State.countSilence_of_off hoff) rfl rfl]
    rfl

end Sys2Proof.Machine
end

