-- ==== Sys2Proof/Proofs/Choice.lean ====
section
/-! PROOF. The choice (R18, R52, R54, R57, R60 to R62, R70, R72). The model searches the stations in rotation and, at
each, the entry order; the statement speaks of turns and of older records. Both are places in a list, so one fact about
each kind of search, that it stops at the first place that passes, ties them together. -/

set_option Elab.async false

namespace Sys2Proof.Machine

/-! ### Places in a list -/

/-- The search of a list stops at the first place that passes. -/
theorem idxOf_lt_of_find {l : List Slot} {p : Slot → Bool} {i j : Slot} (h : l.find? p = some i) (hj : p j = true)
    (hji : j ≠ i) : l.idxOf i < l.idxOf j := by
  induction l with
  | nil => cases h
  | cons a l ih =>
    by_cases hp : p a = true
    · rw [List.find?_cons_of_pos hp] at h
      obtain rfl : a = i := Option.some.inj h
      rw [List.idxOf_cons_self, List.idxOf_cons_ne _ (Ne.symm hji)]
      exact Nat.succ_pos _
    · rw [List.find?_cons_of_neg hp] at h
      have hai : a ≠ i := fun hai => hp (hai ▸ List.find?_some h)
      have haj : a ≠ j := fun haj => hp (haj ▸ hj)
      rw [List.idxOf_cons_ne _ hai, List.idxOf_cons_ne _ haj]
      exact Nat.succ_lt_succ (ih h)

/-- A search that maps each place stops at the first place with a result. -/
theorem idxOf_le_of_findSome {l : List Station} {f : Station → Option Slot} {i : Slot} (h : l.findSome? f = some i) :
    ∃ st ∈ l, f st = some i ∧ ∀ st', f st' ≠ none → l.idxOf st ≤ l.idxOf st' := by
  induction l with
  | nil => cases h
  | cons a l ih =>
    cases hfa : f a with
    | some b =>
      rw [List.findSome?_cons, hfa] at h
      refine ⟨a, List.mem_cons_self, hfa.trans h, fun st' _ => ?_⟩
      rw [List.idxOf_cons_self]
      exact Nat.zero_le _
    | none =>
      rw [List.findSome?_cons, hfa] at h
      obtain ⟨st, hmem, hst, hfirst⟩ := ih h
      have hne {x : Station} (hx : f x ≠ none) : a ≠ x := fun hax => hx (hax ▸ hfa)
      refine ⟨st, List.mem_cons_of_mem _ hmem, hst, fun st' hst' => ?_⟩
      rw [List.idxOf_cons_ne _ (hne (by simp [hst])), List.idxOf_cons_ne _ (hne hst')]
      exact Nat.succ_le_succ (hfirst st' hst')

/-- The places before one in a list. -/
theorem mem_takeWhile_ne_iff {l : List Slot} {i j : Slot} :
    j ∈ l.takeWhile (fun k => k != i) ↔ l.idxOf j < l.idxOf i := by
  induction l with
  | nil => simp
  | cons a l ih =>
    by_cases hai : a = i
    · simp [hai]
    · rw [List.takeWhile_cons_of_pos (by simpa using hai), List.mem_cons, ih, List.idxOf_cons_ne _ hai]
      by_cases haj : a = j
      · simp [haj]
      · rw [List.idxOf_cons_ne _ haj]
        simp [Ne.symm haj]

/-! ### Which records may be attempted -/

/-- The older records are those before it in the entry order (R18). -/
theorem State.mem_older_iff (s : State) (i j : Slot) : j ∈ s.older i ↔ s.Older j i := mem_takeWhile_ne_iff

theorem Record.holdsPair_eq_false_iff (r : Record) (q : Requester) (st : Station) :
    r.holdsPair q st = false ↔ (r.kind ≠ .watch → r.requester = q → r.station = st → r.state = .ready) := by
  simp only [holdsPair, Bool.and_eq_false_imp, Bool.and_eq_true, bne_iff_ne, beq_iff_eq, and_imp, bne_eq_false_iff_eq]

theorem State.waitsForLink_iff (s : State) (i : Slot) :
    s.waitsForLink i = true ↔
      ((s.record i).state = .pending ∧ s.headOfPair i = true) ∨
        ((s.record i).state = .watch ∧ (s.record i).timer = 0) := by
  unfold waitsForLink
  cases hstate : (s.record i).state <;> simp

/-- Where each state belongs to its kinds, the record condition of R52 is that of the statement. -/
theorem State.eligible_iff {s : State} (hfields : s.FieldsExact) (i : Slot) :
    s.eligible i = true ↔ s.MayBeAttempted i := by
  obtain ⟨-, hstates, -, -⟩ := hfields
  obtain ⟨-, -, hpending, hwatch⟩ := hstates i
  have hhead : s.headOfPair i = true ↔ ∀ j, s.Older j i → (s.record j).kind ≠ .watch →
      (s.record j).requester = (s.record i).requester → (s.record j).station = (s.record i).station →
        (s.record j).state = .ready := by
    simp only [headOfPair_iff, mem_older_iff, Record.holdsPair_eq_false_iff]
  rw [eligible, Bool.and_eq_true, Bool.and_eq_true, beq_iff_eq, beq_iff_eq, waitsForLink_iff, hhead, MayBeAttempted,
    and_assoc]
  refine and_congr_right fun _ => and_congr_right fun _ => or_congr ?_ ?_
  · exact ⟨fun ⟨hstate, holder⟩ => ⟨hpending (.inl hstate), hstate, holder⟩,
      fun ⟨_, hstate, holder⟩ => ⟨hstate, holder⟩⟩
  · exact ⟨fun ⟨hstate, htimer⟩ => ⟨hwatch hstate, hstate, htimer⟩, fun ⟨_, hstate, htimer⟩ => ⟨hstate, htimer⟩⟩

/-! ### The record chosen -/

/-- A station's turn is its place in the rotation (R60). -/
theorem State.idxOf_rotation (s : State) (st : Station) : (rotationFrom s.pointer).idxOf st = s.turn st := by
  have hplace : ∀ p st : Fin 16, (rotationFrom p).idxOf st = (st.val + 15 - p.val) % 16 := by decide
  exact hplace s.pointer st

theorem mem_rotationFrom (p st : Station) : st ∈ rotationFrom p := by
  revert p st
  decide

theorem State.turn_inj {s : State} {st st' : Station} (h : s.turn st = s.turn st') : st = st' := by
  rw [← idxOf_rotation, ← idxOf_rotation] at h
  exact (List.idxOf_inj (mem_rotationFrom s.pointer st)).1 h

theorem State.MayBeAttempted.live {s : State} {i : Slot} (h : s.MayBeAttempted i) : (s.record i).live := by
  obtain ⟨-, -, ⟨-, hstate, -⟩ | ⟨-, hstate, -⟩⟩ := h <;> simp [hstate]

/-- At most one record is first in the rotation and the oldest of its station. -/
theorem State.IsChosen.unique {s : State} {i j : Slot} (hi : s.IsChosen i) (hj : s.IsChosen j) : i = j := by
  by_contra hne
  obtain ⟨hij, hold⟩ := hi.2 j hj.1 (Ne.symm hne)
  obtain ⟨hji, hold'⟩ := hj.2 i hi.1 hne
  have hsame : (s.record i).station = (s.record j).station := turn_inj (Nat.le_antisymm hij hji)
  exact absurd (hold hsame.symm) (Nat.lt_asymm (hold' hsame))

section Chosen

variable {s : State} (hfields : s.FieldsExact) (horder : s.OrderExact)

include hfields horder

/-- A station with a record that may be attempted has an oldest one. -/
theorem State.oldestEligible_ne_none {i : Slot} (h : s.MayBeAttempted i) :
    s.oldestEligible (s.record i).station ≠ none := by
  intro hnone
  have hpasses := List.find?_eq_none.1 hnone i ((horder.2 i).2 h.live)
  exact hpasses (by simp [(eligible_iff hfields i).2 h])

theorem State.isChosen_of_chosen {i : Slot} (h : s.chosen = some i) : s.IsChosen i := by
  obtain ⟨st, -, hst, hfirst⟩ := idxOf_le_of_findSome h
  have hfound := List.find?_some hst
  simp only [Bool.and_eq_true, beq_iff_eq] at hfound
  obtain ⟨rfl, heligible⟩ := hfound
  refine ⟨(eligible_iff hfields i).1 heligible, fun j hj hji => ⟨?_, fun hsame => ?_⟩⟩
  · rw [← idxOf_rotation, ← idxOf_rotation]
    exact hfirst _ (oldestEligible_ne_none hfields horder hj)
  · exact idxOf_lt_of_find hst (by simp [hsame, (eligible_iff hfields j).2 hj]) hji

theorem State.exists_chosen {i : Slot} (h : s.MayBeAttempted i) : ∃ j, s.chosen = some j := by
  refine Option.ne_none_iff_exists'.1 fun hnone => ?_
  exact oldestEligible_ne_none hfields horder h
    (List.findSome?_eq_none_iff.1 hnone _ (mem_rotationFrom s.pointer (s.record i).station))

theorem State.chosen_eq_some_iff (i : Slot) : s.chosen = some i ↔ s.IsChosen i := by
  refine ⟨isChosen_of_chosen hfields horder, fun h => ?_⟩
  obtain ⟨j, hj⟩ := exists_chosen hfields horder h.1
  rw [hj, (isChosen_of_chosen hfields horder hj).unique h]

theorem State.chosen_eq_none_iff : s.chosen = none ↔ ∀ i, ¬ s.MayBeAttempted i := by
  constructor
  · intro hnone i h
    obtain ⟨j, hj⟩ := exists_chosen hfields horder h
    rw [hnone] at hj
    cases hj
  · intro hnot
    refine Option.eq_none_iff_forall_ne_some.2 fun i hi => ?_
    exact hnot i (isChosen_of_chosen hfields horder hi).1

end Chosen

/-! ### The hand-over -/

/-- A record that is handed over moves to ATTEMPT in the summary counts from the state in which it waited. -/
theorem Summary.attempt_of_waiting (c : Summary) {x : RecordState} (h : x = .pending ∨ x = .watch) :
    (c.add .attempt).sub x =
      { c with
        attempt := c.attempt + 1, pending := c.pending - if x = .pending then 1 else 0
        watch := c.watch - if x = .watch then 1 else 0 } := by
  rcases h with rfl | rfl <;> rfl

/-- Settles O42: the choice takes the record that the statement describes, and hands it over (R57, R60 to R62). -/
theorem choiceHandsOverByRotationAndAge : Obligations.ChoiceHandsOverByRotationAndAge := by
  unfold Obligations.ChoiceHandsOverByRotationAndAge
  intro s hrst hfields horder
  have hexec : exec .choice s = .next s.choose := congrArg Host.Outcome.next (State.unlessReset_of_released hrst _)
  refine ⟨fun i hchosen => ?_, fun ⟨i, hi⟩ => ?_, fun hnot => ?_⟩
  · have hfound : s.chosen = some i := (State.chosen_eq_some_iff hfields horder i).2 hchosen
    have hwaits : (s.record i).state = .pending ∨ (s.record i).state = .watch := by
      obtain ⟨⟨-, -, ⟨-, hstate, -⟩ | ⟨-, hstate, -⟩⟩, -⟩ := hchosen
      · exact .inl hstate
      · exact .inr hstate
    have hhanded : s.choose = s.handOver i := by
      rw [State.choose, hfound]
    intro r
    rw [hexec, hhanded, State.handOver, State.setRecord, Summary.attempt_of_waiting _ hwaits]
    rfl
  · obtain ⟨j, hj⟩ := State.exists_chosen hfields horder hi
    exact ⟨j, State.isChosen_of_chosen hfields horder hj⟩
  · have hnone : s.chosen = none := (State.chosen_eq_none_iff hfields horder).2 hnot
    rw [hexec, State.choose, hnone]

end Sys2Proof.Machine
end

