-- ==== Sys2Proof/Proofs/Expiries.lean ====
section
/-! PROOF. Time (R72, R85, R138, R139, R141 to R144, R185). The expiries first, each at its own slot. A tick takes all
that is due and then counts, so an event that is due first can be taken before the tick without a difference: what the
tick then still takes is what it would have taken after that event. -/

set_option Elab.async false

namespace Sys2Proof.Machine

/-! ### The expiries -/

theorem State.expiryDue_eq_true {s : State} {i : Slot} {st : RecordState} (hexpiring : (s.record i).expiring = true)
    (hstate : (s.record i).state = st) : s.expiryDue i st = true := (s.expiryDue_iff i st).2 ⟨hexpiring, hstate⟩

theorem State.not_expiryDue {s : State} {i : Slot} {st : RecordState}
    (h : (s.record i).expiring = false ∨ (s.record i).state ≠ st) : ¬ s.expiryDue i st = true := by
  rw [expiryDue_iff]
  rintro ⟨hexpiring, hstate⟩
  rcases h with h | h
  · exact absurd (h.symm.trans hexpiring) (by decide)
  · exact h hstate

theorem State.takeBackoffEnd_of_due {s : State} {i : Slot} (hexpiring : (s.record i).expiring = true)
    (hstate : (s.record i).state = .backoff) :
    s.takeBackoffEnd i = { s with
      slots := s.slots.set i (s.record i).backoffOver
      summary := { s.summary with backoff := s.summary.backoff - 1, pending := s.summary.pending + 1 } } := by
  have hcounts : (s.summary.add (s.record i).backoffOver.state).sub (s.record i).state =
      { s.summary with backoff := s.summary.backoff - 1, pending := s.summary.pending + 1 } := by
    rw [hstate]
    rfl
  rw [takeBackoffEnd, if_pos (expiryDue_eq_true hexpiring hstate), setRecord, hcounts]

theorem State.takeWatchDue_of_due {s : State} {i : Slot} (hexpiring : (s.record i).expiring = true)
    (hstate : (s.record i).state = .watch) :
    s.takeWatchDue i = { s with slots := s.slots.set i (s.record i).nowDue } :=
  (if_pos (expiryDue_eq_true hexpiring hstate)).trans (s.setRecord_of_sameState rfl)

theorem State.takeDiscard_of_due {s : State} {i : Slot} (hexpiring : (s.record i).expiring = true)
    (hstate : (s.record i).state = .ready) :
    s.takeDiscard i =
      let q := (s.record i).requester
      let e := s.requesterEntry q
      { s.freeRecord i with
        requesters := s.requesters.set q
          { e with live := e.live - 1, unclaimed := if e.unclaimed = 255 then 255 else e.unclaimed + 1 }
        flags := { s.flags with unclaimed := s.flags.unclaimed ||| (1#8 <<< q.val) } } := by
  have hlive : (s.record i).live := by simp [hstate]
  have htaken : s.takeDiscard i = s.discardRecord i := if_pos (expiryDue_eq_true hexpiring hstate)
  have hentry := s.freeRecord_requesterEntry i (s.record i).requester
  rw [if_pos ⟨hlive, rfl⟩] at hentry
  rw [htaken, discardRecord]
  dsimp only
  rw [hentry, freeRecord_flags, satInc_byte, s.freeRecord_of_live i hlive]
  simp only [setRequester, setFlags, setOrder, Vector.set_set]
  rfl

theorem State.takeBackoffEnd_of_not_due {s : State} {i : Slot}
    (h : (s.record i).expiring = false ∨ (s.record i).state ≠ .backoff) : s.takeBackoffEnd i = s :=
  if_neg (not_expiryDue h)

theorem State.takeWatchDue_of_not_due {s : State} {i : Slot}
    (h : (s.record i).expiring = false ∨ (s.record i).state ≠ .watch) : s.takeWatchDue i = s :=
  if_neg (not_expiryDue h)

theorem State.takeDiscard_of_not_due {s : State} {i : Slot}
    (h : (s.record i).expiring = false ∨ (s.record i).state ≠ .ready) : s.takeDiscard i = s :=
  if_neg (not_expiryDue h)

/-- Settles O53: each expiry where it is due, and nothing where it is not (R142 to R144). -/
theorem expiriesMoveTheirRecords : Obligations.ExpiriesMoveTheirRecords := by
  unfold Obligations.ExpiriesMoveTheirRecords
  intro s i hrst r e
  have hexec {t u : State} (h : t = u) :
      (.next (s.unlessReset t) : Host.Outcome State Fault Refusal) = .next u :=
    congrArg Host.Outcome.next ((State.unlessReset_of_released hrst t).trans h)
  exact ⟨fun hexpiring hstate => hexec (State.takeBackoffEnd_of_due hexpiring hstate),
    fun hexpiring hstate => hexec (State.takeWatchDue_of_due hexpiring hstate),
    fun hexpiring hstate => hexec (State.takeDiscard_of_due hexpiring hstate),
    fun h => hexec (State.takeBackoffEnd_of_not_due h), fun h => hexec (State.takeWatchDue_of_not_due h),
    fun h => hexec (State.takeDiscard_of_not_due h)⟩

/-! ### An event that is taken before the tick -/

/-- The end of a transaction leaves the link in IDLE, with nothing else of the Far Port changed by what follows. -/
theorem State.endTransaction_far (s : State) (e : AttemptEnd) : (s.endTransaction e).far = s.far.over .idle :=
  (State.endRecord_drops _ _ e).far.trans (State.stationPart_sameLink _ _ e).far

/-- The expiry that was due at a slot has been taken: it is over there, and nothing else that a tick takes has
changed. -/
structure State.ExpiryTaken (s : State) (i : Slot) (u : State) : Prop where
  taken : takeExpiry s i = u
  far : u.far = s.far
  rst : u.rstAsserted = s.rstAsserted
  spent : (u.record i).expiring = false
  others : ∀ j, j ≠ i → u.record j = s.record j

section ExpiryTaken

variable {s : State} {i : Slot} (hexpiring : (s.record i).expiring = true)

include hexpiring

theorem State.expiryTaken_backoffEnd (hstate : (s.record i).state = .backoff) :
    s.ExpiryTaken i (s.takeBackoffEnd i) := by
  have htaken : s.takeBackoffEnd i = s.setRecord i (s.record i).backoffOver :=
    if_pos (expiryDue_eq_true hexpiring hstate)
  have hover : ((s.takeBackoffEnd i).record i).expiring = false := by
    rw [htaken, setRecord_record, if_pos rfl]
    rfl
  refine ⟨?_, ?_, ?_, hover, fun j hj => ?_⟩
  · rw [takeExpiry, takeWatchDue_of_not_due (.inl hover), takeDiscard_of_not_due (.inl hover)]
  · rw [htaken, setRecord_far]
  · rw [htaken, setRecord_rstAsserted]
  · rw [htaken, setRecord_record, if_neg hj]

theorem State.expiryTaken_watchDue (hstate : (s.record i).state = .watch) : s.ExpiryTaken i (s.takeWatchDue i) := by
  have htaken : s.takeWatchDue i = s.setRecord i (s.record i).nowDue := if_pos (expiryDue_eq_true hexpiring hstate)
  have hover : ((s.takeWatchDue i).record i).expiring = false := by
    rw [htaken, setRecord_record, if_pos rfl]
    rfl
  refine ⟨?_, ?_, ?_, hover, fun j hj => ?_⟩
  · rw [takeExpiry, takeBackoffEnd_of_not_due (.inr (by simp [hstate])), takeDiscard_of_not_due (.inl hover)]
  · rw [htaken, setRecord_far]
  · rw [htaken, setRecord_rstAsserted]
  · rw [htaken, setRecord_record, if_neg hj]

theorem State.expiryTaken_discard (hstate : (s.record i).state = .ready) : s.ExpiryTaken i (s.takeDiscard i) := by
  have htaken : s.takeDiscard i = s.discardRecord i := if_pos (expiryDue_eq_true hexpiring hstate)
  have hrecord (j : Slot) : (s.takeDiscard i).record j = if j = i ∧ (s.record i).live then .free else s.record j := by
    rw [htaken]
    exact s.freeRecord_record i j
  refine ⟨?_, ?_, ?_, ?_, fun j hj => ?_⟩
  · rw [takeExpiry, takeBackoffEnd_of_not_due (.inr (by simp [hstate])),
      takeWatchDue_of_not_due (.inr (by simp [hstate]))]
  · rw [htaken]
    exact (congrArg State.far (s.freeRecord_frame i) :)
  · rw [htaken]
    exact (congrArg State.rstAsserted (s.freeRecord_frame i) :)
  · rw [hrecord, if_pos ⟨rfl, by simp [hstate]⟩]
    rfl
  · rw [hrecord, if_neg fun hboth => hj hboth.1]

end ExpiryTaken

/-- A fold over slots in ascending order finds the lowest expiry first, so that one may as well be taken before. -/
theorem foldl_takeExpiry_of_taken {s u : State} {i : Slot} (h : s.ExpiryTaken i u)
    (hlowest : ∀ j, j < i → (s.record j).expiring = false) {l : List Slot} (hl : l.Pairwise (· < ·)) (hi : i ∈ l) :
    l.foldl takeExpiry s = l.foldl takeExpiry u := by
  induction l with
  | nil => cases hi
  | cons a l ih =>
    obtain ⟨hbelow, hl⟩ := List.pairwise_cons.1 hl
    rw [List.foldl_cons, List.foldl_cons]
    rcases List.mem_cons.1 hi with rfl | hi
    · rw [h.taken, takeExpiry_of_not_expiring h.spent]
    · have hai : a < i := hbelow i hi
      have ha : (s.record a).expiring = false := hlowest a hai
      have hau : (u.record a).expiring = false := by rw [h.others a hai.ne, ha]
      rw [takeExpiry_of_not_expiring ha, takeExpiry_of_not_expiring hau]
      exact ih hl hi

/-- What a tick takes after the expiry due first is what it takes with it. -/
theorem State.ExpiryTaken.takeDue {s u : State} {i : Slot} (h : s.ExpiryTaken i u) (hsilent : ¬ s.SilentDue)
    (hreset : ¬ s.ResetEndDue) (hlowest : ∀ j, j < i → (s.record j).expiring = false) : s.takeDue = u.takeDue := by
  have hsilent' : ¬ u.SilentDue := by rwa [SilentDue, h.far]
  have hreset' : ¬ u.ResetEndDue := by rwa [ResetEndDue, h.far]
  rw [State.takeDue, State.takeDue, takeSilent_of_not_due hsilent, takeResetEnd_of_not_due hreset,
    takeSilent_of_not_due hsilent', takeResetEnd_of_not_due hreset']
  exact foldl_takeExpiry_of_taken h hlowest (List.pairwise_lt_finRange 24) (List.mem_finRange i)

theorem State.takeSilent_takeDue {s : State} (h : s.SilentDue) : s.takeDue = s.takeSilent.takeDue := by
  have hlink : s.takeSilent.far.link = .idle := by
    rw [takeSilent, if_pos ((silentDue_iff s).2 h), endTransaction_far]
    rfl
  have hover : ¬ s.takeSilent.SilentDue := fun hdue => absurd (hlink.symm.trans hdue.1) (by decide)
  rw [takeDue, takeDue, takeSilent_of_not_due hover]

theorem State.takeResetEnd_takeDue {s : State} (h : s.ResetEndDue) : s.takeDue = s.takeResetEnd.takeDue := by
  have hlink : s.takeResetEnd.far.link = .idle := by
    rw [takeResetEnd, if_pos ((resetEndDue_iff s).2 h)]
    dsimp only
    split <;> rfl
  have hsilent : ¬ s.SilentDue := fun hdue => absurd (h.1.symm.trans hdue.1) (by decide)
  have hover : ¬ s.takeResetEnd.SilentDue := fun hdue => absurd (hlink.symm.trans hdue.1) (by decide)
  have hended : ¬ s.takeResetEnd.ResetEndDue := fun hdue => absurd (hlink.symm.trans hdue.1) (by decide)
  rw [takeDue, takeDue, takeSilent_of_not_due hsilent, takeSilent_of_not_due hover, takeResetEnd_of_not_due hended]

end Sys2Proof.Machine
end

