-- ==== Sys2Proof/Proofs/Time.lean ====
section
/-! PROOF. The tick and the step (R72, R85, R138, R139, R141, R185; assumptions 4 and 6). -/

set_option Elab.async false

namespace Sys2Proof.Machine

/-! ### The tick -/

theorem exec_tick {s : State} (h : s.rstAsserted = false) : exec .tick s = .next s.tick :=
  congrArg Host.Outcome.next (State.unlessReset_of_released h _)

/-- A tick after the event due first is a tick that takes that event itself (assumption 4). -/
theorem exec_tick_of_firstDue {s u : State} {c : Instr} (hrst : s.rstAsserted = false) (hfirst : s.FirstDue c)
    (hexec : exec c s = .next u) : exec .tick s = exec .tick u := by
  have hnext {t : State} (hc : exec c s = .next (s.unlessReset t)) : u = t := by
    rw [hexec, State.unlessReset_of_released hrst] at hc
    exact Host.Outcome.next.inj hc
  have htick (htaken : s.takeDue = u.takeDue) (hrst' : u.rstAsserted = false) : exec .tick s = exec .tick u := by
    rw [exec_tick hrst, exec_tick hrst', State.tick, htaken]
    rfl
  have hexpiry {i : Slot} (htaken : s.ExpiryTaken i u) (hsilent : ¬ s.SilentDue) (hreset : ¬ s.ResetEndDue)
      (hlowest : ∀ j, j < i → (s.record j).expiring = false) : exec .tick s = exec .tick u :=
    htick (htaken.takeDue hsilent hreset hlowest) (htaken.rst.trans hrst)
  rcases hfirst with ⟨rfl, hdue⟩ | ⟨rfl, hdue⟩ | ⟨hsilent, hreset, i, hexpiring, hlowest, hkind⟩
  · obtain rfl := hnext (t := s.takeSilent) rfl
    exact htick (State.takeSilent_takeDue hdue) (s.takeSilent_run.rstAsserted.trans hrst)
  · obtain rfl := hnext (t := s.takeResetEnd) rfl
    exact htick (State.takeResetEnd_takeDue hdue) (s.takeResetEnd_run.rstAsserted.trans hrst)
  · rcases hkind with ⟨rfl, hstate⟩ | ⟨rfl, hstate⟩ | ⟨rfl, hstate⟩
    · obtain rfl := hnext (t := s.takeBackoffEnd i) rfl
      exact hexpiry (State.expiryTaken_backoffEnd hexpiring hstate) hsilent hreset hlowest
    · obtain rfl := hnext (t := s.takeWatchDue i) rfl
      exact hexpiry (State.expiryTaken_watchDue hexpiring hstate) hsilent hreset hlowest
    · obtain rfl := hnext (t := s.takeDiscard i) rfl
      exact hexpiry (State.expiryTaken_discard hexpiring hstate) hsilent hreset hlowest

theorem Record.running_iff (r : Record) :
    r.running = true ↔ r.timer ≠ 0 ∧ (r.state = .backoff ∨ r.state = .watch ∨ r.state = .ready) := by
  simp [running, or_assoc]

/-- A tick at a record, in the words of the statement (R141). -/
theorem Record.countdown_eq (r : Record) :
    r.countdown =
      if r.timer ≠ 0 ∧ (r.state = .backoff ∨ r.state = .watch ∨ r.state = .ready) then
        (if r.timer = 1 then { r with expiring := true } else { r with timer := r.timer - 1 })
      else r := by
  rw [countdown]
  by_cases hrunning : r.running = true
  · rw [if_pos hrunning, if_pos ((running_iff r).1 hrunning)]
  · rw [if_neg hrunning, if_neg (mt (running_iff r).2 hrunning)]

/-- A tick at the Far Port, in the words of the statement (R72, R85). -/
theorem FarPort.countdown_eq (f : FarPort) :
    f.countdown = { f with
      replyTimer := if (f.link = .request ∨ f.link = .await) ∧ f.replyTimer ≠ 0 then f.replyTimer - 1 else f.replyTimer
      resetTimer := if f.link = .reset then f.resetTimer - 1 else f.resetTimer } := by
  have hcounts : stopDec f.replyTimer = if f.replyTimer ≠ 0 then f.replyTimer - 1 else f.replyTimer := by
    rw [stopDec, ite_not]
  unfold countdown
  cases f with
  | mk link => cases link <;> simp [hcounts]

/-- Settles O52: what is due is taken first, and then the timers count (R139, R141). -/
theorem tickRunsTheTimers : Obligations.TickRunsTheTimers := by
  unfold Obligations.TickRunsTheTimers
  intro s hrst
  refine ⟨fun c u => exec_tick_of_firstDue hrst, fun hnothing => ?_⟩
  refine ⟨s.handTick, ?_, rfl, fun i => ?_, s.far.countdown_eq⟩
  · rw [exec_tick hrst, tick_of_nothingDue hnothing]
  · rw [State.handTick_record, Record.countdown_eq]

/-! ### The part on its own -/

/-- A search over all slots in ascending order answers at the lowest one with a result. -/
theorem findSome_slots_eq_some {α : Type} {f : Slot → Option α} {i : Slot} {a : α} (hi : f i = some a)
    (hlowest : ∀ j, j < i → f j = none) : (List.finRange 24).findSome? f = some a := by
  have hsorted : ∀ l : List Slot, l.Pairwise (· < ·) → i ∈ l → l.findSome? f = some a := by
    intro l hl hmem
    induction l with
    | nil => cases hmem
    | cons b l ih =>
      obtain ⟨hbelow, hl⟩ := List.pairwise_cons.1 hl
      rw [List.findSome?_cons]
      rcases List.mem_cons.1 hmem with rfl | hmem
      · rw [hi]
      · rw [hlowest b (hbelow i hmem)]
        exact ih hl hmem
  exact hsorted _ (List.pairwise_lt_finRange 24) (List.mem_finRange i)

theorem State.slotEvent_of_not_expiring {s : State} {i : Slot} (h : (s.record i).expiring = false) :
    s.slotEvent i = none := by
  rw [slotEvent, if_neg (not_expiryDue (.inl h)), if_neg (not_expiryDue (.inl h)), if_neg (not_expiryDue (.inl h))]

theorem State.slotEvent_of_expiring {s : State} {i : Slot} {c : Instr} (hexpiring : (s.record i).expiring = true)
    (hkind : (c = .backoffEnd i ∧ (s.record i).state = .backoff) ∨ (c = .watchDue i ∧ (s.record i).state = .watch) ∨
      (c = .discard i ∧ (s.record i).state = .ready)) : s.slotEvent i = some c := by
  rcases hkind with ⟨rfl, hstate⟩ | ⟨rfl, hstate⟩ | ⟨rfl, hstate⟩ <;>
    simp [slotEvent, expiryDue, hexpiring, hstate]

/-- The own event that is taken is the one due first. -/
theorem State.ownEvent_of_firstDue {s : State} {c : Instr} (hrst : s.rstAsserted = false) (h : s.FirstDue c) :
    s.ownEvent = some c := by
  unfold ownEvent
  rw [if_neg (by rw [hrst]; decide)]
  rcases h with ⟨rfl, hdue⟩ | ⟨rfl, hdue⟩ | ⟨hsilent, hreset, i, hexpiring, hlowest, hkind⟩
  · rw [if_pos ((silentDue_iff s).2 hdue)]
  · have hsilent : ¬ s.SilentDue := fun hawait => absurd (hdue.1.symm.trans hawait.1) (by decide)
    rw [if_neg (mt (silentDue_iff s).1 hsilent), if_pos ((resetEndDue_iff s).2 hdue)]
  · have hfound : (List.finRange 24).findSome? s.slotEvent = some c :=
      findSome_slots_eq_some (slotEvent_of_expiring hexpiring hkind) fun j hj =>
        slotEvent_of_not_expiring (hlowest j hj)
    rw [if_neg (mt (silentDue_iff s).1 hsilent), if_neg (mt (resetEndDue_iff s).1 hreset), hfound]

/-- With nothing due from a tick, the part looks at the beats of a request, and then at a choice. -/
theorem State.ownEvent_of_nothingDue {s : State} (hrst : s.rstAsserted = false) (h : s.NothingDue) :
    s.ownEvent =
      if s.far.lastBeatDue then some .lastBeatDriven else if s.chosen.isSome then some .choice else none := by
  obtain ⟨hexpiring, hsilent, hreset⟩ := h
  have hfound : (List.finRange 24).findSome? s.slotEvent = none :=
    List.findSome?_eq_none_iff.2 fun i _ => slotEvent_of_not_expiring (hexpiring i)
  unfold ownEvent
  rw [if_neg (by rw [hrst]; decide), if_neg (mt (silentDue_iff s).1 hsilent), if_neg (mt (resetEndDue_iff s).1 hreset),
    hfound]

theorem Transaction.clks_eq (x : Transaction) : x.clks = if x.isWrite then 4 else 2 := by
  rw [clks, beats]
  cases x.isWrite <;> rfl

theorem State.lastBeatDue_iff (s : State) : s.far.lastBeatDue = true ↔ s.BeatsDriven := by
  rw [FarPort.lastBeatDue, Bool.and_eq_true, beq_iff_eq, decide_eq_true_iff, Transaction.clks_eq]

/-- With RST# asserted nothing happens of its own (R183). -/
theorem stepIdle_of_reset {s : State} (h : s.rstAsserted = true) : stepIdle s = .next s := by
  rw [stepIdle, State.ownEvent_of_asserted h]
  exact congrArg Host.Outcome.next (State.clkPeriod_of_asserted h)

/-- Settles O2: the own event due first, else the beats, else a choice, else a CLK period (R138, R185; assumption 6). -/
theorem idleStepIsOwnEventOrClkPeriod : Obligations.IdleStepIsOwnEventOrClkPeriod := by
  unfold Obligations.IdleStepIsOwnEventOrClkPeriod
  intro s hqueue laws far
  refine ⟨fun hrst => ?_, fun hrst => ⟨fun c hfirst => ?_, fun hnothing hbeats => ?_, fun hnothing hexact hmay => ?_,
    fun hnothing hexact hbeats hnot => ?_, fun hnone hbelow => ?_, fun hnone hreached => ?_⟩⟩
  · rw [step, hqueue]
    exact stepIdle_of_reset hrst
  · exact step_of_ownEvent hqueue (State.ownEvent_of_firstDue hrst hfirst)
  · refine step_of_ownEvent hqueue ?_
    rw [State.ownEvent_of_nothingDue hrst hnothing, if_pos (s.lastBeatDue_iff.2 hbeats)]
  · obtain ⟨i, hi⟩ := hmay
    have hidle : ¬ s.BeatsDriven := fun hbeats => absurd (hbeats.1.symm.trans hi.1) (by decide)
    obtain ⟨j, hj⟩ := State.exists_chosen hexact.1 hexact.2 hi
    refine step_of_ownEvent hqueue ?_
    rw [State.ownEvent_of_nothingDue hrst hnothing, if_neg (mt s.lastBeatDue_iff.1 hidle), hj]
    rfl
  · rw [State.ownEvent_of_nothingDue hrst hnothing, if_neg (mt s.lastBeatDue_iff.1 hbeats),
      (State.chosen_eq_none_iff hexact.1 hexact.2).2 hnot]
    rfl
  · rw [step_of_no_ownEvent hqueue hnone]
    refine congrArg Host.Outcome.next ((if_neg (by rw [hrst]; decide)).trans ?_)
    exact if_neg (Nat.not_le.2 hbelow)
  · have hreleased : (s.setFar s.far.clk).rstAsserted = false := hrst
    have hperiod : s.clkPeriod = (s.setFar s.far.clk).tick :=
      (if_neg (by rw [hrst]; decide)).trans (if_pos hreached)
    rw [step_of_no_ownEvent hqueue hnone, hperiod]
    exact (exec_tick hreleased).symm

/-- Settles O1: the front of the queue is taken by the step itself. -/
theorem stepRunsFrontCommand : Obligations.StepRunsFrontCommand := by
  unfold Obligations.StepRunsFrontCommand
  intro c rest s
  rfl

end Sys2Proof.Machine
end
